-- ==== Sys2Proof/Word.lean ====
section
/-! DEFINITION. The widths of the B32OTP core (spec rules R9, R51, R60). -/

namespace Sys2Proof

/-- One 32-bit bus word (R51, R63). -/
abbrev Word := BitVec 32

/-- One byte, an integer 0..255 (R9). -/
abbrev Byte := BitVec 8

/-- A 12-bit byte offset in the block's 4 KiB window (R60). -/
abbrev Offset := BitVec 12

end Sys2Proof
end

