-- ==== Sys2Proof/Config.lean ====
section
/-! DEFINITION. What the platform fixes and the spec leaves open (R5, section 93): constants with no body, so that
no proof can see a value of one. -/

namespace Sys2Proof

/-- `HMAC_FN` (R5, R52, U7, U12): the total function the provider computes, of the key and the 8-byte message. -/
opaque Config.hmacFn : List Byte → List Byte → List Byte

/-- U1, R170: the draw that byte `a` of a buffer holds after the `epoch`-th reset until something writes it. -/
opaque Config.powerOnByte : Nat → Nat → Byte

/-- U2, R66: the `n`-th draw for a bus read, while BUSY, of a word the command in flight writes. -/
opaque Config.freeWord : Nat → Word

/-- U4, R52: byte `k` of the `n`-th draw for a digest of a provider that breaks its contract. -/
opaque Config.freeDigestByte : Nat → Nat → Byte

/-- U5, R53: the `n`-th draw of the time input where the environment has not said what the clock source drives. -/
opaque Config.freeTime : Nat → BitVec 64

/-- `BASE` (R60, U19): where the platform puts the block's 4 KiB window. -/
opaque Config.base : Nat

/-- `IRQ_LINE` (R157, U19): which line of the host's interrupt controller the output drives. -/
opaque Config.irqLine : Nat

end Sys2Proof
end

