-- ==== Sys2Proof/Syntax.lean ====
section
/-! DEFINITION. The commands of the block, one constructor per row of spec/opcode_table.json (R81). -/

namespace Sys2Proof

/-- The six commands (R81). Every operand is an implicit register (R83), so no constructor has a field. -/
inductive Instr where
  /-- 0x1, R108: Base32-encode BIN[0..BLEN-1] into TXT, TLEN. -/
  | encode
  /-- 0x2, R109: Base32-decode TXT[0..TLEN-1] into BIN, BLEN. -/
  | decode
  /-- 0x3, R130: HOTP code of the decoded TXT secret at counter CNT. -/
  | generate
  /-- 0x4, R131: TOTP window validation of CAND/CLEN at the sampled time. -/
  | validate
  /-- 0x5, R129: dynamic truncation and rendering of DG[0..DLEN-1]. -/
  | truncate
  /-- 0x6, R140: erase the secret-bearing state. -/
  | clear
  deriving DecidableEq, Repr

end Sys2Proof
end

