-- ==== Sys2Proof/WellFormed.lean ====
section
/-! DEFINITION. Which 32-bit CMD values are commands (R82), stated on the raw word in the rule's own mask form. -/

namespace Sys2Proof

/-- R82, first check: the reserved field RSVD = v[31:4] is zero, in mask form. -/
def CmdWord.rsvdZero (v : Word) : Bool := (v &&& 0xFFFFFFF0#32) == 0#32

/-- R82, second check: OP = v[3:0] is one of the six values 0x1..0x6. -/
def CmdWord.opDefined (v : Word) : Bool :=
  decide (1 ≤ (v.extractLsb' 0 4).toNat) && decide ((v.extractLsb' 0 4).toNat ≤ 6)

/-- R82: a CMD value is legal exactly when RSVD = 0 and OP is one of the six opcodes. -/
def CmdWord.legal (v : Word) : Bool := CmdWord.rsvdZero v && CmdWord.opDefined v

/-- A command carries no operand field (R83, R84), so every term of `Instr` is well formed. -/
def Instr.wellFormed : Instr → Bool
  | .encode => true
  | .decode => true
  | .generate => true
  | .validate => true
  | .truncate => true
  | .clear => true

end Sys2Proof
end

