-- ==== Sys2Proof/Decode.lean ====
section
/-! DEFINITION. The decoder of CMD words (R80-R82) and, after it, the encoder. -/

namespace Sys2Proof

/-- Why a CMD value is illegal (R82). -/
inductive DecodeReject where
  /-- RSVD = v[31:4] is not zero. -/
  | reservedBitsSet
  /-- OP = v[3:0] is 0x0 or 0x7..0xF. -/
  | reservedOpcode
  deriving DecidableEq, Repr

/-- What the decoder answers. -/
inductive Decoded where
  | ok (i : Instr)
  | reject (r : DecodeReject)
  deriving DecidableEq, Repr

/-- OP = v[3:0] (R80). -/
def cmdOp (v : Word) : BitVec 4 := v.extractLsb' 0 4

/-- RSVD = v[31:4] (R80). -/
def cmdRsvd (v : Word) : BitVec 28 := v.extractLsb' 4 28

/-- The command that an OP value names (R81); `none` for the reserved opcodes. -/
def instrOfOp (op : BitVec 4) : Option Instr :=
  match op.toNat with
  | 1 => some .encode
  | 2 => some .decode
  | 3 => some .generate
  | 4 => some .validate
  | 5 => some .truncate
  | 6 => some .clear
  | _ => none

/-- The decoder, total on every 32-bit word (R80, R82). -/
def decode (v : Word) : Decoded :=
  if cmdRsvd v = 0#28 then
    match instrOfOp (cmdOp v) with
    | some i => .ok i
    | none => .reject .reservedOpcode
  else .reject .reservedBitsSet

/-- The OP value of a command (R81). -/
def opcode : Instr → BitVec 4
  | .encode => 0x1#4
  | .decode => 0x2#4
  | .generate => 0x3#4
  | .validate => 0x4#4
  | .truncate => 0x5#4
  | .clear => 0x6#4

/-- The encoder: RSVD = 0 above OP (R80). -/
def encode (i : Instr) : Word := 0#28 ++ opcode i

/-- The row of the opcode table that a table word decodes to. A command is one 32-bit word (R80), so a table
word is read at 32 bits and a value that does not fit `nbits` or 32 bits is no row's word. -/
def decodeTableWord (nbits w : Nat) : Option Instr :=
  if w < 2 ^ nbits ∧ w < 2 ^ 32 then
    match decode (BitVec.ofNat 32 w) with
    | .ok i => some i
    | .reject _ => none
  else none

end Sys2Proof
end

