-- ==== Sys2Proof/Machine/State.lean ====
section
/-! DEFINITION. The state of the block (R20) and, beside it as plain data, the inputs and outputs of its steps. -/

namespace Sys2Proof.Machine

/-- The fault reasons of a step. There is NONE: the block takes no trap and never stops (R156); an error of a command
is a completion that records a code in STATUS.ERR (R150), and a bus error is a response on the bus (R159). -/
inductive Fault where
  deriving DecidableEq, Repr

/-- The refusal reasons of a step. -/
inductive Refusal where
  /-- Raised by `exec` for a command with no meaning yet (safe). No arm of `exec` raises it in this model. -/
  | notModelled (mnemonic : String)
  deriving DecidableEq, Repr

/-- SEQ, the sequencer state (R44). -/
inductive Seq where
  | idle
  | run (op : Instr)
  deriving DecidableEq, Repr

/-- The six codes STATUS.ERR can hold (R150); 0x6..0xF are never produced (U8). -/
inductive ErrCode where
  | noError
  | illegalCmd
  | badBlen
  | badTlen
  | badDsize
  | truncRange
  deriving DecidableEq, Repr

/-- CTX, the latched command context (R46). -/
structure Ctx where
  op : BitVec 4
  dsize : BitVec 7
  w : BitVec 8
  now : BitVec 64
  deriving DecidableEq, Repr

/-- The contents of the three buffer windows, keyed by byte offset in the block's window (R40-R42, R67): the bytes
written since the last reset, addresses strictly rising. A byte that is not listed has not been written. -/
abbrev Memory := List Host.Cell

/-- The host-visible registers (R21). -/
inductive Reg where
  | id | param | ctrl | cmd | status | pcfg | blen | tlen | dlen | window | cntLo | cntHi | cand0 | cand1 | clen
  | trunc | cval | code0 | code1 | nowLo | nowHi
  deriving DecidableEq, Repr

/-- The host-visible byte buffers (R40-R42). -/
inductive Buf where
  | dg | bin | txt
  deriving DecidableEq, Repr

/-- What a 12-bit bus offset selects (R21, R63, R64). -/
inductive Loc where
  | reg (r : Reg)
  /-- Word `j` of a buffer window, its bytes 4j..4j+3 (R67). -/
  | word (b : Buf) (j : Nat)
  /-- offset[1:0] is not 0 (R63). -/
  | misaligned
  /-- An aligned offset that nothing answers (R64). -/
  | unmapped
  deriving DecidableEq, Repr

/-- The OK / ERROR answer of a bus transaction (R51). -/
inductive BusStatus where
  | ok | error
  deriving DecidableEq, Repr

/-- The answer of the bus port: a read returns a value too (R61-R64). -/
inductive BusResponse where
  | read (status : BusStatus) (value : Word)
  | write (status : BusStatus)
  deriving DecidableEq, Repr

/-- A request on the HMAC provider port (R52). -/
structure HmacRequest where
  key : List Byte
  msg : List Byte
  deriving DecidableEq, Repr

/-- One point of `HMAC_FN` whose value the environment states (R5: a known answer is a value of the parameter). -/
structure HmacPoint where
  key : List Byte
  msg : List Byte
  digest : List Byte
  deriving DecidableEq, Repr

/-- How the provider behaves during a step (R52, U4, U9). -/
inductive ProviderConduct where
  /-- Every request is answered with the value of the fixed function `HMAC_FN`. -/
  | keepsContract
  /-- U4: the function changes during the command, so the digest bytes are draws. -/
  | breaksContract
  /-- U9: no request is answered. -/
  | silent
  deriving DecidableEq, Repr

/-- The inputs of a step beside the bus (R20, R53, R52). -/
structure Inputs where
  /-- The time input as the environment drives it; `none`: the environment has not said, so a sample is a draw (U5). -/
  time : Option (BitVec 64)
  conduct : ProviderConduct
  deriving DecidableEq, Repr

/-- The four kinds of step (R7). -/
inductive Action where
  | busRead (off : Offset)
  | busWrite (off : Offset) (v : Word)
  /-- The sequencer's turn: the completion of the command in flight. -/
  | completion
  | reset
  deriving DecidableEq, Repr

/-- One step still to come: its action and the inputs at that step. -/
structure Turn where
  inputs : Inputs
  action : Action
  deriving DecidableEq, Repr

/-- The state of the block (R20), a field per field of each register (R22-R38), then the model's own fields. -/
structure State where
  /-- SEQ (R44); STATUS.BUSY is computed from it. -/
  seq : Seq
  /-- CTRL.IE (R24). -/
  ctrlIe : Bool
  /-- STATUS.DONE (R26). -/
  done : Bool
  /-- STATUS.MATCH (R26). -/
  matched : Bool
  /-- STATUS.UNAVAIL (R26). -/
  unavail : Bool
  /-- STATUS.ERR (R26, R150). -/
  err : ErrCode
  /-- STATUS.WERR (R26, R158). -/
  werr : Bool
  /-- STATUS.LOP (R26). -/
  lop : BitVec 4
  /-- PCFG.EN (R27). -/
  pcfgEn : Bool
  /-- PCFG.DSIZE (R27). -/
  pcfgDsize : BitVec 7
  /-- BLEN (R28). -/
  blen : BitVec 8
  /-- TLEN (R29). -/
  tlen : BitVec 9
  /-- DLEN (R30). -/
  dlen : BitVec 7
  /-- WINDOW.W (R31). -/
  window : BitVec 8
  /-- CNT_LO, CNT_HI (R32). -/
  cntLo : Word
  cntHi : Word
  /-- CAND0, CAND1 (R33). -/
  cand0 : Word
  cand1 : Word
  /-- CLEN (R34). -/
  clen : BitVec 4
  /-- TRUNC (R35). -/
  trunc : BitVec 31
  /-- CVAL (R36). -/
  cval : BitVec 20
  /-- CODE0 and the 16 significant bits of CODE1 (R37). -/
  code0 : Word
  code1 : BitVec 16
  /-- NOW_LO, NOW_HI (R38). -/
  nowLo : Word
  nowHi : Word
  /-- The buffers DG, BIN and TXT (R40-R42). -/
  mem : Memory
  /-- KEY, its 160 bytes, and KLEN (R45). -/
  key : List Byte
  klen : Nat
  /-- CTX (R46). -/
  ctx : Ctx
  /-- MODEL's own: the steps to come, first one first (R7). -/
  turns : List Turn
  /-- MODEL's own: the inputs of the step (R20). -/
  inputs : Inputs
  /-- MODEL's own: the stated points of `HMAC_FN` (R5); elsewhere it is `Config.hmacFn`. -/
  hmacPoints : List HmacPoint
  /-- MODEL's own: how many free values have been drawn. -/
  draws : Nat
  /-- MODEL's own: how many resets there have been (U1: one draw per byte at each reset). -/
  epoch : Nat
  /-- MODEL's own, output of the latest step: its bus response, `none` if it was no bus transaction. -/
  response : Option BusResponse
  /-- MODEL's own, output of the latest step: its requests on the provider port, first one first. -/
  requests : List HmacRequest
  deriving DecidableEq, Repr

/-- The state right after reset (R170, R21): every register at the value of R21's table, IDLE, KEY zero, no buffer byte
written. CTX is unspecified there (U18); zero is a DESIGN CHOICE (log 3), read before an accept writes it by nothing. -/
def State.reset : State where
  seq := .idle
  ctrlIe := false
  done := false
  matched := false
  unavail := false
  err := .noError
  werr := false
  lop := 0
  pcfgEn := false
  pcfgDsize := 0
  blen := 0
  tlen := 0
  dlen := 0
  window := 5
  cntLo := 0
  cntHi := 0
  cand0 := 0
  cand1 := 0
  clen := 0
  trunc := 0
  cval := 0
  code0 := 0
  code1 := 0
  nowLo := 0
  nowHi := 0
  mem := []
  key := List.replicate 160 0
  klen := 0
  ctx := { op := 0, dsize := 0, w := 0, now := 0 }
  turns := []
  inputs := { time := none, conduct := .keepsContract }
  hmacPoints := []
  draws := 0
  epoch := 0
  response := none
  requests := []

end Sys2Proof.Machine
end

