-- ==== Sys2Proof/Machine/Ops.lean ====
section
/-! DEFINITION. The shared operations: bytes and words, buffer memory, KEY, the two ports, and the accept and
completion of a command (the block's only form of trap entry, R156). -/

namespace Sys2Proof.Machine

/-! ### Bit fields and byte order -/

/-- `v[hi:lo]` of a number, read as an unsigned integer (R8). -/
def bits (v hi lo : Nat) : Nat := v / 2 ^ lo % 2 ^ (hi + 1 - lo)

/-- The four bytes of a bus word, the least significant first (R67). -/
def bytesOfWord (v : Word) : List Byte :=
  [v.extractLsb' 0 8, v.extractLsb' 8 8, v.extractLsb' 16 8, v.extractLsb' 24 8]

/-- The bus word whose bytes from the least significant are `b0`, `b1`, `b2`, `b3` (R67). -/
def wordOfBytes (b0 b1 b2 b3 : Byte) : Word := b3 ++ b2 ++ b1 ++ b0

/-! ### Buffer memory -/

/-- The byte listed at an address, if one is. -/
def Memory.get? : Memory → Nat → Option Byte
  | [], _ => none
  | (b, v) :: m, a => if a = b then some v else Memory.get? m a

/-- The cells of a run of bytes that begins at `a`. -/
def cellsFrom : Nat → List Byte → Memory
  | _, [] => []
  | a, b :: bs => (a, b) :: cellsFrom (a + 1) bs

/-- Store a run of bytes from address `a` up. An unlisted byte is one that has not been written, which no byte value
says, so a store always lists its bytes. -/
def Memory.store (m : Memory) (a : Nat) (bs : List Byte) : Memory :=
  m.filter (fun c => decide (c.1 < a)) ++ cellsFrom a bs ++ m.filter (fun c => decide (a + bs.length ≤ c.1))

/-- The first offset of a buffer's window (R40-R42). -/
def Buf.base : Buf → Nat
  | .dg => 0x100
  | .bin => 0x200
  | .txt => 0x400

/-- The capacity of a buffer in bytes (R5, R40-R42). -/
def Buf.cap : Buf → Nat
  | .dg => 64
  | .bin => 160
  | .txt => 256

/-- Whether a byte offset lies in a buffer window (R21, R64). -/
def isBufferAddr (a : Nat) : Bool :=
  (decide (0x100 ≤ a) && decide (a < 0x140)) || (decide (0x200 ≤ a) && decide (a < 0x2A0)) ||
    (decide (0x400 ≤ a) && decide (a < 0x500))

/-- The canonical form: addresses strictly rising, every one in a buffer window. What an unlisted address reads as is
'not written' (`none`), which no entry equals. -/
abbrev Memory.wf (m : Memory) : Prop :=
  m.Pairwise (fun c d => c.1 < d.1) ∧ ∀ c ∈ m, isBufferAddr c.1 = true

/-- The byte at a window offset: what was last written there, else the draw of the last reset (R70, U1). -/
def State.readByte (s : State) (a : Nat) : Byte := (s.mem.get? a).getD (Config.powerOnByte s.epoch a)

/-- The bytes 0..n-1 of a buffer. -/
def State.readBuf (s : State) (b : Buf) (n : Nat) : List Byte := (List.range n).map fun i => s.readByte (b.base + i)

/-- Write bytes 0..k-1 of a buffer and leave the rest (R40-R42). There is no byte beyond the capacity. -/
def State.writeBuf (s : State) (b : Buf) (bs : List Byte) : State :=
  { s with mem := s.mem.store b.base (bs.take b.cap) }

/-- The bus word `j` of a buffer window (R67). -/
def State.readBufWord (s : State) (b : Buf) (j : Nat) : Word :=
  wordOfBytes (s.readByte (b.base + 4 * j)) (s.readByte (b.base + 4 * j + 1)) (s.readByte (b.base + 4 * j + 2))
    (s.readByte (b.base + 4 * j + 3))

/-- A bus write of word `j` of a buffer window (R62, R67). -/
def State.writeBufWord (s : State) (b : Buf) (j : Nat) (v : Word) : State :=
  { s with mem := s.mem.store (b.base + 4 * j) (bytesOfWord v) }

/-! ### KEY -/

/-- The KEY buffer with every byte zero (R45). -/
def zeroKey : List Byte := List.replicate 160 0

/-- `KEY <- k ; KLEN <- |k|` (R45): the key's bytes from KEY[0] up, the other bytes of KEY kept. -/
def State.setKey (s : State) (k : List Byte) : State := { s with key := k ++ s.key.drop k.length, klen := k.length }

/-- `KEY[0..KLEN-1]`, what the provider is given (R45, R52). -/
def State.keyBytes (s : State) : List Byte := s.key.take s.klen

/-! ### Ports -/

/-- The digest a stated point of `HMAC_FN` gives, if one is stated for this key and message. -/
def hmacPoint? : List HmacPoint → List Byte → List Byte → Option (List Byte)
  | [], _, _ => none
  | p :: ps, key, msg => if p.key = key ∧ p.msg = msg then some p.digest else hmacPoint? ps key msg

/-- `HMAC_FN` (R5, R52): a fixed function of key and message. -/
def State.hmac (s : State) (key msg : List Byte) : List Byte :=
  (hmacPoint? s.hmacPoints key msg).getD (Config.hmacFn key msg)

/-- Whether the digest bytes the block uses for this request are those of `HMAC_FN`: the provider keeps its contract,
its answer's length too (R52). -/
def State.answerKept (s : State) (key msg : List Byte) (n : Nat) : Bool :=
  decide (s.inputs.conduct = .keepsContract) && decide ((s.hmac key msg).length = n)

/-- One request on the provider port with message `msg` and its digest of `n` bytes (R52). Where the contract is broken
the bytes are a draw (U4). -/
def State.hmacCall (s : State) (msg : List Byte) (n : Nat) : List Byte × State :=
  let asked := { s with requests := s.requests ++ [{ key := s.keyBytes, msg := msg }] }
  if s.answerKept s.keyBytes msg n then (s.hmac s.keyBytes msg, asked)
  else ((List.range n).map (Config.freeDigestByte s.draws), { asked with draws := s.draws + 1 })

/-- `Now()` (R53): one sample of the time input and the draws counter after it; a draw where the environment has not
said what the clock source drives (U5). -/
def State.sampleTime (s : State) : BitVec 64 × Nat :=
  match s.inputs.time with
  | some t => (t, s.draws)
  | none => (Config.freeTime s.draws, s.draws + 1)

/-- The answer of the bus port to the transaction of this step (R51). -/
def State.respond (s : State) (r : BusResponse) : State := { s with response := some r }

/-! ### Accept and completion -/

/-- STATUS.BUSY (R44). -/
def State.busy (s : State) : Bool := decide (s.seq ≠ .idle)

/-- The record every accept makes first (R151): DONE, MATCH, UNAVAIL and ERR cleared, LOP set; WERR unchanged. -/
def State.acceptRecord (s : State) (op : BitVec 4) : State :=
  { s with done := false, matched := false, unavail := false, err := .noError, lop := op }

/-- `CTX.op <- v[3:0]` of a legal accept (R151). -/
def State.latchOp (s : State) (op : BitVec 4) : State := { s with ctx := { s.ctx with op := op } }

/-- `CTX.dsize <- PCFG.DSIZE` (R130, R131, R46). -/
def State.latchDsize (s : State) : State := { s with ctx := { s.ctx with dsize := s.pcfgDsize } }

/-- `CTX.w <- WINDOW.W` (R131, R46). -/
def State.latchWindow (s : State) : State := { s with ctx := { s.ctx with w := s.window } }

/-- `BLEN <- n`, `TLEN <- n` and `DLEN <- n` (R10: a value stored into a field is stored modulo its width). -/
def State.setBlen (s : State) (n : Nat) : State := { s with blen := BitVec.ofNat 8 n }

def State.setTlen (s : State) (n : Nat) : State := { s with tlen := BitVec.ofNat 9 n }

def State.setDlen (s : State) (n : Nat) : State := { s with dlen := BitVec.ofNat 7 n }

/-- `SEQ <- RUN(op)` (R151). -/
def State.start (s : State) (i : Instr) : State := { s with seq := .run i }

/-- `complete(err, match, unavail)` (R152): the record that ends a command, this block's whole trap entry (R156). -/
def State.complete (s : State) (err : ErrCode) (matched unavail : Bool) : State :=
  { s with seq := .idle, done := true, matched := matched, unavail := unavail, err := err, key := zeroKey, klen := 0 }

/-- `raise Error(code)` (R11, R152). -/
def State.raiseError (s : State) (code : ErrCode) : State := s.complete code false false

/-- The unavailable result (R154). -/
def State.unavailable (s : State) : State := s.complete .noError false true

/-- The host's acknowledgement, this block's whole trap return (R156): a write to STATUS clears DONE where bit 1 is
written 1 and WERR where bit 8 is (R26). -/
def State.acknowledge (s : State) (v : Word) : State :=
  { s with done := s.done && !v.getLsbD 1, werr := s.werr && !v.getLsbD 8 }

/-- A bus write that is ignored because BUSY = 1 (R65, R158). -/
def State.lockedWrite (s : State) : State := { s with werr := true }

/-- The accept of an illegal CMD value (R82, R151, R153). -/
def State.acceptIllegal (s : State) (v : Word) : State := (s.acceptRecord (cmdOp v)).raiseError .illegalCmd

/-- The two parts of a command's rule (R151, R152). IDLE: the command is accepted. In flight: it is completed. While
another command is in flight it is not accepted (R65; a case step never makes: DESIGN CHOICE, safe, log 1). -/
def State.runCommand (s : State) (i : Instr) (accept completion : State → State) :
    Host.Outcome State Fault Refusal :=
  match s.seq with
  | .idle => .next (accept ((s.acceptRecord (opcode i)).latchOp (opcode i)))
  | .run j => if j = i then .next (completion s) else .next s.lockedWrite

end Sys2Proof.Machine
end

