-- ==== Sys2Proof/Machine/Operands.lean ====
section
/-! DEFINITION. The operands of the commands, all implicit registers (R83, R84), and the two string views (R43). -/

namespace Sys2Proof.Machine

/-- The 64-bit counter `CNT = CNT_HI ‖ CNT_LO`, unsigned (R32, R84). -/
def State.cnt (s : State) : Nat := (s.cntHi ++ s.cntLo : BitVec 64).toNat

/-- `BIN[0..BLEN-1]`, the operand of ENCODE (R108). -/
def State.binArg (s : State) : List Byte := s.readBuf .bin s.blen.toNat

/-- `TXT[0..TLEN-1]`, the EncodedSecret that DECODE, GENERATE and VALIDATE read (R109, R130, R131). -/
def State.txtArg (s : State) : List Byte := s.readBuf .txt s.tlen.toNat

/-- `DG[0..DLEN-1]`, the operand of TRUNCATE (R129). -/
def State.dgArg (s : State) : List Byte := s.readBuf .dg s.dlen.toNat

/-- Candidate byte `i`, 0..7 (R33). -/
def State.candByte (s : State) (i : Nat) : Byte :=
  if i < 4 then s.cand0.extractLsb' (8 * i) 8 else s.cand1.extractLsb' (8 * (i - 4)) 8

/-- Code character `i`, 0..5, the most significant digit first (R37). -/
def State.codeChar (s : State) (i : Nat) : Byte :=
  if i < 4 then s.code0.extractLsb' (8 * i) 8 else s.code1.extractLsb' (8 * (i - 4)) 8

/-- CANDSTR (R43): the candidate string; `none` where CLEN is 9..15, a longer string whose bytes the block lacks. -/
def State.candStr (s : State) : Option (List Byte) :=
  if s.clen.toNat ≤ 8 then some ((List.range s.clen.toNat).map s.candByte) else none

/-- CODESTR (R43): the 6 bytes of the code string. -/
def State.codeStr (s : State) : List Byte := (List.range 6).map s.codeChar

/-- `CODEEQ()` (R124): CLEN = 6 and the candidate bytes 0..5 equal the code characters. -/
def State.codeEq (s : State) : Bool :=
  decide (s.clen.toNat = 6) && (List.range 6).all fun i => decide (s.candByte i = s.codeChar i)

/-- A digest length the block takes, 1..64 (R153 items 4 and 7). -/
def digestLenLegal (n : BitVec 7) : Bool := decide (1 ≤ n.toNat) && decide (n.toNat ≤ 64)

/-- A TXT length the block takes (R153 item 5). -/
def tlenLegal (n : BitVec 9) : Bool := decide (n.toNat ≤ 256)

/-- A BIN length the block takes (R153 item 6). -/
def blenLegal (n : BitVec 8) : Bool := decide (n.toNat ≤ 160)

end Sys2Proof.Machine
end

