-- ==== Sys2Proof/Machine/Codec.lean ====
section
/-! DEFINITION. The Base32 codec (R100-R107) and the commands ENCODE and DECODE (R108, R109). -/

namespace Sys2Proof.Machine

/-- `ALPHA[i]`, i = 0..31: 'A'..'Z' then '2'..'7' (R100). -/
def alpha (i : Nat) : Byte := if i < 26 then BitVec.ofNat 8 (0x41 + i) else BitVec.ofNat 8 (0x32 + (i - 26))

/-- The padding character '=' (R100). -/
def padChar : Byte := 0x3D#8

/-- `SYMIDX(b)` (R101); `none` is the rule's NONE. There is no case folding (D9). -/
def symIdx (b : Byte) : Option Nat :=
  if 0x41 ≤ b.toNat ∧ b.toNat ≤ 0x5A then some (b.toNat - 0x41)
  else if 0x32 ≤ b.toNat ∧ b.toNat ≤ 0x37 then some (b.toNat - 0x32 + 26)
  else none

/-- `PADCNT[r]` for r = n mod 5 (R102): 3, not 4, at remainder 2 (C5). -/
def padCnt (r : Nat) : Nat :=
  match r with
  | 0 => 0
  | 1 => 6
  | 2 => 3
  | 3 => 3
  | _ => 1

/-- The 40 bits of block `k` of an input, zero bytes beyond its end (R103). -/
def encBlock (s : List Byte) (k : Nat) : Nat :=
  let b := fun i => (s.getD (5 * k + i) 0).toNat
  b 0 * 2 ^ 32 + b 1 * 2 ^ 24 + b 2 * 2 ^ 16 + b 3 * 2 ^ 8 + b 4

/-- Symbol `j` of a 40-bit block, the most significant 5 bits first (R103). -/
def encSymbol (blk j : Nat) : Byte := alpha (bits blk (39 - 5 * j) (35 - 5 * j))

/-- `B32ENC(s)` (R103). -/
def b32enc (s : List Byte) : List Byte :=
  let nb := (s.length + 4) / 5
  let p := padCnt (s.length % 5)
  (List.range (8 * nb)).map fun i =>
    if 8 * nb - p ≤ i then padChar else encSymbol (encBlock s (i / 8)) (i % 8)

/-- `TAIL(acc, L)` (R105, D10): the L leftover bits at the top of a byte. -/
def tailByte (acc l : Nat) : Byte := BitVec.ofNat 8 (acc * 2 ^ (8 - l))

/-- The scan of `B32DEC` from an accumulator `acc` that holds `l` bits (R104). -/
def b32decFrom : List Byte → Nat → Nat → List Byte
  | [], acc, l => if 0 < l then [tailByte acc l] else []
  | c :: t, acc, l =>
    match symIdx c with
    | none => b32decFrom t acc l
    | some v =>
      if 8 ≤ l + 5 then
        BitVec.ofNat 8 ((acc * 32 + v) / 2 ^ (l + 5 - 8)) ::
          b32decFrom t ((acc * 32 + v) % 2 ^ (l + 5 - 8)) (l + 5 - 8)
      else b32decFrom t ((acc * 32 + v) % 2 ^ (l + 5)) (l + 5)

/-- `B32DEC(t)` (R104). -/
def b32dec (t : List Byte) : List Byte := b32decFrom t 0 0

/-! ### ENCODE -/

/-- The accept part of R108. -/
def acceptEncode (s : State) : State := if blenLegal s.blen then s.start .encode else s.raiseError .badBlen

/-- The completion part of R108. -/
def completeEncode (s : State) : State :=
  let out := b32enc s.binArg
  ((s.writeBuf .txt out).setTlen out.length).complete .noError false false

/-- ENCODE (R108). -/
def execEncode (s : State) : Host.Outcome State Fault Refusal := s.runCommand .encode acceptEncode completeEncode

/-! ### DECODE -/

/-- The accept part of R109. -/
def acceptDecode (s : State) : State := if tlenLegal s.tlen then s.start .decode else s.raiseError .badTlen

/-- The completion part of R109. -/
def completeDecode (s : State) : State :=
  let out := b32dec s.txtArg
  ((s.writeBuf .bin out).setBlen out.length).complete .noError false false

/-- DECODE (R109). -/
def execDecode (s : State) : Host.Outcome State Fault Refusal := s.runCommand .decode acceptDecode completeDecode

end Sys2Proof.Machine
end

