-- ==== Sys2Proof/Machine/Control.lean ====
section
/-! DEFINITION. The command CLEAR (R140). -/

namespace Sys2Proof.Machine

/-- The accept part of R140: no check can fail. -/
def acceptClear (s : State) : State := s.start .clear

/-- Every byte of a buffer set to 0x00. -/
def State.zeroBuf (s : State) (b : Buf) : State := s.writeBuf b (List.replicate b.cap 0)

/-- The length, candidate and result registers set to 0 (R140). -/
def State.zeroRegs (s : State) : State :=
  { s with
    blen := 0, tlen := 0, dlen := 0, clen := 0, cand0 := 0, cand1 := 0
    trunc := 0, cval := 0, code0 := 0, code1 := 0 }

/-- The completion part of R140. -/
def completeClear (s : State) : State :=
  (((s.zeroBuf .bin).zeroBuf .txt).zeroBuf .dg).zeroRegs.complete .noError false false

/-- CLEAR (R140). -/
def execClear (s : State) : Host.Outcome State Fault Refusal := s.runCommand .clear acceptClear completeClear

end Sys2Proof.Machine
end

