-- ==== Sys2Proof/Machine/Engine.lean ====
section
/-! DEFINITION. The HOTP/TOTP engine (R120-R128) and the commands TRUNCATE, GENERATE and VALIDATE (R129-R131). -/

namespace Sys2Proof.Machine

/-- `BE64(c)` (R120, R127): the 8-byte message of c mod 2^64, most significant byte first. -/
def be64 (c : Int) : List Byte :=
  let u := (c % 2 ^ 64).toNat
  (List.range 8).map fun k => BitVec.ofNat 8 (bits u (63 - 8 * k) (56 - 8 * k))

/-- `HCALL(msg, n)` (R121): one provider call, its digest recorded in DG and DLEN. -/
def State.hcall (s : State) (msg : List Byte) (n : Nat) : List Byte × State :=
  let r := s.hmacCall msg n
  (r.1, (r.2.writeBuf .dg r.1).setDlen n)

/-- `off` of `DT` (R122): the low four bits of the digest's last byte. -/
def dtOffset (d : List Byte) : Nat := (d.getD (d.length - 1) 0 &&& 0x0F#8).toNat

/-- `P` of `DT` (R122): the four bytes from `off`, a big-endian 32-bit unsigned integer. -/
def dtWord (d : List Byte) : Word :=
  let off := dtOffset d
  d.getD off 0 ++ d.getD (off + 1) 0 ++ d.getD (off + 2) 0 ++ d.getD (off + 3) 0

/-- `DT(d, n)` for the digest's own length n (R122, D14): `none` is FAIL. -/
def dt (d : List Byte) : Option (BitVec 31) :=
  if d.length < dtOffset d + 4 then none else some ((dtWord d &&& 0x7FFFFFFF#32).setWidth 31)

/-- The digit character `k` (0 the most significant of six) of a code value (R123). -/
def digitChar (v k : Nat) : Byte := BitVec.ofNat 8 (0x30 + v / 10 ^ (5 - k) % 10)

/-- The code value of a truncated value (R123, R125). -/
def codeValue (t : BitVec 31) : Nat := t.toNat % 1000000

/-- `SETCODE(t)` (R123). -/
def State.setCode (s : State) (t : BitVec 31) : State :=
  let v := codeValue t
  { s with
    trunc := t
    cval := BitVec.ofNat 20 v
    code0 := digitChar v 3 ++ digitChar v 2 ++ digitChar v 1 ++ digitChar v 0
    code1 := digitChar v 5 ++ digitChar v 4 }

/-! ### TRUNCATE -/

/-- The accept part of R129. -/
def acceptTruncate (s : State) : State :=
  if digestLenLegal s.dlen then s.start .truncate else s.raiseError .badDsize

/-- The completion part of R129. -/
def completeTruncate (s : State) : State :=
  match dt s.dgArg with
  | none => s.raiseError .truncRange
  | some t => (s.setCode t).complete .noError false false

/-- TRUNCATE (R129). -/
def execTruncate (s : State) : Host.Outcome State Fault Refusal := s.runCommand .truncate acceptTruncate completeTruncate

/-! ### GENERATE -/

/-- The accept part of R130, its checks in the order of R153. -/
def acceptGenerate (s : State) : State :=
  if s.pcfgEn = false then s.unavailable
  else if digestLenLegal s.pcfgDsize = false then s.raiseError .badDsize
  else if tlenLegal s.tlen = false then s.raiseError .badTlen
  else s.latchDsize.start .generate

/-- The completion part of R130. A provider that never answers leaves the command in flight (R52, U9). -/
def completeGenerate (s : State) : State :=
  if s.inputs.conduct = .silent then s
  else
    let s1 := s.setKey (b32dec s.txtArg)
    let r := s1.hcall (be64 s.cnt) s.ctx.dsize.toNat
    match dt r.1 with
    | none => r.2.raiseError .truncRange
    | some t => (r.2.setCode t).complete .noError false false

/-- GENERATE (R130). -/
def execGenerate (s : State) : Host.Outcome State Fault Refusal := s.runCommand .generate acceptGenerate completeGenerate

/-! ### VALIDATE -/

/-- `start` (R126), floor toward minus infinity (R10). -/
def windowStart (now : Int) (w : Nat) : Int := Int.fdiv (now - 30 * w) 30

/-- `end` (R126), floor toward minus infinity (R10). -/
def windowEnd (now : Int) (w : Nat) : Int := Int.fdiv (now + 30 * w) 30

/-- The counters `start, ..., end - 1` in rising order (R11, R131). -/
def windowCounters (now : Int) (w : Nat) : List Int :=
  (List.range (windowEnd now w - windowStart now w).toNat).map fun (k : Nat) => windowStart now w + (k : Int)

/-- The time sample of an accept, in CTX and in NOW_HI ‖ NOW_LO (R131, R38). -/
def State.latchTime (s : State) : State :=
  let r := s.sampleTime
  { s with
    ctx := { s.ctx with now := r.1 }
    nowHi := r.1.extractLsb' 32 32
    nowLo := r.1.extractLsb' 0 32
    draws := r.2 }

/-- The accept part of R131, its checks in the order of R153. -/
def acceptValidate (s : State) : State :=
  let s1 := s.latchTime
  if s1.pcfgEn = false then s1.unavailable
  else if digestLenLegal s1.pcfgDsize = false then s1.raiseError .badDsize
  else if tlenLegal s1.tlen = false then s1.raiseError .badTlen
  else s1.latchDsize.latchWindow.start .validate

/-- The loop of R131 over the counters still to evaluate. The first match ends it, and so does a digest that cannot be
truncated. -/
def scanWindow (s : State) : List Int → State
  | [] => s.complete .noError false false
  | c :: cs =>
    let r := s.hcall (be64 c) s.ctx.dsize.toNat
    match dt r.1 with
    | none => r.2.raiseError .truncRange
    | some t =>
      let s2 := r.2.setCode t
      if s2.codeEq then s2.complete .noError true false else scanWindow s2 cs

/-- The completion part of R131. A provider that never answers leaves a command that asks it in flight (R52, U9). -/
def completeValidate (s : State) : State :=
  let cs := windowCounters s.ctx.now.toInt s.ctx.w.toNat
  if s.inputs.conduct = .silent ∧ cs ≠ [] then s else scanWindow (s.setKey (b32dec s.txtArg)) cs

/-- VALIDATE (R131). -/
def execValidate (s : State) : Host.Outcome State Fault Refusal := s.runCommand .validate acceptValidate completeValidate

end Sys2Proof.Machine
end

