-- ==== Sys2Proof/Machine/Dispatch.lean ====
section
/-! DEFINITION. One arm per command (R81). -/

namespace Sys2Proof.Machine

def exec (i : Instr) (s : State) : Host.Outcome State Fault Refusal :=
  match i with
  | .encode => Sys2Proof.Machine.execEncode s
  | .decode => Sys2Proof.Machine.execDecode s
  | .generate => Sys2Proof.Machine.execGenerate s
  | .validate => Sys2Proof.Machine.execValidate s
  | .truncate => Sys2Proof.Machine.execTruncate s
  | .clear => Sys2Proof.Machine.execClear s

end Sys2Proof.Machine
end

