-- ==== Sys2Proof/Machine/Flags.lean ====
section
/-! DEFINITION. STATUS as a word (R26), the error codes (R150) and the interrupt output (R54, R157). -/

namespace Sys2Proof.Machine

/-- The value of an error code in STATUS.ERR (R150). -/
def ErrCode.code : ErrCode → BitVec 4
  | .noError => 0x0#4
  | .illegalCmd => 0x1#4
  | .badBlen => 0x2#4
  | .badTlen => 0x3#4
  | .badDsize => 0x4#4
  | .truncRange => 0x5#4

/-- STATUS as the bus reads it (R26): LOP [15:12], WERR [8], ERR [7:4], UNAVAIL [3], MATCH [2], DONE [1], BUSY [0]. -/
def State.statusWord (s : State) : Word :=
  0#16 ++ s.lop ++ 0#3 ++ BitVec.ofBool s.werr ++ s.err.code ++ BitVec.ofBool s.unavail ++ BitVec.ofBool s.matched ++
    BitVec.ofBool s.done ++ BitVec.ofBool s.busy

/-- The interrupt output, the level `STATUS.DONE & CTRL.IE` (R54, R157). -/
def State.irq (s : State) : Bool := s.done && s.ctrlIe

/-- Input `n` of the host's interrupt controller, as far as the block drives it (R157). -/
def State.irqLine (s : State) (n : Nat) : Bool := decide (n = Config.irqLine) && s.irq

end Sys2Proof.Machine
end

