-- ==== Sys2Proof/Machine/Bus.lean ====
section
/-! DEFINITION. The bus port: the register map (R21), reads (R61, R66), writes (R62, R65), and the four kinds of step
(R7), CMD writes and resets among them. -/

namespace Sys2Proof.Machine

/-! ### The address map -/

/-- The offset of each register (R21). -/
def Reg.offset : Reg → Offset
  | .id => 0x000#12
  | .param => 0x004#12
  | .ctrl => 0x008#12
  | .cmd => 0x00C#12
  | .status => 0x010#12
  | .pcfg => 0x014#12
  | .blen => 0x018#12
  | .tlen => 0x01C#12
  | .dlen => 0x020#12
  | .window => 0x024#12
  | .cntLo => 0x028#12
  | .cntHi => 0x02C#12
  | .cand0 => 0x030#12
  | .cand1 => 0x034#12
  | .clen => 0x038#12
  | .trunc => 0x03C#12
  | .cval => 0x040#12
  | .code0 => 0x044#12
  | .code1 => 0x048#12
  | .nowLo => 0x04C#12
  | .nowHi => 0x050#12

/-- The register at word `k` of the window (R21); `none` from word 0x15 up. -/
def regOfWord (k : Nat) : Option Reg :=
  match k with
  | 0 => some .id
  | 1 => some .param
  | 2 => some .ctrl
  | 3 => some .cmd
  | 4 => some .status
  | 5 => some .pcfg
  | 6 => some .blen
  | 7 => some .tlen
  | 8 => some .dlen
  | 9 => some .window
  | 10 => some .cntLo
  | 11 => some .cntHi
  | 12 => some .cand0
  | 13 => some .cand1
  | 14 => some .clen
  | 15 => some .trunc
  | 16 => some .cval
  | 17 => some .code0
  | 18 => some .code1
  | 19 => some .nowLo
  | 20 => some .nowHi
  | _ => none

/-- What an offset selects (R21, R63, R64). -/
def locate (off : Offset) : Loc :=
  let o := off.toNat
  if o % 4 ≠ 0 then .misaligned
  else if 0x100 ≤ o ∧ o < 0x140 then .word .dg ((o - 0x100) / 4)
  else if 0x200 ≤ o ∧ o < 0x2A0 then .word .bin ((o - 0x200) / 4)
  else if 0x400 ≤ o ∧ o < 0x500 then .word .txt ((o - 0x400) / 4)
  else
    match regOfWord (o / 4) with
    | some r => .reg r
    | none => .unmapped

/-- Where an offset of the window stands in the host's physical map (R60). -/
def physicalAddress (off : Offset) : Nat := Config.base + off.toNat

/-- Registers whose writes are ignored at all times (R21, R39). -/
def Reg.readOnly : Reg → Bool
  | .id | .param | .trunc | .cval | .code0 | .code1 | .nowLo | .nowHi => true
  | .ctrl | .cmd | .status | .pcfg | .blen | .tlen | .dlen | .window | .cntLo | .cntHi | .cand0 | .cand1 | .clen => false

/-- Registers marked 'locked while BUSY' (R21, R65). -/
def Reg.locked : Reg → Bool
  | .cmd | .pcfg | .blen | .tlen | .dlen | .window | .cntLo | .cntHi | .cand0 | .cand1 | .clen => true
  | .id | .param | .ctrl | .status | .trunc | .cval | .code0 | .code1 | .nowLo | .nowHi => false

/-- Locations whose writes are ignored, with WERR set, while BUSY (R65): every buffer word among them. -/
def Loc.locked : Loc → Bool
  | .reg r => r.locked
  | .word _ _ => true
  | .misaligned => false
  | .unmapped => false

/-! ### Registers as words -/

/-- The word a register holds (R22-R38); reserved fields read 0 (R39), and so does CMD (R25). -/
def State.regRead (s : State) (r : Reg) : Word :=
  match r with
  | .id => 0x423354#24 ++ 0x01#8
  | .param => 0#1 ++ 64#7 ++ 160#8 ++ 0#7 ++ 256#9
  | .ctrl => 0#31 ++ BitVec.ofBool s.ctrlIe
  | .cmd => 0#32
  | .status => s.statusWord
  | .pcfg => 0#17 ++ s.pcfgDsize ++ 0#7 ++ BitVec.ofBool s.pcfgEn
  | .blen => 0#24 ++ s.blen
  | .tlen => 0#23 ++ s.tlen
  | .dlen => 0#25 ++ s.dlen
  | .window => 0#24 ++ s.window
  | .cntLo => s.cntLo
  | .cntHi => s.cntHi
  | .cand0 => s.cand0
  | .cand1 => s.cand1
  | .clen => 0#28 ++ s.clen
  | .trunc => 0#1 ++ s.trunc
  | .cval => 0#12 ++ s.cval
  | .code0 => s.code0
  | .code1 => 0#16 ++ s.code1
  | .nowLo => s.nowLo
  | .nowHi => s.nowHi

/-- A bus write that reaches a register other than CMD (R62): its fields under their own rules, nothing for a
read-only register (R39). A write to CMD is `accept`. -/
def State.regWrite (s : State) (r : Reg) (v : Word) : State :=
  match r with
  | .ctrl => { s with ctrlIe := v.getLsbD 0 }
  | .status => s.acknowledge v
  | .pcfg => { s with pcfgEn := v.getLsbD 0, pcfgDsize := v.extractLsb' 8 7 }
  | .blen => { s with blen := v.extractLsb' 0 8 }
  | .tlen => { s with tlen := v.extractLsb' 0 9 }
  | .dlen => { s with dlen := v.extractLsb' 0 7 }
  | .window => { s with window := v.extractLsb' 0 8 }
  | .cntLo => { s with cntLo := v }
  | .cntHi => { s with cntHi := v }
  | .cand0 => { s with cand0 := v }
  | .cand1 => { s with cand1 := v }
  | .clen => { s with clen := v.extractLsb' 0 4 }
  | .cmd => s
  | .id => s
  | .param => s
  | .trunc => s
  | .cval => s
  | .code0 => s
  | .code1 => s
  | .nowLo => s
  | .nowHi => s

/-! ### Reads -/

/-- The 'written' column of R83: the locations a command writes. NOW_LO and NOW_HI stand in VALIDATE's row (log 6). -/
def commandWrites (i : Instr) (l : Loc) : Bool :=
  match i, l with
  | .encode, .reg r => decide (r = .tlen)
  | .encode, .word b _ => decide (b = .txt)
  | .decode, .reg r => decide (r = .blen)
  | .decode, .word b _ => decide (b = .bin)
  | .generate, .reg r => [Reg.dlen, .trunc, .cval, .code0, .code1].contains r
  | .generate, .word b _ => decide (b = .dg)
  | .validate, .reg r => [Reg.nowLo, .nowHi, .dlen, .trunc, .cval, .code0, .code1].contains r
  | .validate, .word b _ => decide (b = .dg)
  | .truncate, .reg r => [Reg.trunc, .cval, .code0, .code1].contains r
  | .truncate, .word _ _ => false
  | .clear, .reg r => [Reg.blen, .tlen, .dlen, .cand0, .cand1, .clen, .trunc, .cval, .code0, .code1].contains r
  | .clear, .word _ _ => true
  | _, .misaligned => false
  | _, .unmapped => false

/-- Whether the command in flight, if there is one, writes a location (R66). -/
def State.inFlightWrites (s : State) (l : Loc) : Bool :=
  match s.seq with
  | .idle => false
  | .run i => commandWrites i l

/-- The word stored at a location; 0 where nothing answers (R63, R64). -/
def State.stored (s : State) (l : Loc) : Word :=
  match l with
  | .reg r => s.regRead r
  | .word b j => s.readBufWord b j
  | .misaligned => 0#32
  | .unmapped => 0#32

/-- Whether a transaction at a location answers OK (R61-R64). -/
def Loc.answers : Loc → Bool
  | .reg _ => true
  | .word _ _ => true
  | .misaligned => false
  | .unmapped => false

/-- A bus read (R61, R63, R64, R66): the stored value, a draw for a word the command in flight writes, or ERROR with
value 0. It changes no state of the block. -/
def State.busRead (s : State) (off : Offset) : State :=
  let l := locate off
  if l.answers then
    if s.inFlightWrites l then { s with draws := s.draws + 1 }.respond (.read .ok (Config.freeWord s.draws))
    else s.respond (.read .ok (s.stored l))
  else s.respond (.read .error 0#32)

/-! ### Writes -/

/-- A write to CMD while IDLE: an accept (R151), which runs the decoded command's accept part. -/
def State.accept (s : State) (v : Word) : Host.Outcome State Fault Refusal :=
  match decode v with
  | .ok i => exec i s
  | .reject _ => .next (s.acceptIllegal v)

/-- A bus write (R62-R65). -/
def State.busWrite (s : State) (off : Offset) (v : Word) : Host.Outcome State Fault Refusal :=
  let l := locate off
  if l.answers then
    let s1 := s.respond (.write .ok)
    if s.busy && l.locked then .next s1.lockedWrite
    else
      match l with
      | .reg .cmd => s1.accept v
      | .reg r => .next (s1.regWrite r v)
      | .word b j => .next (s1.writeBufWord b j v)
      | .misaligned => .next s1
      | .unmapped => .next s1
  else .next (s.respond (.write .error))

/-! ### Steps -/

/-- The sequencer's turn (R7, R152): the completion of the command in flight. While IDLE no completion is enabled and
nothing happens (DESIGN CHOICE, safe, log 4). -/
def State.sequencerTurn (s : State) : Host.Outcome State Fault Refusal :=
  match s.seq with
  | .idle => .next s
  | .run i => exec i s

/-- Reset (R170): the registers, SEQ, KEY and the buffers as after reset, every buffer byte a fresh draw (U1). The
environment's fields are kept. -/
def State.hardReset (s : State) : State :=
  { State.reset with
    turns := s.turns, inputs := s.inputs, hmacPoints := s.hmacPoints, draws := s.draws, epoch := s.epoch + 1 }

/-- What the step's action does (R7). -/
def State.act (s : State) (a : Action) : Host.Outcome State Fault Refusal :=
  match a with
  | .busRead off => .next (s.busRead off)
  | .busWrite off v => s.busWrite off v
  | .completion => s.sequencerTurn
  | .reset => .next s.hardReset

/-- The state with the outputs of the step before put away. -/
def State.newStep (s : State) : State := { s with response := none, requests := [] }

/-- The state at the beginning of a turn: the turn taken off the list and its inputs on the ports. -/
def State.takeTurn (s : State) (t : Turn) (rest : List Turn) : State :=
  { s.newStep with turns := rest, inputs := t.inputs }

end Sys2Proof.Machine
end

