-- ==== Sys2Proof/Machine/Step.lean ====
section
/-! DEFINITION. One step of the block (R7), and the placing of a command where the next step finds it. -/

namespace Sys2Proof.Machine

/-- One step (R7): the first turn to come. Where no turn is left, the sequencer moves (weak fairness, R7; log 4). -/
def step (s : State) : Host.Outcome State Fault Refusal :=
  match s.turns with
  | [] => s.newStep.sequencerTurn
  | t :: rest => (s.takeTurn t rest).act t.action

/-- `s` with a bus write of the word `w` to CMD as the next step, and IDLE, so that the write is an accept (R80, R151).
A command is one 32-bit word; the bits of `w` from `nbits` up are zero. It stands for the host (DESIGN CHOICE, log 5). -/
def State.withFetchWord (s : State) (nbits w : Nat) : State :=
  { s with
    seq := .idle
    turns := { inputs := s.inputs, action := .busWrite 0x00C#12 (BitVec.ofNat 32 (w % 2 ^ nbits)) } :: s.turns }

end Sys2Proof.Machine
end

