-- ==== Sys2Proof/Machine/Script.lean ====
section
/-! DEFINITION. Host scripts (R86) and their pseudo-instructions (R87), as the turns they put before the block. -/

namespace Sys2Proof.Machine

/-- A line of a host script (R86) or a pseudo-instruction (R87). -/
inductive HostLine where
  /-- `wr OFF, VAL`. -/
  | wr (off : Offset) (v : Word)
  /-- `rd OFF`. -/
  | rd (off : Offset)
  /-- `rd OFF == VAL`: the program states the value read. -/
  | rdIs (off : Offset) (v : Word)
  /-- `; text`. -/
  | comment
  /-- `cmd MNEMONIC`. -/
  | cmd (i : Instr)
  /-- `wait`, with the number of polls that still read BUSY = 1 before the completion (free, R180). -/
  | wait (busyPolls : Nat)
  /-- `wr64 CNT, v`. -/
  | wrCnt (v : BitVec 64)
  /-- `wrbytes W+k, b0 b1 ...` and `wrstr W+k, "..."`, the string as its character codes. -/
  | wrBytes (b : Buf) (k : Nat) (bs : List Byte)
  deriving DecidableEq, Repr

/-- The bus words of a byte string, four bytes a word, the missing bytes of the last word 0x00 (R87). -/
def wordsOfBytes : List Byte → List Word
  | [] => []
  | [a] => [wordOfBytes a 0 0 0]
  | [a, b] => [wordOfBytes a b 0 0]
  | [a, b, c] => [wordOfBytes a b c 0]
  | a :: b :: c :: d :: t => wordOfBytes a b c d :: wordsOfBytes t

/-- Writes of successive words from a byte offset up (R87). -/
def wordWrites : Nat → List Word → List Action
  | _, [] => []
  | o, v :: vs => .busWrite (BitVec.ofNat 12 o) v :: wordWrites (o + 4) vs

/-- The transactions a line stands for (R86, R87), the sequencer's turn in a `wait`. -/
def HostLine.actions : HostLine → List Action
  | .wr off v => [.busWrite off v]
  | .rd off => [.busRead off]
  | .rdIs off _ => [.busRead off]
  | .comment => []
  | .cmd i => [.busWrite Reg.cmd.offset (encode i)]
  | .wait n => List.replicate n (.busRead Reg.status.offset) ++ [.completion, .busRead Reg.status.offset]
  | .wrCnt v => [.busWrite Reg.cntLo.offset (v.extractLsb' 0 32), .busWrite Reg.cntHi.offset (v.extractLsb' 32 32)]
  | .wrBytes b k bs => wordWrites (b.base + k) (wordsOfBytes bs)

/-- What a line states about the state right after its last transaction (R86). DESIGN CHOICE (log 22, unsafe): the line
`rd OFF == VAL` states an OK answer with that value, where R86 speaks of the value only; so with VAL 0 it does not hold
of a misaligned or unmapped OFF, whose read answers ERROR with value 0 (R63, R64). -/
def HostLine.holds (l : HostLine) (s : State) : Bool :=
  match l with
  | .rdIs _ v => decide (s.response = some (.read .ok v))
  | .wr _ _ => true
  | .rd _ => true
  | .comment => true
  | .cmd _ => true
  | .wait _ => true
  | .wrCnt _ => true
  | .wrBytes _ _ _ => true

/-- A state with a script still to run, the same inputs at each of its steps. -/
def State.withScript (s : State) (ls : List HostLine) : State :=
  { s with turns := s.turns ++ (ls.flatMap HostLine.actions).map fun a => { inputs := s.inputs, action := a } }

end Sys2Proof.Machine
end

