-- ==== Sys2Proof/Safety.lean ====
section
/-! DEFINITION. What holds of a good state of the block, in the terms the statements use. -/

namespace Sys2Proof.Machine

/-- The six characters of a code value (R123). -/
def codeChars (v : Nat) : List Byte := (List.range 6).map (digitChar v)

/-- TRUNC, CVAL and the code string of a truncated value (R123). -/
def State.holdsCode (t : State) (v : BitVec 31) : Prop :=
  t.trunc = v ∧ t.cval.toNat = v.toNat % 1000000 ∧ t.codeStr = codeChars (v.toNat % 1000000)

/-- TRUNC, CVAL, CODE0 and CODE1 are those of `s`. -/
def State.keepsCodeOf (t s : State) : Prop :=
  t.trunc = s.trunc ∧ t.cval = s.cval ∧ t.code0 = s.code0 ∧ t.code1 = s.code1

/-- The candidate string is the code of a truncated value (R124). -/
def State.candidateIs (s : State) (v : BitVec 31) : Prop := s.candStr = some (codeChars (v.toNat % 1000000))

/-- The number that digits in a base stand for, the most significant digit first. -/
def digitsValue (base : Nat) (ds : List Nat) : Nat := ds.foldl (fun n d => n * base + d) 0

/-- A byte string as one number, its first byte the most significant. -/
def bytesValue (bs : List Byte) : Nat := digitsValue 256 (bs.map BitVec.toNat)

/-- The valid characters of a string as one number of 5-bit symbol indices, the first the most significant (R101). -/
def symbolsValue (t : List Byte) : Nat := digitsValue 32 (t.filterMap symIdx)

/-- The decoded secret that GENERATE and VALIDATE pass to the provider (R45). -/
def State.secret (s : State) : List Byte := b32dec s.txtArg

/-- The digest that `HMAC_FN` gives for a counter under the decoded secret (R121). -/
def State.counterDigest (s : State) (c : Int) : List Byte := s.hmac s.secret (be64 c)

/-- The request that asks for it (R52). -/
def State.counterRequest (s : State) (c : Int) : HmacRequest := { key := s.secret, msg := be64 c }

/-- What the accept checks of a command leave true of its operands while it is in flight (R153), and the context it
latched (R46). -/
def State.operandsLegal (s : State) (i : Instr) : Prop :=
  match i with
  | .encode => s.blen.toNat ≤ 160
  | .decode => s.tlen.toNat ≤ 256
  | .generate =>
    s.pcfgEn = true ∧ s.tlen.toNat ≤ 256 ∧ 1 ≤ s.ctx.dsize.toNat ∧ s.ctx.dsize.toNat ≤ 64 ∧ s.ctx.dsize = s.pcfgDsize
  | .validate =>
    s.pcfgEn = true ∧ s.tlen.toNat ≤ 256 ∧ 1 ≤ s.ctx.dsize.toNat ∧ s.ctx.dsize.toNat ≤ 64 ∧ s.ctx.dsize = s.pcfgDsize ∧
      s.ctx.w = s.window ∧ s.ctx.now = s.nowHi ++ s.nowLo
  | .truncate => 1 ≤ s.dlen.toNat ∧ s.dlen.toNat ≤ 64
  | .clear => True

/-- The invariant of the block between steps. -/
structure State.Inv (s : State) : Prop where
  /-- The buffers' canonical form. -/
  memWf : s.mem.wf
  /-- KEY keeps no secret beyond one command (R45). -/
  keyZero : s.key = zeroKey ∧ s.klen = 0
  /-- STATUS while BUSY (R26, R66). -/
  busyFlags : s.busy = true → s.done = false ∧ s.matched = false ∧ s.unavail = false ∧ s.err = .noError
  /-- A command reports exactly one outcome (R153). -/
  oneOutcome : (s.matched = true → s.unavail = false) ∧ (s.err ≠ .noError → s.matched = false ∧ s.unavail = false)
  /-- MATCH only by VALIDATE, UNAVAIL only by GENERATE and VALIDATE (R152), by LOP. -/
  flagOwner : (s.matched = true → s.lop = opcode .validate) ∧
    (s.unavail = true → s.lop = opcode .generate ∨ s.lop = opcode .validate)
  /-- CVAL = TRUNC mod 1000000 (R36). -/
  cvalOfTrunc : s.cval.toNat = s.trunc.toNat % 1000000
  /-- CODE0/CODE1 hold the code string of CVAL, or nothing has been truncated since reset or CLEAR (R37). -/
  codeOfCval : (s.trunc = 0 ∧ s.code0 = 0 ∧ s.code1 = 0) ∨ s.codeStr = codeChars s.cval.toNat
  /-- The command in flight passed its accept checks and is the one CTX and LOP name (R46, R151). -/
  inFlight : ∀ i, s.seq = .run i → s.ctx.op = opcode i ∧ s.lop = opcode i ∧ s.operandsLegal i

/-- The command in flight asks the provider at least once: GENERATE, and VALIDATE with a window that is not empty. -/
def State.asksProvider (s : State) (i : Instr) : Prop :=
  match i with
  | .generate => True
  | .validate => 1 ≤ s.ctx.w.toNat
  | .encode => False
  | .decode => False
  | .truncate => False
  | .clear => False

/-- The completion step of the command in flight is enabled: every request it makes will be answered (U9). -/
def State.answered (s : State) (i : Instr) : Prop := s.asksProvider i → s.inputs.conduct ≠ .silent

/-- The states a run of steps from `s` can visit. -/
inductive State.Reaches (s : State) : State → Prop where
  | refl : State.Reaches s s
  | step {t u : State} : State.Reaches s t → Machine.step t = .next u → State.Reaches s u

end Sys2Proof.Machine
end

