-- ==== Sys2Proof/Certificates/Slice0/Obligations.lean ====
section
/-! DEFINITION. The statements about the block, each from the rules of the spec that its docstring names. -/

open Sys2Proof Sys2Proof.Machine

/-! ### Encoding -/

/-- R80, R81: the six words written out bit by bit from the table, every reserved opcode, and the V-X3, V-X5 words. -/
def Obligations.OpcodeTableWordsDecode : Prop :=
  decode 0b00000000000000000000000000000001#32 = .ok .encode ∧
  decode 0b00000000000000000000000000000010#32 = .ok .decode ∧
  decode 0b00000000000000000000000000000011#32 = .ok .generate ∧
  decode 0b00000000000000000000000000000100#32 = .ok .validate ∧
  decode 0b00000000000000000000000000000101#32 = .ok .truncate ∧
  decode 0b00000000000000000000000000000110#32 = .ok .clear ∧
  ([0x0, 0x7, 0x8, 0x9, 0xA, 0xB, 0xC, 0xD, 0xE, 0xF].map fun op => decode (BitVec.ofNat 32 op)) =
    List.replicate 10 (.reject .reservedOpcode) ∧
  decode 0x00000011#32 = .reject .reservedBitsSet ∧ decode 0x80000004#32 = .reject .reservedBitsSet

/-- R80-R82: a word decodes to a command exactly when it is that command's encoding. -/
def Obligations.DecodeAnswersExactlyTheEncoding : Prop := ∀ (v : Word) (i : Instr), decode v = .ok i ↔ v = encode i

/-- R82: the mask form of legality, the decoder and the six values agree on every word. -/
def Obligations.LegalWordsAreTheSixOpcodes : Prop :=
  ∀ v : Word, (CmdWord.legal v = true ↔ ∃ i, decode v = .ok i) ∧
    (CmdWord.legal v = true ↔ 1 ≤ v.toNat ∧ v.toNat ≤ 6)

/-! ### Steps -/

/-- R7, R61, R62, R151: a step whose turn is a bus read or a bus write is that read or write at the state with the turn
taken; a write of a legal CMD value while IDLE runs the decoded command, the bus answering OK. (That the steps to come
are data is the model's choice, log 4, and so are the two outputs emptied at the beginning of a step, log 15.) -/
def Obligations.StepRunsDecodedCommand : Prop :=
  ∀ (s : State) (t : Turn) (rest : List Turn), s.turns = t :: rest →
    s.takeTurn t rest = { s with turns := rest, inputs := t.inputs, response := none, requests := [] } ∧
    (∀ off : Offset, t.action = .busRead off → step s = .next ((s.takeTurn t rest).busRead off)) ∧
    (∀ (off : Offset) (v : Word), t.action = .busWrite off v → step s = (s.takeTurn t rest).busWrite off v) ∧
    ∀ (v : Word) (i : Instr), t.action = .busWrite 0x00C#12 v → s.seq = .idle → decode v = .ok i →
      step s = exec i ((s.takeTurn t rest).respond (.write .ok))

/-- R7, R152: the sequencer's turn runs the command in flight; it also moves when no turn is left (the
model's form of weak fairness, log 4). -/
def Obligations.StepCompletesCommandInFlight : Prop :=
  ∀ (s : State) (i : Instr), s.seq = .run i →
    (s.turns = [] → step s = exec i s.newStep) ∧
    ∀ (t : Turn) (rest : List Turn), s.turns = t :: rest → t.action = .completion →
      step s = exec i (s.takeTurn t rest)

/-- R156: the block takes no trap, so every step from every state answers a next state (read from R156, log 16). -/
def Obligations.StepAlwaysAnswersNext : Prop := ∀ s : State, ∃ t, step s = .next t

/-- R7: a command in flight completes once no turn is left, if the provider answers what it is asked (the model's form
of weak fairness, log 4). -/
def Obligations.PendingCompletionHappens : Prop :=
  ∀ (s : State) (i : Instr), s.turns = [] → s.seq = .run i → s.answered i →
    ∃ t, step s = .next t ∧ t.seq = .idle ∧ t.done = true

/-! ### Accept -/

/-- R151, R153 item 1: an illegal CMD value completes at accept with ILLEGAL_CMD; nothing is checked or sampled. -/
def Obligations.IllegalCmdCompletesAtAccept : Prop :=
  ∀ (s : State) (t : Turn) (rest : List Turn) (v : Word),
    s.turns = t :: rest → t.action = .busWrite 0x00C#12 v → s.seq = .idle → CmdWord.legal v = false →
    step s = .next { s with
      turns := rest, inputs := t.inputs, response := some (.write .ok), requests := []
      done := true, matched := false, unavail := false, err := .illegalCmd, lop := v.extractLsb' 0 4
      key := List.replicate 160 0, klen := 0 }

/-- R108, R109, R129, R140, R151: ENCODE, DECODE, TRUNCATE and CLEAR start where their checks pass. -/
def Obligations.BufferCommandsStart : Prop :=
  ∀ s : State, s.seq = .idle →
    (s.blen.toNat ≤ 160 → exec .encode s = .next { s with
      seq := .run .encode, done := false, matched := false, unavail := false, err := .noError, lop := 0x1
      ctx := { s.ctx with op := 0x1 } }) ∧
    (s.tlen.toNat ≤ 256 → exec .decode s = .next { s with
      seq := .run .decode, done := false, matched := false, unavail := false, err := .noError, lop := 0x2
      ctx := { s.ctx with op := 0x2 } }) ∧
    (1 ≤ s.dlen.toNat → s.dlen.toNat ≤ 64 → exec .truncate s = .next { s with
      seq := .run .truncate, done := false, matched := false, unavail := false, err := .noError, lop := 0x5
      ctx := { s.ctx with op := 0x5 } }) ∧
    exec .clear s = .next { s with
      seq := .run .clear, done := false, matched := false, unavail := false, err := .noError, lop := 0x6
      ctx := { s.ctx with op := 0x6 } }

/-- R130, R131, R151: GENERATE and VALIDATE start where their checks pass; VALIDATE takes its one time sample. -/
def Obligations.EngineCommandsStart : Prop :=
  ∀ s : State, s.seq = .idle → s.pcfgEn = true → 1 ≤ s.pcfgDsize.toNat → s.pcfgDsize.toNat ≤ 64 →
    s.tlen.toNat ≤ 256 →
    exec .generate s = .next { s with
      seq := .run .generate, done := false, matched := false, unavail := false, err := .noError, lop := 0x3
      ctx := { s.ctx with op := 0x3, dsize := s.pcfgDsize } } ∧
    ∃ (now : BitVec 64) (d : Nat), exec .validate s = .next { s with
      seq := .run .validate, done := false, matched := false, unavail := false, err := .noError, lop := 0x4
      ctx := { op := 0x4, dsize := s.pcfgDsize, w := s.window, now := now }
      nowHi := now.extractLsb' 32 32, nowLo := now.extractLsb' 0 32, draws := d } ∧
      ∀ x, s.inputs.time = some x → now = x ∧ d = s.draws

/-- R153 items 2 to 7: the first check that applies ends the command at accept, with its code; VALIDATE samples the time
whatever its checks find. -/
def Obligations.FirstFailingCheckEndsTheAccept : Prop :=
  ∀ (s : State) (i : Instr) (t : State), s.seq = .idle → exec i s = .next t →
    (i = .encode → s.blen.toNat > 160 → t.err = .badBlen) ∧
    (i = .decode → s.tlen.toNat > 256 → t.err = .badTlen) ∧
    (i = .truncate → (s.dlen.toNat = 0 ∨ s.dlen.toNat > 64) → t.err = .badDsize) ∧
    (i = .generate ∨ i = .validate →
      (s.pcfgEn = false → t.err = .noError ∧ t.unavail = true) ∧
      (s.pcfgEn = true → (s.pcfgDsize.toNat = 0 ∨ s.pcfgDsize.toNat > 64) → t.err = .badDsize) ∧
      (s.pcfgEn = true → 1 ≤ s.pcfgDsize.toNat → s.pcfgDsize.toNat ≤ 64 → s.tlen.toNat > 256 → t.err = .badTlen)) ∧
    (t.err ≠ .noError ∨ t.unavail = true ↔ t.seq = .idle) ∧
    (t.seq = .idle ↔ t.done = true) ∧ t.matched = false ∧
    (i = .validate → ∀ now, s.inputs.time = some now → t.nowHi ++ t.nowLo = now ∧ t.ctx.now = now)

/-- R154: the unavailable result changes no register other than STATUS and, for VALIDATE, NOW_LO/NOW_HI. -/
def Obligations.UnconfiguredProviderGivesUnavailable : Prop :=
  ∀ (s : State) (i : Instr), s.seq = .idle → s.pcfgEn = false → (i = .generate ∨ i = .validate) →
    ∃ t, exec i s = .next t ∧
      t = { s with
        done := true, unavail := true, matched := false, err := .noError, lop := opcode i
        key := List.replicate 160 0, klen := 0, ctx := t.ctx, nowLo := t.nowLo, nowHi := t.nowHi, draws := t.draws } ∧
      (i = .generate → t.nowLo = s.nowLo ∧ t.nowHi = s.nowHi) ∧
      (i = .validate → ∀ now, s.inputs.time = some now → t.nowHi ++ t.nowLo = now)

/-- R155, R151: an accept, whatever its outcome, changes STATUS, SEQ, CTX and KEY only, and for VALIDATE NOW. -/
def Obligations.AcceptFrame : Prop :=
  ∀ (s : State) (i : Instr) (t : State), s.seq = .idle → exec i s = .next t →
    t = { s with
      seq := t.seq, done := t.done, matched := false, unavail := t.unavail, err := t.err, lop := opcode i
      key := t.key, klen := t.klen, ctx := t.ctx, nowLo := t.nowLo, nowHi := t.nowHi, draws := t.draws } ∧
    (i ≠ .validate → t.nowLo = s.nowLo ∧ t.nowHi = s.nowHi ∧ t.draws = s.draws) ∧
    ∀ a, t.readByte a = s.readByte a

/-! ### Codec functions -/

/-- R107: the exact round-trip law of the codec. -/
def Obligations.DecodeOfEncodeRestoresBytes : Prop :=
  ∀ s : List Byte, b32dec (b32enc s) = s ++ List.replicate
    (if s.length % 5 = 0 then 0 else if s.length % 5 = 2 then 2 else 1) 0x00#8

/-- R102, R103: the output of the encoder is a whole number of 8-character blocks, alphabet characters and then exactly
PADCNT[n mod 5] padding characters, 3 of them at remainder 2. The symbols hold the bits of the input, the most
significant first, and zero bits after them: with 5 zero bits for each padding character they are the input's number
with zero bytes up to the end of the last 5-byte block. -/
def Obligations.EncodedStringShape : Prop :=
  ∀ s : List Byte, ∃ body : List Byte,
    let nb := (s.length + 4) / 5
    let p := [0, 6, 3, 3, 1].getD (s.length % 5) 0
    b32enc s = body ++ List.replicate p 0x3D#8 ∧
    (b32enc s).length = 8 * nb ∧ (∀ c ∈ body, (symIdx c).isSome = true) ∧
    symbolsValue body * 2 ^ (5 * p) = bytesValue s * 2 ^ (8 * (5 * nb - s.length))

/-- R104, R105, R106: V valid characters decode to ceil(5V / 8) bytes, which hold the 5V bits of the symbols, the most
significant first, and zero bits after them; so the last byte holds the L leftover bits at its top for every L, 1 and 2
by the spec's decision D10. -/
def Obligations.DecodedLengthIsFiveEighths : Prop :=
  ∀ t : List Byte,
    let v := (t.filter fun c => (symIdx c).isSome).length
    (b32dec t).length = (5 * v + 7) / 8 ∧
    bytesValue (b32dec t) = symbolsValue t * 2 ^ (8 * ((5 * v + 7) / 8) - 5 * v)

/-- R101, R104: characters outside the alphabet are skipped, wherever they stand. -/
def Obligations.StrayCharactersAreSkipped : Prop :=
  ∀ t u : List Byte, (t.filter fun c => (symIdx c).isSome) = (u.filter fun c => (symIdx c).isSome) →
    b32dec t = b32dec u

/-- R100, R101: the 32 character codes of ALPHA and the padding character; SYMIDX inverts ALPHA, and no other byte is in
the alphabet. -/
def Obligations.SymbolIndexInvertsAlphabet : Prop :=
  ((List.range 32).map fun i => (alpha i).toNat) =
    [0x41, 0x42, 0x43, 0x44, 0x45, 0x46, 0x47, 0x48, 0x49, 0x4A, 0x4B, 0x4C, 0x4D, 0x4E, 0x4F, 0x50,
     0x51, 0x52, 0x53, 0x54, 0x55, 0x56, 0x57, 0x58, 0x59, 0x5A, 0x32, 0x33, 0x34, 0x35, 0x36, 0x37] ∧
  padChar.toNat = 0x3D ∧
  ∀ (b : Byte) (i : Nat), symIdx b = some i ↔ i < 32 ∧ b = alpha i

/-- R105: TAIL places the L leftover bits at the top of a byte, zeros below, for every L from 1 to 7 (1 and 2 by the
spec's decision D10); for 3 to 7 that is the source's formula. -/
def Obligations.TailByteIsTheSourceFormula : Prop :=
  ∀ acc l : Nat, 1 ≤ l → l ≤ 7 → acc < 2 ^ l →
    (tailByte acc l).toNat = acc * 2 ^ (8 - l) ∧
    (3 ≤ l → tailByte acc l = BitVec.ofNat 8 (((acc <<< 5) >>> (l - 3)) &&& 0xFF))

/-! ### ENCODE and DECODE -/

/-- R108: the completion of ENCODE. -/
def Obligations.EncodeWritesBase32 : Prop :=
  ∀ s : State, s.seq = .run .encode → s.blen.toNat ≤ 160 →
    ∃ t, exec .encode s = .next t ∧
      t.tlen.toNat = 8 * ((s.blen.toNat + 4) / 5) ∧
      t.readBuf .txt t.tlen.toNat = b32enc (s.readBuf .bin s.blen.toNat) ∧
      t.seq = .idle ∧ t.done = true ∧ t.matched = false ∧ t.unavail = false ∧ t.err = .noError

/-- R109: the completion of DECODE. -/
def Obligations.DecodeWritesBytes : Prop :=
  ∀ s : State, s.seq = .run .decode → s.tlen.toNat ≤ 256 →
    ∃ t, exec .decode s = .next t ∧
      t.blen.toNat = (b32dec (s.readBuf .txt s.tlen.toNat)).length ∧ t.blen.toNat ≤ 160 ∧
      t.readBuf .bin t.blen.toNat = b32dec (s.readBuf .txt s.tlen.toNat) ∧
      t.seq = .idle ∧ t.done = true ∧ t.matched = false ∧ t.unavail = false ∧ t.err = .noError

/-- R108, R109, R83: what ENCODE and DECODE leave unchanged, `TXT[TLEN..255]` and `BIN[BLEN..159]` too. -/
def Obligations.CodecCommandFrame : Prop :=
  ∀ s t : State,
    (s.seq = .run .encode → s.blen.toNat ≤ 160 → exec .encode s = .next t →
      t = { s with
        seq := .idle, done := true, matched := false, unavail := false, err := .noError
        key := List.replicate 160 0, klen := 0, tlen := t.tlen, mem := t.mem } ∧
      ∀ a, ¬ (0x400 ≤ a ∧ a < 0x400 + t.tlen.toNat) → t.readByte a = s.readByte a) ∧
    (s.seq = .run .decode → s.tlen.toNat ≤ 256 → exec .decode s = .next t →
      t = { s with
        seq := .idle, done := true, matched := false, unavail := false, err := .noError
        key := List.replicate 160 0, klen := 0, blen := t.blen, mem := t.mem } ∧
      ∀ a, ¬ (0x200 ≤ a ∧ a < 0x200 + t.blen.toNat) → t.readByte a = s.readByte a)

/-- R107, R108, R109: ENCODE and then DECODE, both whole, give BIN back, with the round trip's zero bytes after it. -/
def Obligations.EncodeThenDecodeRestoresBin : Prop :=
  ∀ s : State, s.seq = .idle → s.blen.toNat ≤ 160 →
    ∃ t1 t2 t3 t4, exec .encode s = .next t1 ∧ exec .encode t1 = .next t2 ∧
      exec .decode t2 = .next t3 ∧ exec .decode t3 = .next t4 ∧
      (∀ i, i < s.blen.toNat → t4.readByte (0x200 + i) = s.readByte (0x200 + i)) ∧
      t4.blen.toNat = s.blen.toNat +
        (if s.blen.toNat % 5 = 0 then 0 else if s.blen.toNat % 5 = 2 then 2 else 1) ∧
      (∀ i, s.blen.toNat ≤ i → i < t4.blen.toNat → t4.readByte (0x200 + i) = 0) ∧
      t4.done = true ∧ t4.err = .noError

/-! ### Engine functions -/

/-- R122: truncation takes its offset from the low four bits of the last byte, fails exactly where the four bytes from
there are not all in the digest (so never from 19 bytes up), and else is their big-endian word without its top bit. -/
def Obligations.TruncationIsDynamicTruncation : Prop :=
  ∀ (d : List Byte) (h : d ≠ []),
    let off := (d.getLast h).toNat % 16
    (dt d = none ↔ off + 4 > d.length) ∧ (19 ≤ d.length → dt d ≠ none) ∧
    ∀ t : BitVec 31, dt d = some t →
      t.toNat = ((d.getD off 0).toNat * 2 ^ 24 + (d.getD (off + 1) 0).toNat * 2 ^ 16 +
        (d.getD (off + 2) 0).toNat * 2 ^ 8 + (d.getD (off + 3) 0).toNat) % 2 ^ 31

/-- R123: SETCODE records six decimal digits of TRUNC mod 1000000, the most significant first. -/
def Obligations.CodeIsSixDecimalDigits : Prop :=
  ∀ (s : State) (t : BitVec 31),
    let u := s.setCode t
    u.trunc = t ∧ u.cval.toNat = t.toNat % 1000000 ∧
    (∀ i, i < 6 → 0x30 ≤ (u.codeChar i).toNat ∧ (u.codeChar i).toNat ≤ 0x39) ∧
    u.cval.toNat = (List.range 6).foldl (fun n i => 10 * n + ((u.codeChar i).toNat - 0x30)) 0

/-- R124: CODEEQ holds exactly when CLEN = 6 and the six bytes agree, which is the equality of the strings CANDSTR and
CODESTR. -/
def Obligations.CodeEqIsStringEquality : Prop :=
  ∀ s : State,
    (s.codeEq = true ↔ s.clen.toNat = 6 ∧ ∀ i, i < 6 → s.candByte i = s.codeChar i) ∧
    (s.codeEq = true ↔ s.candStr = some s.codeStr)

/-- R120, R127: the message is the counter mod 2^64, eight bytes, the most significant first. -/
def Obligations.CounterMessageIsBigEndian : Prop :=
  ∀ c : Int, (be64 c).length = 8 ∧
    (((be64 c).foldl (fun n b => 256 * n + b.toNat) 0 : Nat) : Int) = c % 2 ^ 64

/-- R126: the window bounds, by the rule's own floors (Lean's `/` rounds down for a positive divisor) and by the current
step T = floor(now / 30); the counters are T - w, ..., T + w - 1, so T + w is never evaluated. -/
def Obligations.WindowIsHalfOpenAroundTheStep : Prop :=
  ∀ (now : Int) (w : Nat),
    let step := now / 30
    windowStart now w = (now - 30 * w) / 30 ∧ windowEnd now w = (now + 30 * w) / 30 ∧
    windowStart now w = step - w ∧ windowEnd now w = step + w ∧
    windowCounters now w = (List.range (2 * w)).map fun (k : Nat) => step - (w : Int) + (k : Int)

/-! ### TRUNCATE -/

/-- R129: the completion of TRUNCATE where the truncation succeeds. -/
def Obligations.TruncateWritesCode : Prop :=
  ∀ s : State, s.seq = .run .truncate → 1 ≤ s.dlen.toNat → s.dlen.toNat ≤ 64 →
    let off := (s.readByte (0x100 + (s.dlen.toNat - 1))).toNat % 16
    off + 4 ≤ s.dlen.toNat →
    ∃ t, exec .truncate s = .next t ∧
      t.trunc.toNat = ((s.readByte (0x100 + off)).toNat * 2 ^ 24 + (s.readByte (0x100 + (off + 1))).toNat * 2 ^ 16 +
        (s.readByte (0x100 + (off + 2))).toNat * 2 ^ 8 + (s.readByte (0x100 + (off + 3))).toNat) % 2 ^ 31 ∧
      t.cval.toNat = t.trunc.toNat % 1000000 ∧ t.codeStr = codeChars t.cval.toNat ∧
      t = { s with
        seq := .idle, done := true, matched := false, unavail := false, err := .noError
        key := List.replicate 160 0, klen := 0
        trunc := t.trunc, cval := t.cval, code0 := t.code0, code1 := t.code1 }

/-- R129, R155: TRUNCATE of a digest too short for its offset ends with TRUNC_RANGE and changes STATUS only. -/
def Obligations.TruncateOutOfRangeChangesStatusOnly : Prop :=
  ∀ s : State, s.seq = .run .truncate → 1 ≤ s.dlen.toNat → s.dlen.toNat ≤ 64 →
    s.dlen.toNat < (s.readByte (0x100 + (s.dlen.toNat - 1))).toNat % 16 + 4 →
    exec .truncate s = .next { s with
      seq := .idle, done := true, matched := false, unavail := false, err := .truncRange
      key := List.replicate 160 0, klen := 0 }

/-! ### GENERATE -/

/-- R130, R121: the completion of GENERATE under the provider's contract, its one request and its results. -/
def Obligations.GenerateWritesCode : Prop :=
  ∀ (s : State) (v : BitVec 31), s.seq = .run .generate → s.inputs.conduct = .keepsContract →
    s.ctx.dsize.toNat ≤ 64 →
    let d := s.hmac (b32dec (s.readBuf .txt s.tlen.toNat)) (be64 (s.cntHi.toNat * 2 ^ 32 + s.cntLo.toNat))
    d.length = s.ctx.dsize.toNat → dt d = some v →
    ∃ t, exec .generate s = .next t ∧
      t.readBuf .dg s.ctx.dsize.toNat = d ∧ t.dlen = s.ctx.dsize ∧
      t.trunc = v ∧ t.cval.toNat = v.toNat % 1000000 ∧ t.codeStr = codeChars (v.toNat % 1000000) ∧
      t.requests = s.requests ++ [s.counterRequest (s.cntHi.toNat * 2 ^ 32 + s.cntLo.toNat)] ∧
      t.seq = .idle ∧ t.done = true ∧ t.matched = false ∧ t.unavail = false ∧ t.err = .noError

/-- R130, R155: GENERATE with a digest too short for its offset leaves the digest and keeps the earlier code. -/
def Obligations.GenerateOutOfRangeKeepsCode : Prop :=
  ∀ s : State, s.seq = .run .generate → s.inputs.conduct = .keepsContract → s.ctx.dsize.toNat ≤ 64 →
    (s.counterDigest s.cnt).length = s.ctx.dsize.toNat → dt (s.counterDigest s.cnt) = none →
    ∃ t, exec .generate s = .next t ∧
      t.readBuf .dg s.ctx.dsize.toNat = s.counterDigest s.cnt ∧
      t = { s with
        seq := .idle, done := true, matched := false, unavail := false, err := .truncRange
        key := List.replicate 160 0, klen := 0, dlen := s.ctx.dsize, mem := t.mem
        requests := s.requests ++ [s.counterRequest s.cnt] }

/-- R52, U4, R130, R131: with a provider that breaks its contract, or whose answer has another length, every digest byte
of that call is a draw (the model's reading of 'the digest bytes', log 8), and GENERATE and VALIDATE complete by their
rules, whatever the draws are. For VALIDATE, `d k` is the digest of call k, and `q k` how many values were drawn before
it: a call whose contract is kept uses `HMAC_FN`, every other one a fresh draw. After n calls the scan has met its first
match, or the first digest that cannot be truncated, or the end of the window. -/
def Obligations.BrokenContractStillCompletes : Prop :=
  (∀ s : State, s.seq = .run .generate → s.ctx.dsize.toNat ≤ 64 →
    (s.inputs.conduct = .breaksContract ∨
      s.inputs.conduct = .keepsContract ∧ (s.counterDigest s.cnt).length ≠ s.ctx.dsize.toNat) →
    let d := (List.range s.ctx.dsize.toNat).map (Config.freeDigestByte s.draws)
    ∃ t, exec .generate s = .next t ∧
      t.readBuf .dg s.ctx.dsize.toNat = d ∧ t.dlen = s.ctx.dsize ∧
      t.seq = .idle ∧ t.done = true ∧ t.matched = false ∧ t.unavail = false ∧
      (dt d = none → t.err = .truncRange ∧ t.keepsCodeOf s) ∧
      ∀ v : BitVec 31, dt d = some v → t.err = .noError ∧ t.holdsCode v) ∧
  ∀ (s : State) (d : Nat → List Byte) (q : Nat → Nat), s.seq = .run .validate → s.ctx.dsize.toNat ≤ 64 →
    s.inputs.conduct ≠ .silent →
    let w := s.ctx.w.toNat
    let start := s.ctx.now.toInt / 30 - (w : Int)
    q 0 = s.draws →
    (∀ k, k < 2 * w →
      (s.inputs.conduct = .keepsContract ∧ (s.counterDigest (start + (k : Int))).length = s.ctx.dsize.toNat →
        d k = s.counterDigest (start + (k : Int)) ∧ q (k + 1) = q k) ∧
      (¬ (s.inputs.conduct = .keepsContract ∧ (s.counterDigest (start + (k : Int))).length = s.ctx.dsize.toNat) →
        d k = (List.range s.ctx.dsize.toNat).map (Config.freeDigestByte (q k)) ∧ q (k + 1) = q k + 1)) →
    ∃ t n, exec .validate s = .next t ∧ n ≤ 2 * w ∧
      t.seq = .idle ∧ t.done = true ∧ t.unavail = false ∧ t.draws = q n ∧
      t.requests = s.requests ++ (List.range n).map (fun (k : Nat) => s.counterRequest (start + (k : Int))) ∧
      (∀ k, k + 1 < n → ∃ v, dt (d k) = some v ∧ ¬ s.candidateIs v) ∧
      (1 ≤ n → t.dlen = s.ctx.dsize ∧ t.readBuf .dg s.ctx.dsize.toNat = d (n - 1)) ∧
      (n = 0 → t.mem = s.mem ∧ t.dlen = s.dlen ∧ t.keepsCodeOf s) ∧
      ((1 ≤ n ∧ t.matched = true ∧ t.err = .noError ∧
          ∃ v, dt (d (n - 1)) = some v ∧ s.candidateIs v ∧ t.holdsCode v) ∨
        (1 ≤ n ∧ t.matched = false ∧ t.err = .truncRange ∧ dt (d (n - 1)) = none ∧
          (n = 1 → t.keepsCodeOf s) ∧ (2 ≤ n → ∀ v, dt (d (n - 2)) = some v → t.holdsCode v)) ∨
        (n = 2 * w ∧ t.matched = false ∧ t.err = .noError ∧
          (1 ≤ n → ∃ v, dt (d (n - 1)) = some v ∧ ¬ s.candidateIs v ∧ t.holdsCode v)))

/-- R52, U9: a provider that never answers leaves the command that asked it in flight (the step's form is the model's
choice, log 9). -/
def Obligations.SilentProviderLeavesBusy : Prop :=
  ∀ (s : State) (i : Instr), s.seq = .run i → s.asksProvider i → s.inputs.conduct = .silent →
    exec i s = .next s

/-! ### VALIDATE -/

/-- R133: VALIDATE matches exactly when the candidate is the code of a counter from T - w to T + w - 1. -/
def Obligations.ValidateAcceptsExactlyTheWindow : Prop :=
  ∀ s : State, s.seq = .run .validate → s.inputs.conduct = .keepsContract →
    19 ≤ s.ctx.dsize.toNat → s.ctx.dsize.toNat ≤ 64 →
    let step := s.ctx.now.toInt / 30
    let w : Int := s.ctx.w.toNat
    (∀ c : Int, step - w ≤ c → c < step + w → (s.counterDigest c).length = s.ctx.dsize.toNat) →
    ∃ t, exec .validate s = .next t ∧ t.seq = .idle ∧ t.done = true ∧ t.unavail = false ∧ t.err = .noError ∧
      (t.matched = true ↔ ∃ (c : Int) (v : BitVec 31), step - w ≤ c ∧ c < step + w ∧
        dt (s.counterDigest c) = some v ∧ s.candStr = some (codeChars (v.toNat % 1000000)))

/-- R131, R132: VALIDATE asks for the counters in rising order from T - w, stops at the first match, asks 2w times where
none matches, and leaves the digest and code of the last counter it evaluated. -/
def Obligations.ValidateScansUpToTheFirstMatch : Prop :=
  ∀ s : State, s.seq = .run .validate → s.inputs.conduct = .keepsContract → s.ctx.dsize.toNat ≤ 64 →
    let start := s.ctx.now.toInt / 30 - (s.ctx.w.toNat : Int)
    ∀ code : Nat → BitVec 31,
    (∀ k, k < 2 * s.ctx.w.toNat → (s.counterDigest (start + (k : Int))).length = s.ctx.dsize.toNat ∧
      dt (s.counterDigest (start + (k : Int))) = some (code k)) →
    ∃ t n, exec .validate s = .next t ∧ n ≤ 2 * s.ctx.w.toNat ∧
      t.requests = s.requests ++ (List.range n).map (fun (k : Nat) => s.counterRequest (start + (k : Int))) ∧
      (∀ k, k + 1 < n → s.candStr ≠ some (codeChars ((code k).toNat % 1000000))) ∧
      (t.matched = true → 1 ≤ n ∧ s.candStr = some (codeChars ((code (n - 1)).toNat % 1000000))) ∧
      (t.matched = false → n = 2 * s.ctx.w.toNat ∧
        ∀ k, k < n → s.candStr ≠ some (codeChars ((code k).toNat % 1000000))) ∧
      (n = 0 → t.mem = s.mem ∧ t.dlen = s.dlen ∧ t.trunc = s.trunc ∧ t.cval = s.cval ∧ t.codeStr = s.codeStr) ∧
      (1 ≤ n → t.dlen = s.ctx.dsize ∧
        t.readBuf .dg s.ctx.dsize.toNat = s.counterDigest (start + ((n - 1 : Nat) : Int)) ∧
        t.trunc = code (n - 1) ∧ t.cval.toNat = (code (n - 1)).toNat % 1000000 ∧
        t.codeStr = codeChars ((code (n - 1)).toNat % 1000000))

/-- R131, R155: the first digest that cannot be truncated ends the scan with TRUNC_RANGE and MATCH = 0; DG holds that
digest, and the code is that of the last counter that truncated. -/
def Obligations.ValidateStopsAtShortDigest : Prop :=
  ∀ (s : State) (code : Nat → BitVec 31) (m : Nat), s.seq = .run .validate → s.inputs.conduct = .keepsContract →
    s.ctx.dsize.toNat ≤ 64 → m < 2 * s.ctx.w.toNat →
    let start := s.ctx.now.toInt / 30 - (s.ctx.w.toNat : Int)
    (∀ k, k < m → (s.counterDigest (start + (k : Int))).length = s.ctx.dsize.toNat ∧
      dt (s.counterDigest (start + (k : Int))) = some (code k) ∧
      s.candStr ≠ some (codeChars ((code k).toNat % 1000000))) →
    (s.counterDigest (start + (m : Int))).length = s.ctx.dsize.toNat →
    dt (s.counterDigest (start + (m : Int))) = none →
    ∃ t, exec .validate s = .next t ∧ t.seq = .idle ∧ t.done = true ∧ t.err = .truncRange ∧ t.matched = false ∧
      t.readBuf .dg s.ctx.dsize.toNat = s.counterDigest (start + (m : Int)) ∧ t.dlen = s.ctx.dsize ∧
      t.requests = s.requests ++ (List.range (m + 1)).map (fun (k : Nat) => s.counterRequest (start + (k : Int))) ∧
      (m = 0 → t.trunc = s.trunc ∧ t.cval = s.cval ∧ t.codeStr = s.codeStr) ∧
      (1 ≤ m → t.trunc = code (m - 1) ∧ t.cval.toNat = (code (m - 1)).toNat % 1000000 ∧
        t.codeStr = codeChars ((code (m - 1)).toNat % 1000000))

/-- R83, R130, R131: what GENERATE and VALIDATE leave unchanged; they store to DG[0..DSIZE-1] only, and an empty window
stores nothing. -/
def Obligations.EngineCommandFrame : Prop :=
  ∀ (s : State) (i : Instr) (t : State), (i = .generate ∨ i = .validate) → s.seq = .run i →
    exec i s = .next t →
    t = { s with
      seq := t.seq, done := t.done, matched := t.matched, unavail := t.unavail, err := t.err
      key := t.key, klen := t.klen, mem := t.mem, dlen := t.dlen
      trunc := t.trunc, cval := t.cval, code0 := t.code0, code1 := t.code1
      draws := t.draws, requests := t.requests } ∧
    (∀ a, ¬ (0x100 ≤ a ∧ a < 0x100 + s.ctx.dsize.toNat) → t.readByte a = s.readByte a) ∧
    (i = .validate → s.ctx.w.toNat = 0 →
      (∀ a, t.readByte a = s.readByte a) ∧ t.dlen = s.dlen ∧ t.trunc = s.trunc ∧ t.cval = s.cval ∧
      t.code0 = s.code0 ∧ t.code1 = s.code1 ∧ t.requests = s.requests ∧ t.matched = false)

/-- R40, D38: BIN does not reach the results of GENERATE and VALIDATE: two states that differ in BIN only give results
that differ in BIN only. -/
def Obligations.BinDoesNotReachEngineResults : Prop :=
  ∀ (s : State) (m : Memory) (i : Instr) (t u : State), (i = .generate ∨ i = .validate) → s.seq = .run i →
    s.tlen.toNat ≤ 256 →
    (∀ a, ¬ (0x200 ≤ a ∧ a < 0x2A0) → State.readByte { s with mem := m } a = s.readByte a) →
    exec i s = .next t → exec i { s with mem := m } = .next u →
    u = { t with mem := u.mem } ∧ ∀ a, ¬ (0x200 ≤ a ∧ a < 0x2A0) → u.readByte a = t.readByte a

/-! ### CLEAR -/

/-- R140: CLEAR zeroes every buffer byte and the length and result registers and leaves all else. -/
def Obligations.ClearErasesSecretState : Prop :=
  ∀ s : State, s.seq = .run .clear →
    ∃ t, exec .clear s = .next t ∧
      (∀ a, isBufferAddr a = true → t.readByte a = 0) ∧
      (∀ a, isBufferAddr a = false → t.readByte a = s.readByte a) ∧
      t = { s with
        seq := .idle, done := true, matched := false, unavail := false, err := .noError
        key := List.replicate 160 0, klen := 0, mem := t.mem
        blen := 0, tlen := 0, dlen := 0, clen := 0, cand0 := 0, cand1 := 0, trunc := 0, cval := 0, code0 := 0, code1 := 0 }

/-! ### Completion, interrupt, whole-machine rules -/

/-- R152, R153: what every completion records, and which command can set which flag. -/
def Obligations.EveryCompletionRecordsOneOutcome : Prop :=
  ∀ (s : State) (i : Instr) (t : State), s.seq = .run i → s.answered i → exec i s = .next t →
    t.seq = .idle ∧ t.done = true ∧ t.key = List.replicate 160 0 ∧ t.klen = 0 ∧ t.unavail = false ∧
    t.lop = s.lop ∧ t.werr = s.werr ∧ t.ctrlIe = s.ctrlIe ∧
    (t.matched = true → i = .validate ∧ t.err = .noError) ∧
    (t.err = .noError ∨ t.err = .truncRange ∧ (i = .truncate ∨ i = .generate ∨ i = .validate))

/-- R54, R157: the level of the interrupt output over a completion, an accept, an acknowledgement and a mask. -/
def Obligations.InterruptFollowsDoneAndEnable : Prop :=
  (∀ (s : State) (i : Instr) (t : State), s.seq = .run i → s.answered i → exec i s = .next t → t.irq = s.ctrlIe) ∧
  (∀ (s : State) (i : Instr) (t : State), s.seq = .idle → exec i s = .next t → t.seq = .run i → t.irq = false) ∧
  (∀ (s : State) (v : Word) (t : State), s.busWrite 0x010#12 v = .next t → v.getLsbD 1 = true → t.irq = false) ∧
  (∀ (s : State) (v : Word) (t : State), s.busWrite 0x008#12 v = .next t →
    t.done = s.done ∧ t.irq = (s.done && v.getLsbD 0))

/-- R38: NOW changes only at the accept of a legal VALIDATE and at reset. -/
def Obligations.NowChangesOnlyAtValidateAccept : Prop :=
  ∀ s t : State, step s = .next t → (t.nowHi ≠ s.nowHi ∨ t.nowLo ≠ s.nowLo) →
    ∃ (u : Turn) (rest : List Turn), s.turns = u :: rest ∧
      (u.action = .reset ∨ s.seq = .idle ∧ u.action = .busWrite 0x00C#12 (encode .validate))

/-- R24, R27, R31, R32: the block never writes CTRL, PCFG, WINDOW or CNT; only the host and reset do. -/
def Obligations.ConfigurationChangesOnlyByHost : Prop :=
  ∀ s t : State, step s = .next t →
    (∀ (u : Turn) (rest : List Turn), s.turns = u :: rest → u.action ≠ .reset ∧
      ∀ v, u.action ≠ .busWrite 0x008#12 v ∧ u.action ≠ .busWrite 0x014#12 v ∧ u.action ≠ .busWrite 0x024#12 v ∧
        u.action ≠ .busWrite 0x028#12 v ∧ u.action ≠ .busWrite 0x02C#12 v) →
    t.ctrlIe = s.ctrlIe ∧ t.pcfgEn = s.pcfgEn ∧ t.pcfgDsize = s.pcfgDsize ∧ t.window = s.window ∧
      t.cntLo = s.cntLo ∧ t.cntHi = s.cntHi

/-- R158: WERR is set only by an ignored locked write while BUSY and cleared only by writing 1 to it or by reset. -/
def Obligations.WerrIsSticky : Prop :=
  ∀ s t : State, step s = .next t →
    (s.werr = false → t.werr = true → s.busy = true ∧
      ∃ (u : Turn) (rest : List Turn) (off : Offset) (v : Word),
        s.turns = u :: rest ∧ u.action = .busWrite off v ∧ (locate off).locked = true) ∧
    (s.werr = true → t.werr = false →
      ∃ (u : Turn) (rest : List Turn), s.turns = u :: rest ∧
        (u.action = .reset ∨ ∃ v, u.action = .busWrite 0x010#12 v ∧ v.getLsbD 8 = true))

/-- R46, R73: while a command stays in flight every operand, buffer and context it reads keeps its value. -/
def Obligations.OperandsAreLockedWhileInFlight : Prop :=
  ∀ (s t : State) (i : Instr), s.seq = .run i → step s = .next t → t.seq = .run i →
    t.mem = s.mem ∧ t.epoch = s.epoch ∧ t.ctx = s.ctx ∧ t.blen = s.blen ∧ t.tlen = s.tlen ∧ t.dlen = s.dlen ∧
    t.pcfgEn = s.pcfgEn ∧ t.pcfgDsize = s.pcfgDsize ∧ t.window = s.window ∧ t.cntLo = s.cntLo ∧ t.cntHi = s.cntHi ∧
    t.cand0 = s.cand0 ∧ t.cand1 = s.cand1 ∧ t.clen = s.clen ∧ t.trunc = s.trunc ∧ t.cval = s.cval ∧
    t.code0 = s.code0 ∧ t.code1 = s.code1

/-! ### Bus -/

/-- R21, R40-R42: the offset of every register, the base and size of every buffer, and what each offset selects. -/
def Obligations.RegisterMapLocatesEveryWord : Prop :=
  ([0x000#12, 0x004#12, 0x008#12, 0x00C#12, 0x010#12, 0x014#12, 0x018#12, 0x01C#12, 0x020#12, 0x024#12, 0x028#12,
      0x02C#12, 0x030#12, 0x034#12, 0x038#12, 0x03C#12, 0x040#12, 0x044#12, 0x048#12, 0x04C#12, 0x050#12].map locate =
    [Reg.id, .param, .ctrl, .cmd, .status, .pcfg, .blen, .tlen, .dlen, .window, .cntLo, .cntHi, .cand0, .cand1, .clen,
      .trunc, .cval, .code0, .code1, .nowLo, .nowHi].map Loc.reg) ∧
  (∀ r : Reg, locate r.offset = .reg r) ∧
  (Buf.dg.base = 0x100 ∧ Buf.dg.cap = 64 ∧ Buf.bin.base = 0x200 ∧ Buf.bin.cap = 160 ∧ Buf.txt.base = 0x400 ∧
    Buf.txt.cap = 256) ∧
  (∀ (b : Buf) (j : Nat), 4 * j < b.cap → locate (BitVec.ofNat 12 (b.base + 4 * j)) = .word b j) ∧
  (∀ off : Offset, (locate off).answers = true ↔
    off.toNat % 4 = 0 ∧ (off.toNat ≤ 0x050 ∨ (0x100 ≤ off.toNat ∧ off.toNat ≤ 0x13F) ∨
      (0x200 ≤ off.toNat ∧ off.toNat ≤ 0x29F) ∨ (0x400 ≤ off.toNat ∧ off.toNat ≤ 0x4FF)))

/-- R63, R64, R159: a misaligned or unmapped offset answers ERROR, reads 0 and changes nothing. -/
def Obligations.BadOffsetsAnswerErrorOnly : Prop :=
  ∀ (s : State) (off : Offset) (v : Word),
    (off.toNat % 4 ≠ 0 ∨ (0x054 ≤ off.toNat ∧ off.toNat ≤ 0x0FF) ∨ (0x140 ≤ off.toNat ∧ off.toNat ≤ 0x1FF) ∨
      (0x2A0 ≤ off.toNat ∧ off.toNat ≤ 0x3FF) ∨ 0x500 ≤ off.toNat) →
    s.busRead off = { s with response := some (.read .error 0x00000000#32) } ∧
    s.busWrite off v = .next { s with response := some (.write .error) }

/-- R61, R66, R83: a bus read changes no state of the block. While a command is in flight a word of its 'written' column,
spelled out here by offset, reads as a draw (NOW while VALIDATE is in flight among them: the model's reading of R83,
log 6); every other register and buffer word reads the value its fields hold (R22-R38, R67), STATUS always. -/
def Obligations.BusReadHasNoSideEffect : Prop :=
  ∀ (s : State) (off : Offset),
    let o := off.toNat
    let written : Prop :=
      match s.seq with
      | .idle => False
      | .run .encode => o = 0x01C ∨ (0x400 ≤ o ∧ o ≤ 0x4FF)
      | .run .decode => o = 0x018 ∨ (0x200 ≤ o ∧ o ≤ 0x29F)
      | .run .generate => o = 0x020 ∨ (0x03C ≤ o ∧ o ≤ 0x048) ∨ (0x100 ≤ o ∧ o ≤ 0x13F)
      | .run .validate => o = 0x020 ∨ (0x03C ≤ o ∧ o ≤ 0x050) ∨ (0x100 ≤ o ∧ o ≤ 0x13F)
      | .run .truncate => 0x03C ≤ o ∧ o ≤ 0x048
      | .run .clear => (0x018 ≤ o ∧ o ≤ 0x020) ∨ (0x030 ≤ o ∧ o ≤ 0x048) ∨ 0x100 ≤ o
    ∃ r, s.busRead off = { s with response := some r, draws := (s.busRead off).draws } ∧
      (o % 4 = 0 →
        (o ≤ 0x050 ∨ (0x100 ≤ o ∧ o ≤ 0x13F) ∨ (0x200 ≤ o ∧ o ≤ 0x29F) ∨ (0x400 ≤ o ∧ o ≤ 0x4FF)) →
        (written → r = .read .ok (Config.freeWord s.draws) ∧ (s.busRead off).draws = s.draws + 1) ∧
        (¬ written → (s.busRead off).draws = s.draws ∧ ∃ x : Word, r = .read .ok x ∧
          (o = 0x000 → x = 0x42335401#32) ∧
          (o = 0x004 → x = 0x40A00100#32) ∧
          (o = 0x008 → x.toNat = s.ctrlIe.toNat) ∧
          (o = 0x00C → x = 0x00000000#32) ∧
          (o = 0x010 → x = s.statusWord) ∧
          (o = 0x014 → x.toNat = s.pcfgEn.toNat + 256 * s.pcfgDsize.toNat) ∧
          (o = 0x018 → x.toNat = s.blen.toNat) ∧
          (o = 0x01C → x.toNat = s.tlen.toNat) ∧
          (o = 0x020 → x.toNat = s.dlen.toNat) ∧
          (o = 0x024 → x.toNat = s.window.toNat) ∧
          (o = 0x028 → x = s.cntLo) ∧
          (o = 0x02C → x = s.cntHi) ∧
          (o = 0x030 → x = s.cand0) ∧
          (o = 0x034 → x = s.cand1) ∧
          (o = 0x038 → x.toNat = s.clen.toNat) ∧
          (o = 0x03C → x.toNat = s.trunc.toNat) ∧
          (o = 0x040 → x.toNat = s.cval.toNat) ∧
          (o = 0x044 → x = s.code0) ∧
          (o = 0x048 → x.toNat = s.code1.toNat) ∧
          (o = 0x04C → x = s.nowLo) ∧
          (o = 0x050 → x = s.nowHi) ∧
          (0x100 ≤ o → ∀ k, k < 4 → x.extractLsb' (8 * k) 8 = s.readByte (o + k))))

/-- R65: a write to a locked register or buffer word while BUSY changes WERR only and answers OK. -/
def Obligations.LockedWritesWhileBusySetWerrOnly : Prop :=
  ∀ (s : State) (off : Offset) (v : Word), s.busy = true → off.toNat % 4 = 0 →
    (off.toNat = 0x00C ∨ (0x014 ≤ off.toNat ∧ off.toNat ≤ 0x038) ∨ (0x100 ≤ off.toNat ∧ off.toNat ≤ 0x13F) ∨
      (0x200 ≤ off.toNat ∧ off.toNat ≤ 0x29F) ∨ (0x400 ≤ off.toNat ∧ off.toNat ≤ 0x4FF)) →
    s.busWrite off v = .next { s with werr := true, response := some (.write .ok) }

/-- R39: writes to the read-only registers have no effect, BUSY or not. -/
def Obligations.ReadOnlyWritesHaveNoEffect : Prop :=
  ∀ (s : State) (off : Offset) (v : Word),
    off ∈ [0x000#12, 0x004#12, 0x03C#12, 0x040#12, 0x044#12, 0x048#12, 0x04C#12, 0x050#12] →
    s.busWrite off v = .next { s with response := some (.write .ok) }

/-- R24, R27-R34, R39, R62: the whole next state of a write to each writable register, CTRL in every state and the others
while IDLE: which field takes which bits, every other field unchanged but the bus answer; and what the register reads
back right after, its reserved fields 0. -/
def Obligations.RegistersReadBackTheirFields : Prop :=
  ∀ (s : State) (v : Word),
    s.busWrite 0x008#12 v = .next { s with ctrlIe := v.getLsbD 0, response := some (.write .ok) } ∧
    (s.seq = .idle →
      s.busWrite 0x014#12 v = .next { s with
        pcfgEn := v.getLsbD 0, pcfgDsize := v.extractLsb' 8 7, response := some (.write .ok) } ∧
      s.busWrite 0x018#12 v = .next { s with blen := v.extractLsb' 0 8, response := some (.write .ok) } ∧
      s.busWrite 0x01C#12 v = .next { s with tlen := v.extractLsb' 0 9, response := some (.write .ok) } ∧
      s.busWrite 0x020#12 v = .next { s with dlen := v.extractLsb' 0 7, response := some (.write .ok) } ∧
      s.busWrite 0x024#12 v = .next { s with window := v.extractLsb' 0 8, response := some (.write .ok) } ∧
      s.busWrite 0x028#12 v = .next { s with cntLo := v, response := some (.write .ok) } ∧
      s.busWrite 0x02C#12 v = .next { s with cntHi := v, response := some (.write .ok) } ∧
      s.busWrite 0x030#12 v = .next { s with cand0 := v, response := some (.write .ok) } ∧
      s.busWrite 0x034#12 v = .next { s with cand1 := v, response := some (.write .ok) } ∧
      s.busWrite 0x038#12 v = .next { s with clen := v.extractLsb' 0 4, response := some (.write .ok) }) ∧
    ∀ (off : Offset) (mask : Word), s.seq = .idle ∨ off = 0x008#12 →
      (off, mask) ∈ [(0x008#12, 0x00000001#32), (0x014#12, 0x00007F01#32), (0x018#12, 0x000000FF#32),
        (0x01C#12, 0x000001FF#32), (0x020#12, 0x0000007F#32), (0x024#12, 0x000000FF#32), (0x028#12, 0xFFFFFFFF#32),
        (0x02C#12, 0xFFFFFFFF#32), (0x030#12, 0xFFFFFFFF#32), (0x034#12, 0xFFFFFFFF#32), (0x038#12, 0x0000000F#32)] →
      ∃ t, s.busWrite off v = .next t ∧ (t.busRead off).response = some (.read .ok (v &&& mask))

/-- R62, R67: a buffer word written while IDLE puts its bytes little-endian in its four places and nowhere else, and
reads back. -/
def Obligations.BufferWordsAreLittleEndian : Prop :=
  ∀ (s : State) (b : Buf) (j : Nat) (v : Word), s.seq = .idle → 4 * j < b.cap →
    let off : Offset := BitVec.ofNat 12 (b.base + 4 * j)
    ∃ t, s.busWrite off v = .next t ∧
      (∀ k, k < 4 → t.readByte (b.base + 4 * j + k) = v.extractLsb' (8 * k) 8) ∧
      (∀ a, ¬ (b.base + 4 * j ≤ a ∧ a < b.base + 4 * j + 4) → t.readByte a = s.readByte a) ∧
      t = { s with mem := t.mem, response := some (.write .ok) } ∧
      (t.busRead off).response = some (.read .ok v)

/-- R26, R44, R150: the layout of STATUS and the six codes of its ERR field; a read of STATUS answers it in every state,
BUSY or not (R66). -/
def Obligations.StatusWordLayout : Prop :=
  ∀ s : State,
    (s.busRead 0x010#12).response = some (.read .ok s.statusWord) ∧
    s.statusWord.toNat =
      (if s.seq = .idle then 0 else 1) + 2 * s.done.toNat + 4 * s.matched.toNat + 8 * s.unavail.toNat +
        16 * (match s.err with
          | .noError => 0
          | .illegalCmd => 1
          | .badBlen => 2
          | .badTlen => 3
          | .badDsize => 4
          | .truncRange => 5) +
        256 * s.werr.toNat + 4096 * s.lop.toNat

/-- R26: a write to STATUS clears DONE and WERR where their bits are written 1 and changes nothing else, BUSY or not. -/
def Obligations.StatusWriteClearsDoneAndWerrOnly : Prop :=
  ∀ (s : State) (v : Word), s.busWrite 0x010#12 v = .next { s with
    done := s.done && !v.getLsbD 1, werr := s.werr && !v.getLsbD 8, response := some (.write .ok) }

/-- R22, R23: ID and PARAM read their constants at all times and writes to them have no effect and no error. CMD reads 0
at all times (R25). -/
def Obligations.FixedRegistersReadTheirConstants : Prop :=
  ∀ (s : State) (v : Word),
    (s.busRead 0x000#12).response = some (.read .ok 0x42335401#32) ∧
    (s.busRead 0x004#12).response = some (.read .ok 0x40A00100#32) ∧
    (s.busRead 0x00C#12).response = some (.read .ok 0x00000000#32) ∧
    s.busWrite 0x000#12 v = .next { s with response := some (.write .ok) } ∧
    s.busWrite 0x004#12 v = .next { s with response := some (.write .ok) }

/-! ### Reset and the invariant -/

/-- R170: what a reset step leaves, whatever was in flight. (The form of an unspecified buffer byte is log 2's; that the
turns to come are kept is the model's choice, log 12.) -/
def Obligations.ResetAbandonsTheCommandInFlight : Prop :=
  ∀ (s : State) (t : Turn) (rest : List Turn), s.turns = t :: rest → t.action = .reset →
    ∃ u, step s = .next u ∧ u.seq = .idle ∧ u.irq = false ∧ u.key = List.replicate 160 0 ∧ u.klen = 0 ∧
      (∀ r : Reg, u.regRead r = match r with
        | .id => 0x42335401#32
        | .param => 0x40A00100#32
        | .window => 0x00000005#32
        | .ctrl | .cmd | .status | .pcfg | .blen | .tlen | .dlen | .cntLo | .cntHi | .cand0 | .cand1 | .clen
        | .trunc | .cval | .code0 | .code1 | .nowLo | .nowHi => 0x00000000#32) ∧
      (∀ a, u.readByte a = Config.powerOnByte (s.epoch + 1) a) ∧ u.turns = rest ∧ u.requests = []

/-- R21, R36, R45, R170: the invariant holds in the reset state. -/
def Obligations.ResetStateMeetsInvariant : Prop := State.reset.Inv

/-- R26, R36, R37, R45, R46, R152, R153: every step keeps the invariant. -/
def Obligations.EveryStepKeepsInvariant : Prop := ∀ s t : State, s.Inv → step s = .next t → t.Inv

/-- R86, R87: the line `cmd MNEMONIC` is one write of the command's OP to CMD, and as the next step while IDLE it runs
the command. (That the steps to come are data is the model's choice, log 4.) -/
def Obligations.CmdLineRunsItsCommand : Prop :=
  ∀ (s : State) (i : Instr), s.seq = .idle → s.turns = [] →
    (HostLine.cmd i).actions = [.busWrite 0x00C#12 (0#28 ++ opcode i)] ∧
    step (s.withScript [.cmd i]) = exec i (s.newStep.respond (.write .ok))
end

