-- ==== Sys2Proof/Laws/Codec.lean ====
section
/-! SUPPORT. Byte strings and symbol strings as numbers: the small lemmas of `digitsValue`. -/

namespace Sys2Proof.Machine

theorem digitsFrom_eq (base n : Nat) (ds : List Nat) :
    ds.foldl (fun n d => n * base + d) n = n * base ^ ds.length + digitsValue base ds := by
  simp only [digitsValue]
  induction ds generalizing n with
  | nil => simp
  | cons d ds ih =>
    simp only [List.foldl_cons, List.length_cons]
    rw [ih, ih (0 * base + d), pow_succ]
    ring

@[simp] theorem digitsValue_nil (base : Nat) : digitsValue base [] = 0 := rfl

theorem digitsValue_cons (base d : Nat) (ds : List Nat) :
    digitsValue base (d :: ds) = d * base ^ ds.length + digitsValue base ds := by
  show List.foldl _ (0 * base + d) ds = _
  rw [digitsFrom_eq]
  simp

theorem digitsValue_append (base : Nat) (ds es : List Nat) :
    digitsValue base (ds ++ es) = digitsValue base ds * base ^ es.length + digitsValue base es := by
  show List.foldl _ 0 (ds ++ es) = _
  rw [List.foldl_append, digitsFrom_eq]
  rfl

@[simp] theorem bytesValue_nil : bytesValue [] = 0 := rfl

theorem bytesValue_cons (b : Byte) (bs : List Byte) :
    bytesValue (b :: bs) = b.toNat * 256 ^ bs.length + bytesValue bs := by
  simp [bytesValue, digitsValue_cons]

theorem bytesValue_append (bs cs : List Byte) :
    bytesValue (bs ++ cs) = bytesValue bs * 256 ^ cs.length + bytesValue cs := by
  simp [bytesValue, digitsValue_append]

@[simp] theorem symbolsValue_nil : symbolsValue [] = 0 := rfl

/-- A character outside the alphabet holds no bits (R101). -/
theorem symbolsValue_cons_none {c : Byte} (h : symIdx c = none) (t : List Byte) :
    symbolsValue (c :: t) = symbolsValue t := by
  simp [symbolsValue, h]

/-- The number of symbol indices is the number of valid characters. -/
theorem length_filterMap_symIdx (t : List Byte) :
    (t.filterMap symIdx).length = (t.filter fun c => (symIdx c).isSome).length := by
  induction t with
  | nil => rfl
  | cons c t ih => rcases h : symIdx c with _ | v <;> simp [h, ih]

/-- A valid character holds the five bits above those of the characters after it. -/
theorem symbolsValue_cons_some {c : Byte} {v : Nat} (h : symIdx c = some v) (t : List Byte) :
    symbolsValue (c :: t) = v * 32 ^ (t.filter fun c => (symIdx c).isSome).length + symbolsValue t := by
  simp only [symbolsValue, List.filterMap_cons, h, digitsValue_cons, length_filterMap_symIdx]

theorem symbolsValue_append (t u : List Byte) :
    symbolsValue (t ++ u) =
      symbolsValue t * 32 ^ (u.filter fun c => (symIdx c).isSome).length + symbolsValue u := by
  simp only [symbolsValue, List.filterMap_append, digitsValue_append, length_filterMap_symIdx]

end Sys2Proof.Machine
end

