-- ==== Sys2Proof/Laws/Memory.lean ====
section
/-! SUPPORT. The laws of buffer memory: a read after a store, what a store leaves alone, the canonical form. -/

namespace Sys2Proof.Machine

theorem get?_append (m n : Memory) (a : Nat) :
    Memory.get? (m ++ n) a = (Memory.get? m a).or (Memory.get? n a) := by
  induction m with
  | nil => simp [Memory.get?]
  | cons c m ih =>
    obtain ⟨b, v⟩ := c
    by_cases h : a = b <;> simp [Memory.get?, h, ih]

theorem get?_filter (m : Memory) (p : Nat → Bool) (a : Nat) :
    Memory.get? (m.filter fun c => p c.1) a = if p a then Memory.get? m a else none := by
  induction m with
  | nil => simp [Memory.get?]
  | cons c m ih =>
    obtain ⟨b, v⟩ := c
    by_cases hp : p b <;> by_cases h : a = b <;> simp_all [Memory.get?]

theorem get?_cellsFrom (bs : List Byte) (b a : Nat) :
    Memory.get? (cellsFrom b bs) a = if b ≤ a then bs[a - b]? else none := by
  induction bs generalizing b with
  | nil => simp [cellsFrom, Memory.get?]
  | cons v bs ih =>
    simp only [cellsFrom, Memory.get?, ih]
    by_cases h : a = b
    · simp [h]
    · by_cases h2 : b + 1 ≤ a
      · have h3 : a - b = (a - (b + 1)) + 1 := by omega
        simp [h, h2, h3, show b ≤ a by omega]
      · simp [h, h2, show ¬ b ≤ a by omega]

/-- What a store leaves at each address: its own bytes, and elsewhere what was there. -/
theorem get?_store (m : Memory) (b : Nat) (bs : List Byte) (a : Nat) :
    Memory.get? (m.store b bs) a = if b ≤ a ∧ a < b + bs.length then bs[a - b]? else Memory.get? m a := by
  have hlo := get?_filter m (fun x => decide (x < b)) a
  have hhi := get?_filter m (fun x => decide (b + bs.length ≤ x)) a
  simp only [decide_eq_true_eq] at hlo hhi
  rw [Memory.store, get?_append, get?_append, hlo, hhi, get?_cellsFrom]
  rcases Nat.lt_or_ge a b with h1 | h1
  · simp [h1, show ¬ b ≤ a by omega, show ¬ b + bs.length ≤ a by omega]
  · rcases Nat.lt_or_ge a (b + bs.length) with h2 | h2
    · have h3 : a - b < bs.length := by omega
      simp [h1, h2, show ¬ a < b by omega, h3]
    · have h3 : bs[a - b]? = none := by simp; omega
      simp [h1, h2, h3, show ¬ a < b by omega]

theorem mem_cellsFrom {bs : List Byte} {b : Nat} {c : Host.Cell} (h : c ∈ cellsFrom b bs) :
    b ≤ c.1 ∧ c.1 < b + bs.length := by
  induction bs generalizing b with
  | nil => simp [cellsFrom] at h
  | cons v bs ih =>
    simp only [cellsFrom, List.mem_cons] at h
    rcases h with rfl | h
    · simp
    · have := ih h
      simp only [List.length_cons]
      omega

theorem pairwise_cellsFrom (bs : List Byte) (b : Nat) :
    (cellsFrom b bs).Pairwise fun c d => c.1 < d.1 := by
  induction bs generalizing b with
  | nil => simp [cellsFrom]
  | cons v bs ih =>
    refine List.pairwise_cons.mpr ⟨fun c hc => ?_, ih (b + 1)⟩
    have := mem_cellsFrom hc
    show b < c.1
    omega

/-- A store keeps the canonical form where it stays in the buffer windows. -/
theorem store_wf {m : Memory} (hm : m.wf) (b : Nat) (bs : List Byte)
    (hw : ∀ a, b ≤ a → a < b + bs.length → isBufferAddr a = true) : (m.store b bs).wf := by
  refine ⟨?_, fun c hc => ?_⟩
  · refine List.pairwise_append.mpr ⟨List.pairwise_append.mpr ⟨hm.1.filter _, pairwise_cellsFrom bs b, ?_⟩,
      hm.1.filter _, ?_⟩
    · intro c hc d hd
      have h1 := List.of_mem_filter hc
      have h2 := mem_cellsFrom hd
      simp only [decide_eq_true_eq] at h1
      omega
    · intro c hc d hd
      have h2 := List.of_mem_filter hd
      simp only [decide_eq_true_eq] at h2
      rcases List.mem_append.mp hc with hc | hc
      · have h1 := List.of_mem_filter hc
        simp only [decide_eq_true_eq] at h1
        omega
      · have h1 := mem_cellsFrom hc
        omega
  · rcases List.mem_append.mp hc with hc | hc
    · rcases List.mem_append.mp hc with hc | hc
      · exact hm.2 c (List.mem_of_mem_filter hc)
      · have h1 := mem_cellsFrom hc
        exact hw _ h1.1 h1.2
    · exact hm.2 c (List.mem_of_mem_filter hc)

/-- The buffer windows are those of the three buffers (R40-R42). -/
theorem isBufferAddr_iff (a : Nat) : isBufferAddr a = true ↔ ∃ b : Buf, b.base ≤ a ∧ a < b.base + b.cap := by
  constructor
  · intro h
    simp only [isBufferAddr, Bool.or_eq_true, Bool.and_eq_true, decide_eq_true_eq] at h
    rcases h with (h | h) | h
    · exact ⟨.dg, h⟩
    · exact ⟨.bin, h⟩
    · exact ⟨.txt, h⟩
  · rintro ⟨b, h1, h2⟩
    cases b <;> simp only [Buf.base, Buf.cap] at h1 h2 <;>
      simp only [isBufferAddr, Bool.or_eq_true, Bool.and_eq_true, decide_eq_true_eq] <;> omega

/-- Every byte of a buffer lies in the buffer windows. -/
theorem isBufferAddr_buf (b : Buf) {a : Nat} (h1 : b.base ≤ a) (h2 : a < b.base + b.cap) : isBufferAddr a = true :=
  (isBufferAddr_iff a).mpr ⟨b, h1, h2⟩

/-- Writing a buffer keeps the canonical form, whatever is written. -/
theorem writeBuf_wf {s : State} (h : s.mem.wf) (b : Buf) (bs : List Byte) : (s.writeBuf b bs).mem.wf :=
  store_wf h _ _ fun _ h1 h2 => isBufferAddr_buf b h1 (by rw [List.length_take] at h2; omega)

/-- Writing a bus word inside a buffer keeps the canonical form. -/
theorem writeBufWord_wf {s : State} (h : s.mem.wf) (b : Buf) {j : Nat} (hj : 4 * j + 4 ≤ b.cap) (v : Word) :
    (s.writeBufWord b j v).mem.wf :=
  store_wf h _ _ fun _ h1 h2 => isBufferAddr_buf b (by omega) (by simp [bytesOfWord] at h2; omega)

/-- A byte read after a buffer was written: the new byte inside what was written, elsewhere the byte before. -/
theorem readByte_writeBuf (s : State) (b : Buf) (bs : List Byte) (h : bs.length ≤ b.cap) (a : Nat) :
    (s.writeBuf b bs).readByte a =
      if b.base ≤ a ∧ a < b.base + bs.length then bs.getD (a - b.base) 0 else s.readByte a := by
  simp only [State.readByte, State.writeBuf, get?_store, List.take_of_length_le h]
  split
  · rename_i h1
    have h2 : a - b.base < bs.length := by omega
    simp [List.getD_eq_getElem?_getD, h2]
  · rfl

/-- A byte read after a buffer was set to zero (R140). -/
theorem readByte_zeroBuf (s : State) (b : Buf) (a : Nat) :
    (s.zeroBuf b).readByte a = if b.base ≤ a ∧ a < b.base + b.cap then 0 else s.readByte a := by
  rw [State.zeroBuf, readByte_writeBuf s b _ (List.length_replicate.le), List.length_replicate]
  split
  · rw [List.getD_eq_getElem?_getD, List.getElem?_replicate]
    split <;> rfl
  · rfl

/-- A byte read outside the written bytes of a buffer, whatever was written. -/
theorem readByte_writeBuf_outside (s : State) (b : Buf) (bs : List Byte) {a : Nat}
    (h : ¬ (b.base ≤ a ∧ a < b.base + bs.length)) : (s.writeBuf b bs).readByte a = s.readByte a := by
  simp only [State.readByte, State.writeBuf, get?_store, List.length_take]
  rw [if_neg (by omega)]

/-- The byte a bus word write leaves at an address. -/
theorem readByte_writeBufWord (s : State) (b : Buf) (j : Nat) (v : Word) (a : Nat) :
    (s.writeBufWord b j v).readByte a =
      if b.base + 4 * j ≤ a ∧ a < b.base + 4 * j + 4 then (bytesOfWord v).getD (a - (b.base + 4 * j)) 0
      else s.readByte a := by
  simp only [State.readByte, State.writeBufWord, get?_store]
  have h4 : (bytesOfWord v).length = 4 := rfl
  rw [h4]
  split
  · rename_i h1
    have h2 : a - (b.base + 4 * j) < (bytesOfWord v).length := by omega
    simp [List.getD_eq_getElem?_getD, h2]
  · rfl

@[simp] theorem length_readBuf (s : State) (b : Buf) (n : Nat) : (s.readBuf b n).length = n := by
  simp [State.readBuf]

theorem getD_readBuf (s : State) (b : Buf) {n i : Nat} (h : i < n) :
    (s.readBuf b n).getD i 0 = s.readByte (b.base + i) := by
  simp [State.readBuf, List.getD_eq_getElem?_getD, h]

/-- Two states that agree on the bytes 0..n-1 of a buffer read the same string from it. -/
theorem readBuf_congr {s t : State} {b : Buf} {n : Nat}
    (h : ∀ i, i < n → s.readByte (b.base + i) = t.readByte (b.base + i)) : s.readBuf b n = t.readBuf b n := by
  simp only [State.readBuf]
  exact List.map_congr_left fun i hi => h i (List.mem_range.mp hi)

/-- A buffer reads back what was just written to it. -/
theorem readBuf_writeBuf (s : State) (b : Buf) (bs : List Byte) (h : bs.length ≤ b.cap) :
    (s.writeBuf b bs).readBuf b bs.length = bs := by
  apply List.ext_getElem (by simp)
  intro i h1 h2
  have h3 := readByte_writeBuf s b bs h (b.base + i)
  have h4 : i < bs.length := h2
  simp [State.readBuf, h3, h4, List.getD_eq_getElem?_getD]

/-! ### Byte order (R67) -/

theorem extract_byte0 (a b c d : Byte) : (d ++ c ++ b ++ a : Word).extractLsb' 0 8 = a := by
  apply BitVec.eq_of_getLsbD_eq
  intro j hj
  simp only [BitVec.getLsbD_extractLsb', BitVec.getLsbD_append]
  interval_cases j <;> simp

theorem extract_byte1 (a b c d : Byte) : (d ++ c ++ b ++ a : Word).extractLsb' 8 8 = b := by
  apply BitVec.eq_of_getLsbD_eq
  intro j hj
  simp only [BitVec.getLsbD_extractLsb', BitVec.getLsbD_append]
  interval_cases j <;> simp

theorem extract_byte2 (a b c d : Byte) : (d ++ c ++ b ++ a : Word).extractLsb' 16 8 = c := by
  apply BitVec.eq_of_getLsbD_eq
  intro j hj
  simp only [BitVec.getLsbD_extractLsb', BitVec.getLsbD_append]
  interval_cases j <;> simp

theorem extract_byte3 (a b c d : Byte) : (d ++ c ++ b ++ a : Word).extractLsb' 24 8 = d := by
  apply BitVec.eq_of_getLsbD_eq
  intro j hj
  simp only [BitVec.getLsbD_extractLsb', BitVec.getLsbD_append]
  interval_cases j <;> simp

theorem extract_half0 (a b : Byte) : (b ++ a : BitVec 16).extractLsb' 0 8 = a := by
  apply BitVec.eq_of_getLsbD_eq
  intro j hj
  simp only [BitVec.getLsbD_extractLsb', BitVec.getLsbD_append]
  interval_cases j <;> simp

theorem extract_half1 (a b : Byte) : (b ++ a : BitVec 16).extractLsb' 8 8 = b := by
  apply BitVec.eq_of_getLsbD_eq
  intro j hj
  simp only [BitVec.getLsbD_extractLsb', BitVec.getLsbD_append]
  interval_cases j <;> simp

/-- A word is its four bytes put together. -/
theorem wordOfBytes_extract (v : Word) :
    wordOfBytes (v.extractLsb' 0 8) (v.extractLsb' 8 8) (v.extractLsb' 16 8) (v.extractLsb' 24 8) = v := by
  apply BitVec.eq_of_getLsbD_eq
  intro j hj
  simp only [wordOfBytes, BitVec.getLsbD_extractLsb', BitVec.getLsbD_append]
  interval_cases j <;> simp

/-- The bytes of a word put together from four. -/
theorem bytesOfWord_wordOfBytes (a b c d : Byte) : bytesOfWord (wordOfBytes a b c d) = [a, b, c, d] := by
  simp only [bytesOfWord, wordOfBytes, extract_byte0, extract_byte1, extract_byte2, extract_byte3]

/-- Reset's buffers have the canonical form. -/
theorem reset_mem_wf : State.reset.mem.wf := by decide

end Sys2Proof.Machine
end

