-- ==== Sys2Proof/Laws/State.lean ====
section
/-! SUPPORT. One lemma per field per shared operation on the state, so that no proof unfolds a record update. -/

namespace Sys2Proof.Machine.State

variable (s : State)

/-- The state after a provider call with message `msg` whose digest is `d`, `k` free values drawn by then (R121). -/
def afterCall (s : State) (msg : List Byte) (n : Nat) (d : List Byte) (k : Nat) : State :=
  { s with
    mem := s.mem.store 0x100 (d.take 64), dlen := BitVec.ofNat 7 n
    requests := s.requests ++ [{ key := s.keyBytes, msg := msg }], draws := k }

/-! ### acceptRecord -/

@[simp] theorem acceptRecord_seq (op : BitVec 4) : (s.acceptRecord op).seq = s.seq := rfl
@[simp] theorem acceptRecord_ctrlIe (op : BitVec 4) : (s.acceptRecord op).ctrlIe = s.ctrlIe := rfl
@[simp] theorem acceptRecord_done (op : BitVec 4) : (s.acceptRecord op).done = false := rfl
@[simp] theorem acceptRecord_matched (op : BitVec 4) : (s.acceptRecord op).matched = false := rfl
@[simp] theorem acceptRecord_unavail (op : BitVec 4) : (s.acceptRecord op).unavail = false := rfl
@[simp] theorem acceptRecord_err (op : BitVec 4) : (s.acceptRecord op).err = .noError := rfl
@[simp] theorem acceptRecord_werr (op : BitVec 4) : (s.acceptRecord op).werr = s.werr := rfl
@[simp] theorem acceptRecord_lop (op : BitVec 4) : (s.acceptRecord op).lop = op := rfl
@[simp] theorem acceptRecord_pcfgEn (op : BitVec 4) : (s.acceptRecord op).pcfgEn = s.pcfgEn := rfl
@[simp] theorem acceptRecord_pcfgDsize (op : BitVec 4) : (s.acceptRecord op).pcfgDsize = s.pcfgDsize := rfl
@[simp] theorem acceptRecord_blen (op : BitVec 4) : (s.acceptRecord op).blen = s.blen := rfl
@[simp] theorem acceptRecord_tlen (op : BitVec 4) : (s.acceptRecord op).tlen = s.tlen := rfl
@[simp] theorem acceptRecord_dlen (op : BitVec 4) : (s.acceptRecord op).dlen = s.dlen := rfl
@[simp] theorem acceptRecord_window (op : BitVec 4) : (s.acceptRecord op).window = s.window := rfl
@[simp] theorem acceptRecord_cntLo (op : BitVec 4) : (s.acceptRecord op).cntLo = s.cntLo := rfl
@[simp] theorem acceptRecord_cntHi (op : BitVec 4) : (s.acceptRecord op).cntHi = s.cntHi := rfl
@[simp] theorem acceptRecord_cand0 (op : BitVec 4) : (s.acceptRecord op).cand0 = s.cand0 := rfl
@[simp] theorem acceptRecord_cand1 (op : BitVec 4) : (s.acceptRecord op).cand1 = s.cand1 := rfl
@[simp] theorem acceptRecord_clen (op : BitVec 4) : (s.acceptRecord op).clen = s.clen := rfl
@[simp] theorem acceptRecord_trunc (op : BitVec 4) : (s.acceptRecord op).trunc = s.trunc := rfl
@[simp] theorem acceptRecord_cval (op : BitVec 4) : (s.acceptRecord op).cval = s.cval := rfl
@[simp] theorem acceptRecord_code0 (op : BitVec 4) : (s.acceptRecord op).code0 = s.code0 := rfl
@[simp] theorem acceptRecord_code1 (op : BitVec 4) : (s.acceptRecord op).code1 = s.code1 := rfl
@[simp] theorem acceptRecord_nowLo (op : BitVec 4) : (s.acceptRecord op).nowLo = s.nowLo := rfl
@[simp] theorem acceptRecord_nowHi (op : BitVec 4) : (s.acceptRecord op).nowHi = s.nowHi := rfl
@[simp] theorem acceptRecord_mem (op : BitVec 4) : (s.acceptRecord op).mem = s.mem := rfl
@[simp] theorem acceptRecord_key (op : BitVec 4) : (s.acceptRecord op).key = s.key := rfl
@[simp] theorem acceptRecord_klen (op : BitVec 4) : (s.acceptRecord op).klen = s.klen := rfl
@[simp] theorem acceptRecord_ctx (op : BitVec 4) : (s.acceptRecord op).ctx = s.ctx := rfl
@[simp] theorem acceptRecord_turns (op : BitVec 4) : (s.acceptRecord op).turns = s.turns := rfl
@[simp] theorem acceptRecord_inputs (op : BitVec 4) : (s.acceptRecord op).inputs = s.inputs := rfl
@[simp] theorem acceptRecord_hmacPoints (op : BitVec 4) : (s.acceptRecord op).hmacPoints = s.hmacPoints := rfl
@[simp] theorem acceptRecord_draws (op : BitVec 4) : (s.acceptRecord op).draws = s.draws := rfl
@[simp] theorem acceptRecord_epoch (op : BitVec 4) : (s.acceptRecord op).epoch = s.epoch := rfl
@[simp] theorem acceptRecord_response (op : BitVec 4) : (s.acceptRecord op).response = s.response := rfl
@[simp] theorem acceptRecord_requests (op : BitVec 4) : (s.acceptRecord op).requests = s.requests := rfl

/-! ### latchOp -/

@[simp] theorem latchOp_seq (op : BitVec 4) : (s.latchOp op).seq = s.seq := rfl
@[simp] theorem latchOp_ctrlIe (op : BitVec 4) : (s.latchOp op).ctrlIe = s.ctrlIe := rfl
@[simp] theorem latchOp_done (op : BitVec 4) : (s.latchOp op).done = s.done := rfl
@[simp] theorem latchOp_matched (op : BitVec 4) : (s.latchOp op).matched = s.matched := rfl
@[simp] theorem latchOp_unavail (op : BitVec 4) : (s.latchOp op).unavail = s.unavail := rfl
@[simp] theorem latchOp_err (op : BitVec 4) : (s.latchOp op).err = s.err := rfl
@[simp] theorem latchOp_werr (op : BitVec 4) : (s.latchOp op).werr = s.werr := rfl
@[simp] theorem latchOp_lop (op : BitVec 4) : (s.latchOp op).lop = s.lop := rfl
@[simp] theorem latchOp_pcfgEn (op : BitVec 4) : (s.latchOp op).pcfgEn = s.pcfgEn := rfl
@[simp] theorem latchOp_pcfgDsize (op : BitVec 4) : (s.latchOp op).pcfgDsize = s.pcfgDsize := rfl
@[simp] theorem latchOp_blen (op : BitVec 4) : (s.latchOp op).blen = s.blen := rfl
@[simp] theorem latchOp_tlen (op : BitVec 4) : (s.latchOp op).tlen = s.tlen := rfl
@[simp] theorem latchOp_dlen (op : BitVec 4) : (s.latchOp op).dlen = s.dlen := rfl
@[simp] theorem latchOp_window (op : BitVec 4) : (s.latchOp op).window = s.window := rfl
@[simp] theorem latchOp_cntLo (op : BitVec 4) : (s.latchOp op).cntLo = s.cntLo := rfl
@[simp] theorem latchOp_cntHi (op : BitVec 4) : (s.latchOp op).cntHi = s.cntHi := rfl
@[simp] theorem latchOp_cand0 (op : BitVec 4) : (s.latchOp op).cand0 = s.cand0 := rfl
@[simp] theorem latchOp_cand1 (op : BitVec 4) : (s.latchOp op).cand1 = s.cand1 := rfl
@[simp] theorem latchOp_clen (op : BitVec 4) : (s.latchOp op).clen = s.clen := rfl
@[simp] theorem latchOp_trunc (op : BitVec 4) : (s.latchOp op).trunc = s.trunc := rfl
@[simp] theorem latchOp_cval (op : BitVec 4) : (s.latchOp op).cval = s.cval := rfl
@[simp] theorem latchOp_code0 (op : BitVec 4) : (s.latchOp op).code0 = s.code0 := rfl
@[simp] theorem latchOp_code1 (op : BitVec 4) : (s.latchOp op).code1 = s.code1 := rfl
@[simp] theorem latchOp_nowLo (op : BitVec 4) : (s.latchOp op).nowLo = s.nowLo := rfl
@[simp] theorem latchOp_nowHi (op : BitVec 4) : (s.latchOp op).nowHi = s.nowHi := rfl
@[simp] theorem latchOp_mem (op : BitVec 4) : (s.latchOp op).mem = s.mem := rfl
@[simp] theorem latchOp_key (op : BitVec 4) : (s.latchOp op).key = s.key := rfl
@[simp] theorem latchOp_klen (op : BitVec 4) : (s.latchOp op).klen = s.klen := rfl
@[simp] theorem latchOp_ctx (op : BitVec 4) : (s.latchOp op).ctx = { s.ctx with op := op } := rfl
@[simp] theorem latchOp_turns (op : BitVec 4) : (s.latchOp op).turns = s.turns := rfl
@[simp] theorem latchOp_inputs (op : BitVec 4) : (s.latchOp op).inputs = s.inputs := rfl
@[simp] theorem latchOp_hmacPoints (op : BitVec 4) : (s.latchOp op).hmacPoints = s.hmacPoints := rfl
@[simp] theorem latchOp_draws (op : BitVec 4) : (s.latchOp op).draws = s.draws := rfl
@[simp] theorem latchOp_epoch (op : BitVec 4) : (s.latchOp op).epoch = s.epoch := rfl
@[simp] theorem latchOp_response (op : BitVec 4) : (s.latchOp op).response = s.response := rfl
@[simp] theorem latchOp_requests (op : BitVec 4) : (s.latchOp op).requests = s.requests := rfl

/-! ### latchDsize -/

@[simp] theorem latchDsize_seq : (s.latchDsize).seq = s.seq := rfl
@[simp] theorem latchDsize_ctrlIe : (s.latchDsize).ctrlIe = s.ctrlIe := rfl
@[simp] theorem latchDsize_done : (s.latchDsize).done = s.done := rfl
@[simp] theorem latchDsize_matched : (s.latchDsize).matched = s.matched := rfl
@[simp] theorem latchDsize_unavail : (s.latchDsize).unavail = s.unavail := rfl
@[simp] theorem latchDsize_err : (s.latchDsize).err = s.err := rfl
@[simp] theorem latchDsize_werr : (s.latchDsize).werr = s.werr := rfl
@[simp] theorem latchDsize_lop : (s.latchDsize).lop = s.lop := rfl
@[simp] theorem latchDsize_pcfgEn : (s.latchDsize).pcfgEn = s.pcfgEn := rfl
@[simp] theorem latchDsize_pcfgDsize : (s.latchDsize).pcfgDsize = s.pcfgDsize := rfl
@[simp] theorem latchDsize_blen : (s.latchDsize).blen = s.blen := rfl
@[simp] theorem latchDsize_tlen : (s.latchDsize).tlen = s.tlen := rfl
@[simp] theorem latchDsize_dlen : (s.latchDsize).dlen = s.dlen := rfl
@[simp] theorem latchDsize_window : (s.latchDsize).window = s.window := rfl
@[simp] theorem latchDsize_cntLo : (s.latchDsize).cntLo = s.cntLo := rfl
@[simp] theorem latchDsize_cntHi : (s.latchDsize).cntHi = s.cntHi := rfl
@[simp] theorem latchDsize_cand0 : (s.latchDsize).cand0 = s.cand0 := rfl
@[simp] theorem latchDsize_cand1 : (s.latchDsize).cand1 = s.cand1 := rfl
@[simp] theorem latchDsize_clen : (s.latchDsize).clen = s.clen := rfl
@[simp] theorem latchDsize_trunc : (s.latchDsize).trunc = s.trunc := rfl
@[simp] theorem latchDsize_cval : (s.latchDsize).cval = s.cval := rfl
@[simp] theorem latchDsize_code0 : (s.latchDsize).code0 = s.code0 := rfl
@[simp] theorem latchDsize_code1 : (s.latchDsize).code1 = s.code1 := rfl
@[simp] theorem latchDsize_nowLo : (s.latchDsize).nowLo = s.nowLo := rfl
@[simp] theorem latchDsize_nowHi : (s.latchDsize).nowHi = s.nowHi := rfl
@[simp] theorem latchDsize_mem : (s.latchDsize).mem = s.mem := rfl
@[simp] theorem latchDsize_key : (s.latchDsize).key = s.key := rfl
@[simp] theorem latchDsize_klen : (s.latchDsize).klen = s.klen := rfl
@[simp] theorem latchDsize_ctx : (s.latchDsize).ctx = { s.ctx with dsize := s.pcfgDsize } := rfl
@[simp] theorem latchDsize_turns : (s.latchDsize).turns = s.turns := rfl
@[simp] theorem latchDsize_inputs : (s.latchDsize).inputs = s.inputs := rfl
@[simp] theorem latchDsize_hmacPoints : (s.latchDsize).hmacPoints = s.hmacPoints := rfl
@[simp] theorem latchDsize_draws : (s.latchDsize).draws = s.draws := rfl
@[simp] theorem latchDsize_epoch : (s.latchDsize).epoch = s.epoch := rfl
@[simp] theorem latchDsize_response : (s.latchDsize).response = s.response := rfl
@[simp] theorem latchDsize_requests : (s.latchDsize).requests = s.requests := rfl

/-! ### latchWindow -/

@[simp] theorem latchWindow_seq : (s.latchWindow).seq = s.seq := rfl
@[simp] theorem latchWindow_ctrlIe : (s.latchWindow).ctrlIe = s.ctrlIe := rfl
@[simp] theorem latchWindow_done : (s.latchWindow).done = s.done := rfl
@[simp] theorem latchWindow_matched : (s.latchWindow).matched = s.matched := rfl
@[simp] theorem latchWindow_unavail : (s.latchWindow).unavail = s.unavail := rfl
@[simp] theorem latchWindow_err : (s.latchWindow).err = s.err := rfl
@[simp] theorem latchWindow_werr : (s.latchWindow).werr = s.werr := rfl
@[simp] theorem latchWindow_lop : (s.latchWindow).lop = s.lop := rfl
@[simp] theorem latchWindow_pcfgEn : (s.latchWindow).pcfgEn = s.pcfgEn := rfl
@[simp] theorem latchWindow_pcfgDsize : (s.latchWindow).pcfgDsize = s.pcfgDsize := rfl
@[simp] theorem latchWindow_blen : (s.latchWindow).blen = s.blen := rfl
@[simp] theorem latchWindow_tlen : (s.latchWindow).tlen = s.tlen := rfl
@[simp] theorem latchWindow_dlen : (s.latchWindow).dlen = s.dlen := rfl
@[simp] theorem latchWindow_window : (s.latchWindow).window = s.window := rfl
@[simp] theorem latchWindow_cntLo : (s.latchWindow).cntLo = s.cntLo := rfl
@[simp] theorem latchWindow_cntHi : (s.latchWindow).cntHi = s.cntHi := rfl
@[simp] theorem latchWindow_cand0 : (s.latchWindow).cand0 = s.cand0 := rfl
@[simp] theorem latchWindow_cand1 : (s.latchWindow).cand1 = s.cand1 := rfl
@[simp] theorem latchWindow_clen : (s.latchWindow).clen = s.clen := rfl
@[simp] theorem latchWindow_trunc : (s.latchWindow).trunc = s.trunc := rfl
@[simp] theorem latchWindow_cval : (s.latchWindow).cval = s.cval := rfl
@[simp] theorem latchWindow_code0 : (s.latchWindow).code0 = s.code0 := rfl
@[simp] theorem latchWindow_code1 : (s.latchWindow).code1 = s.code1 := rfl
@[simp] theorem latchWindow_nowLo : (s.latchWindow).nowLo = s.nowLo := rfl
@[simp] theorem latchWindow_nowHi : (s.latchWindow).nowHi = s.nowHi := rfl
@[simp] theorem latchWindow_mem : (s.latchWindow).mem = s.mem := rfl
@[simp] theorem latchWindow_key : (s.latchWindow).key = s.key := rfl
@[simp] theorem latchWindow_klen : (s.latchWindow).klen = s.klen := rfl
@[simp] theorem latchWindow_ctx : (s.latchWindow).ctx = { s.ctx with w := s.window } := rfl
@[simp] theorem latchWindow_turns : (s.latchWindow).turns = s.turns := rfl
@[simp] theorem latchWindow_inputs : (s.latchWindow).inputs = s.inputs := rfl
@[simp] theorem latchWindow_hmacPoints : (s.latchWindow).hmacPoints = s.hmacPoints := rfl
@[simp] theorem latchWindow_draws : (s.latchWindow).draws = s.draws := rfl
@[simp] theorem latchWindow_epoch : (s.latchWindow).epoch = s.epoch := rfl
@[simp] theorem latchWindow_response : (s.latchWindow).response = s.response := rfl
@[simp] theorem latchWindow_requests : (s.latchWindow).requests = s.requests := rfl

/-! ### setBlen -/

@[simp] theorem setBlen_seq (n : Nat) : (s.setBlen n).seq = s.seq := rfl
@[simp] theorem setBlen_ctrlIe (n : Nat) : (s.setBlen n).ctrlIe = s.ctrlIe := rfl
@[simp] theorem setBlen_done (n : Nat) : (s.setBlen n).done = s.done := rfl
@[simp] theorem setBlen_matched (n : Nat) : (s.setBlen n).matched = s.matched := rfl
@[simp] theorem setBlen_unavail (n : Nat) : (s.setBlen n).unavail = s.unavail := rfl
@[simp] theorem setBlen_err (n : Nat) : (s.setBlen n).err = s.err := rfl
@[simp] theorem setBlen_werr (n : Nat) : (s.setBlen n).werr = s.werr := rfl
@[simp] theorem setBlen_lop (n : Nat) : (s.setBlen n).lop = s.lop := rfl
@[simp] theorem setBlen_pcfgEn (n : Nat) : (s.setBlen n).pcfgEn = s.pcfgEn := rfl
@[simp] theorem setBlen_pcfgDsize (n : Nat) : (s.setBlen n).pcfgDsize = s.pcfgDsize := rfl
@[simp] theorem setBlen_blen (n : Nat) : (s.setBlen n).blen = BitVec.ofNat 8 n := rfl
@[simp] theorem setBlen_tlen (n : Nat) : (s.setBlen n).tlen = s.tlen := rfl
@[simp] theorem setBlen_dlen (n : Nat) : (s.setBlen n).dlen = s.dlen := rfl
@[simp] theorem setBlen_window (n : Nat) : (s.setBlen n).window = s.window := rfl
@[simp] theorem setBlen_cntLo (n : Nat) : (s.setBlen n).cntLo = s.cntLo := rfl
@[simp] theorem setBlen_cntHi (n : Nat) : (s.setBlen n).cntHi = s.cntHi := rfl
@[simp] theorem setBlen_cand0 (n : Nat) : (s.setBlen n).cand0 = s.cand0 := rfl
@[simp] theorem setBlen_cand1 (n : Nat) : (s.setBlen n).cand1 = s.cand1 := rfl
@[simp] theorem setBlen_clen (n : Nat) : (s.setBlen n).clen = s.clen := rfl
@[simp] theorem setBlen_trunc (n : Nat) : (s.setBlen n).trunc = s.trunc := rfl
@[simp] theorem setBlen_cval (n : Nat) : (s.setBlen n).cval = s.cval := rfl
@[simp] theorem setBlen_code0 (n : Nat) : (s.setBlen n).code0 = s.code0 := rfl
@[simp] theorem setBlen_code1 (n : Nat) : (s.setBlen n).code1 = s.code1 := rfl
@[simp] theorem setBlen_nowLo (n : Nat) : (s.setBlen n).nowLo = s.nowLo := rfl
@[simp] theorem setBlen_nowHi (n : Nat) : (s.setBlen n).nowHi = s.nowHi := rfl
@[simp] theorem setBlen_mem (n : Nat) : (s.setBlen n).mem = s.mem := rfl
@[simp] theorem setBlen_key (n : Nat) : (s.setBlen n).key = s.key := rfl
@[simp] theorem setBlen_klen (n : Nat) : (s.setBlen n).klen = s.klen := rfl
@[simp] theorem setBlen_ctx (n : Nat) : (s.setBlen n).ctx = s.ctx := rfl
@[simp] theorem setBlen_turns (n : Nat) : (s.setBlen n).turns = s.turns := rfl
@[simp] theorem setBlen_inputs (n : Nat) : (s.setBlen n).inputs = s.inputs := rfl
@[simp] theorem setBlen_hmacPoints (n : Nat) : (s.setBlen n).hmacPoints = s.hmacPoints := rfl
@[simp] theorem setBlen_draws (n : Nat) : (s.setBlen n).draws = s.draws := rfl
@[simp] theorem setBlen_epoch (n : Nat) : (s.setBlen n).epoch = s.epoch := rfl
@[simp] theorem setBlen_response (n : Nat) : (s.setBlen n).response = s.response := rfl
@[simp] theorem setBlen_requests (n : Nat) : (s.setBlen n).requests = s.requests := rfl

/-! ### setTlen -/

@[simp] theorem setTlen_seq (n : Nat) : (s.setTlen n).seq = s.seq := rfl
@[simp] theorem setTlen_ctrlIe (n : Nat) : (s.setTlen n).ctrlIe = s.ctrlIe := rfl
@[simp] theorem setTlen_done (n : Nat) : (s.setTlen n).done = s.done := rfl
@[simp] theorem setTlen_matched (n : Nat) : (s.setTlen n).matched = s.matched := rfl
@[simp] theorem setTlen_unavail (n : Nat) : (s.setTlen n).unavail = s.unavail := rfl
@[simp] theorem setTlen_err (n : Nat) : (s.setTlen n).err = s.err := rfl
@[simp] theorem setTlen_werr (n : Nat) : (s.setTlen n).werr = s.werr := rfl
@[simp] theorem setTlen_lop (n : Nat) : (s.setTlen n).lop = s.lop := rfl
@[simp] theorem setTlen_pcfgEn (n : Nat) : (s.setTlen n).pcfgEn = s.pcfgEn := rfl
@[simp] theorem setTlen_pcfgDsize (n : Nat) : (s.setTlen n).pcfgDsize = s.pcfgDsize := rfl
@[simp] theorem setTlen_blen (n : Nat) : (s.setTlen n).blen = s.blen := rfl
@[simp] theorem setTlen_tlen (n : Nat) : (s.setTlen n).tlen = BitVec.ofNat 9 n := rfl
@[simp] theorem setTlen_dlen (n : Nat) : (s.setTlen n).dlen = s.dlen := rfl
@[simp] theorem setTlen_window (n : Nat) : (s.setTlen n).window = s.window := rfl
@[simp] theorem setTlen_cntLo (n : Nat) : (s.setTlen n).cntLo = s.cntLo := rfl
@[simp] theorem setTlen_cntHi (n : Nat) : (s.setTlen n).cntHi = s.cntHi := rfl
@[simp] theorem setTlen_cand0 (n : Nat) : (s.setTlen n).cand0 = s.cand0 := rfl
@[simp] theorem setTlen_cand1 (n : Nat) : (s.setTlen n).cand1 = s.cand1 := rfl
@[simp] theorem setTlen_clen (n : Nat) : (s.setTlen n).clen = s.clen := rfl
@[simp] theorem setTlen_trunc (n : Nat) : (s.setTlen n).trunc = s.trunc := rfl
@[simp] theorem setTlen_cval (n : Nat) : (s.setTlen n).cval = s.cval := rfl
@[simp] theorem setTlen_code0 (n : Nat) : (s.setTlen n).code0 = s.code0 := rfl
@[simp] theorem setTlen_code1 (n : Nat) : (s.setTlen n).code1 = s.code1 := rfl
@[simp] theorem setTlen_nowLo (n : Nat) : (s.setTlen n).nowLo = s.nowLo := rfl
@[simp] theorem setTlen_nowHi (n : Nat) : (s.setTlen n).nowHi = s.nowHi := rfl
@[simp] theorem setTlen_mem (n : Nat) : (s.setTlen n).mem = s.mem := rfl
@[simp] theorem setTlen_key (n : Nat) : (s.setTlen n).key = s.key := rfl
@[simp] theorem setTlen_klen (n : Nat) : (s.setTlen n).klen = s.klen := rfl
@[simp] theorem setTlen_ctx (n : Nat) : (s.setTlen n).ctx = s.ctx := rfl
@[simp] theorem setTlen_turns (n : Nat) : (s.setTlen n).turns = s.turns := rfl
@[simp] theorem setTlen_inputs (n : Nat) : (s.setTlen n).inputs = s.inputs := rfl
@[simp] theorem setTlen_hmacPoints (n : Nat) : (s.setTlen n).hmacPoints = s.hmacPoints := rfl
@[simp] theorem setTlen_draws (n : Nat) : (s.setTlen n).draws = s.draws := rfl
@[simp] theorem setTlen_epoch (n : Nat) : (s.setTlen n).epoch = s.epoch := rfl
@[simp] theorem setTlen_response (n : Nat) : (s.setTlen n).response = s.response := rfl
@[simp] theorem setTlen_requests (n : Nat) : (s.setTlen n).requests = s.requests := rfl

/-! ### setDlen -/

@[simp] theorem setDlen_seq (n : Nat) : (s.setDlen n).seq = s.seq := rfl
@[simp] theorem setDlen_ctrlIe (n : Nat) : (s.setDlen n).ctrlIe = s.ctrlIe := rfl
@[simp] theorem setDlen_done (n : Nat) : (s.setDlen n).done = s.done := rfl
@[simp] theorem setDlen_matched (n : Nat) : (s.setDlen n).matched = s.matched := rfl
@[simp] theorem setDlen_unavail (n : Nat) : (s.setDlen n).unavail = s.unavail := rfl
@[simp] theorem setDlen_err (n : Nat) : (s.setDlen n).err = s.err := rfl
@[simp] theorem setDlen_werr (n : Nat) : (s.setDlen n).werr = s.werr := rfl
@[simp] theorem setDlen_lop (n : Nat) : (s.setDlen n).lop = s.lop := rfl
@[simp] theorem setDlen_pcfgEn (n : Nat) : (s.setDlen n).pcfgEn = s.pcfgEn := rfl
@[simp] theorem setDlen_pcfgDsize (n : Nat) : (s.setDlen n).pcfgDsize = s.pcfgDsize := rfl
@[simp] theorem setDlen_blen (n : Nat) : (s.setDlen n).blen = s.blen := rfl
@[simp] theorem setDlen_tlen (n : Nat) : (s.setDlen n).tlen = s.tlen := rfl
@[simp] theorem setDlen_dlen (n : Nat) : (s.setDlen n).dlen = BitVec.ofNat 7 n := rfl
@[simp] theorem setDlen_window (n : Nat) : (s.setDlen n).window = s.window := rfl
@[simp] theorem setDlen_cntLo (n : Nat) : (s.setDlen n).cntLo = s.cntLo := rfl
@[simp] theorem setDlen_cntHi (n : Nat) : (s.setDlen n).cntHi = s.cntHi := rfl
@[simp] theorem setDlen_cand0 (n : Nat) : (s.setDlen n).cand0 = s.cand0 := rfl
@[simp] theorem setDlen_cand1 (n : Nat) : (s.setDlen n).cand1 = s.cand1 := rfl
@[simp] theorem setDlen_clen (n : Nat) : (s.setDlen n).clen = s.clen := rfl
@[simp] theorem setDlen_trunc (n : Nat) : (s.setDlen n).trunc = s.trunc := rfl
@[simp] theorem setDlen_cval (n : Nat) : (s.setDlen n).cval = s.cval := rfl
@[simp] theorem setDlen_code0 (n : Nat) : (s.setDlen n).code0 = s.code0 := rfl
@[simp] theorem setDlen_code1 (n : Nat) : (s.setDlen n).code1 = s.code1 := rfl
@[simp] theorem setDlen_nowLo (n : Nat) : (s.setDlen n).nowLo = s.nowLo := rfl
@[simp] theorem setDlen_nowHi (n : Nat) : (s.setDlen n).nowHi = s.nowHi := rfl
@[simp] theorem setDlen_mem (n : Nat) : (s.setDlen n).mem = s.mem := rfl
@[simp] theorem setDlen_key (n : Nat) : (s.setDlen n).key = s.key := rfl
@[simp] theorem setDlen_klen (n : Nat) : (s.setDlen n).klen = s.klen := rfl
@[simp] theorem setDlen_ctx (n : Nat) : (s.setDlen n).ctx = s.ctx := rfl
@[simp] theorem setDlen_turns (n : Nat) : (s.setDlen n).turns = s.turns := rfl
@[simp] theorem setDlen_inputs (n : Nat) : (s.setDlen n).inputs = s.inputs := rfl
@[simp] theorem setDlen_hmacPoints (n : Nat) : (s.setDlen n).hmacPoints = s.hmacPoints := rfl
@[simp] theorem setDlen_draws (n : Nat) : (s.setDlen n).draws = s.draws := rfl
@[simp] theorem setDlen_epoch (n : Nat) : (s.setDlen n).epoch = s.epoch := rfl
@[simp] theorem setDlen_response (n : Nat) : (s.setDlen n).response = s.response := rfl
@[simp] theorem setDlen_requests (n : Nat) : (s.setDlen n).requests = s.requests := rfl

/-! ### zeroBuf -/

@[simp] theorem zeroBuf_seq (b : Buf) : (s.zeroBuf b).seq = s.seq := rfl
@[simp] theorem zeroBuf_ctrlIe (b : Buf) : (s.zeroBuf b).ctrlIe = s.ctrlIe := rfl
@[simp] theorem zeroBuf_done (b : Buf) : (s.zeroBuf b).done = s.done := rfl
@[simp] theorem zeroBuf_matched (b : Buf) : (s.zeroBuf b).matched = s.matched := rfl
@[simp] theorem zeroBuf_unavail (b : Buf) : (s.zeroBuf b).unavail = s.unavail := rfl
@[simp] theorem zeroBuf_err (b : Buf) : (s.zeroBuf b).err = s.err := rfl
@[simp] theorem zeroBuf_werr (b : Buf) : (s.zeroBuf b).werr = s.werr := rfl
@[simp] theorem zeroBuf_lop (b : Buf) : (s.zeroBuf b).lop = s.lop := rfl
@[simp] theorem zeroBuf_pcfgEn (b : Buf) : (s.zeroBuf b).pcfgEn = s.pcfgEn := rfl
@[simp] theorem zeroBuf_pcfgDsize (b : Buf) : (s.zeroBuf b).pcfgDsize = s.pcfgDsize := rfl
@[simp] theorem zeroBuf_blen (b : Buf) : (s.zeroBuf b).blen = s.blen := rfl
@[simp] theorem zeroBuf_tlen (b : Buf) : (s.zeroBuf b).tlen = s.tlen := rfl
@[simp] theorem zeroBuf_dlen (b : Buf) : (s.zeroBuf b).dlen = s.dlen := rfl
@[simp] theorem zeroBuf_window (b : Buf) : (s.zeroBuf b).window = s.window := rfl
@[simp] theorem zeroBuf_cntLo (b : Buf) : (s.zeroBuf b).cntLo = s.cntLo := rfl
@[simp] theorem zeroBuf_cntHi (b : Buf) : (s.zeroBuf b).cntHi = s.cntHi := rfl
@[simp] theorem zeroBuf_cand0 (b : Buf) : (s.zeroBuf b).cand0 = s.cand0 := rfl
@[simp] theorem zeroBuf_cand1 (b : Buf) : (s.zeroBuf b).cand1 = s.cand1 := rfl
@[simp] theorem zeroBuf_clen (b : Buf) : (s.zeroBuf b).clen = s.clen := rfl
@[simp] theorem zeroBuf_trunc (b : Buf) : (s.zeroBuf b).trunc = s.trunc := rfl
@[simp] theorem zeroBuf_cval (b : Buf) : (s.zeroBuf b).cval = s.cval := rfl
@[simp] theorem zeroBuf_code0 (b : Buf) : (s.zeroBuf b).code0 = s.code0 := rfl
@[simp] theorem zeroBuf_code1 (b : Buf) : (s.zeroBuf b).code1 = s.code1 := rfl
@[simp] theorem zeroBuf_nowLo (b : Buf) : (s.zeroBuf b).nowLo = s.nowLo := rfl
@[simp] theorem zeroBuf_nowHi (b : Buf) : (s.zeroBuf b).nowHi = s.nowHi := rfl
@[simp] theorem zeroBuf_mem (b : Buf) : (s.zeroBuf b).mem = s.mem.store b.base ((List.replicate b.cap 0).take b.cap) := rfl
@[simp] theorem zeroBuf_key (b : Buf) : (s.zeroBuf b).key = s.key := rfl
@[simp] theorem zeroBuf_klen (b : Buf) : (s.zeroBuf b).klen = s.klen := rfl
@[simp] theorem zeroBuf_ctx (b : Buf) : (s.zeroBuf b).ctx = s.ctx := rfl
@[simp] theorem zeroBuf_turns (b : Buf) : (s.zeroBuf b).turns = s.turns := rfl
@[simp] theorem zeroBuf_inputs (b : Buf) : (s.zeroBuf b).inputs = s.inputs := rfl
@[simp] theorem zeroBuf_hmacPoints (b : Buf) : (s.zeroBuf b).hmacPoints = s.hmacPoints := rfl
@[simp] theorem zeroBuf_draws (b : Buf) : (s.zeroBuf b).draws = s.draws := rfl
@[simp] theorem zeroBuf_epoch (b : Buf) : (s.zeroBuf b).epoch = s.epoch := rfl
@[simp] theorem zeroBuf_response (b : Buf) : (s.zeroBuf b).response = s.response := rfl
@[simp] theorem zeroBuf_requests (b : Buf) : (s.zeroBuf b).requests = s.requests := rfl

/-! ### afterCall -/

@[simp] theorem afterCall_seq (msg : List Byte) (n : Nat) (d : List Byte) (k : Nat) : (s.afterCall msg n d k).seq = s.seq := rfl
@[simp] theorem afterCall_ctrlIe (msg : List Byte) (n : Nat) (d : List Byte) (k : Nat) : (s.afterCall msg n d k).ctrlIe = s.ctrlIe := rfl
@[simp] theorem afterCall_done (msg : List Byte) (n : Nat) (d : List Byte) (k : Nat) : (s.afterCall msg n d k).done = s.done := rfl
@[simp] theorem afterCall_matched (msg : List Byte) (n : Nat) (d : List Byte) (k : Nat) : (s.afterCall msg n d k).matched = s.matched := rfl
@[simp] theorem afterCall_unavail (msg : List Byte) (n : Nat) (d : List Byte) (k : Nat) : (s.afterCall msg n d k).unavail = s.unavail := rfl
@[simp] theorem afterCall_err (msg : List Byte) (n : Nat) (d : List Byte) (k : Nat) : (s.afterCall msg n d k).err = s.err := rfl
@[simp] theorem afterCall_werr (msg : List Byte) (n : Nat) (d : List Byte) (k : Nat) : (s.afterCall msg n d k).werr = s.werr := rfl
@[simp] theorem afterCall_lop (msg : List Byte) (n : Nat) (d : List Byte) (k : Nat) : (s.afterCall msg n d k).lop = s.lop := rfl
@[simp] theorem afterCall_pcfgEn (msg : List Byte) (n : Nat) (d : List Byte) (k : Nat) : (s.afterCall msg n d k).pcfgEn = s.pcfgEn := rfl
@[simp] theorem afterCall_pcfgDsize (msg : List Byte) (n : Nat) (d : List Byte) (k : Nat) : (s.afterCall msg n d k).pcfgDsize = s.pcfgDsize := rfl
@[simp] theorem afterCall_blen (msg : List Byte) (n : Nat) (d : List Byte) (k : Nat) : (s.afterCall msg n d k).blen = s.blen := rfl
@[simp] theorem afterCall_tlen (msg : List Byte) (n : Nat) (d : List Byte) (k : Nat) : (s.afterCall msg n d k).tlen = s.tlen := rfl
@[simp] theorem afterCall_dlen (msg : List Byte) (n : Nat) (d : List Byte) (k : Nat) : (s.afterCall msg n d k).dlen = BitVec.ofNat 7 n := rfl
@[simp] theorem afterCall_window (msg : List Byte) (n : Nat) (d : List Byte) (k : Nat) : (s.afterCall msg n d k).window = s.window := rfl
@[simp] theorem afterCall_cntLo (msg : List Byte) (n : Nat) (d : List Byte) (k : Nat) : (s.afterCall msg n d k).cntLo = s.cntLo := rfl
@[simp] theorem afterCall_cntHi (msg : List Byte) (n : Nat) (d : List Byte) (k : Nat) : (s.afterCall msg n d k).cntHi = s.cntHi := rfl
@[simp] theorem afterCall_cand0 (msg : List Byte) (n : Nat) (d : List Byte) (k : Nat) : (s.afterCall msg n d k).cand0 = s.cand0 := rfl
@[simp] theorem afterCall_cand1 (msg : List Byte) (n : Nat) (d : List Byte) (k : Nat) : (s.afterCall msg n d k).cand1 = s.cand1 := rfl
@[simp] theorem afterCall_clen (msg : List Byte) (n : Nat) (d : List Byte) (k : Nat) : (s.afterCall msg n d k).clen = s.clen := rfl
@[simp] theorem afterCall_trunc (msg : List Byte) (n : Nat) (d : List Byte) (k : Nat) : (s.afterCall msg n d k).trunc = s.trunc := rfl
@[simp] theorem afterCall_cval (msg : List Byte) (n : Nat) (d : List Byte) (k : Nat) : (s.afterCall msg n d k).cval = s.cval := rfl
@[simp] theorem afterCall_code0 (msg : List Byte) (n : Nat) (d : List Byte) (k : Nat) : (s.afterCall msg n d k).code0 = s.code0 := rfl
@[simp] theorem afterCall_code1 (msg : List Byte) (n : Nat) (d : List Byte) (k : Nat) : (s.afterCall msg n d k).code1 = s.code1 := rfl
@[simp] theorem afterCall_nowLo (msg : List Byte) (n : Nat) (d : List Byte) (k : Nat) : (s.afterCall msg n d k).nowLo = s.nowLo := rfl
@[simp] theorem afterCall_nowHi (msg : List Byte) (n : Nat) (d : List Byte) (k : Nat) : (s.afterCall msg n d k).nowHi = s.nowHi := rfl
@[simp] theorem afterCall_mem (msg : List Byte) (n : Nat) (d : List Byte) (k : Nat) : (s.afterCall msg n d k).mem = s.mem.store 0x100 (d.take 64) := rfl
@[simp] theorem afterCall_key (msg : List Byte) (n : Nat) (d : List Byte) (k : Nat) : (s.afterCall msg n d k).key = s.key := rfl
@[simp] theorem afterCall_klen (msg : List Byte) (n : Nat) (d : List Byte) (k : Nat) : (s.afterCall msg n d k).klen = s.klen := rfl
@[simp] theorem afterCall_ctx (msg : List Byte) (n : Nat) (d : List Byte) (k : Nat) : (s.afterCall msg n d k).ctx = s.ctx := rfl
@[simp] theorem afterCall_turns (msg : List Byte) (n : Nat) (d : List Byte) (k : Nat) : (s.afterCall msg n d k).turns = s.turns := rfl
@[simp] theorem afterCall_inputs (msg : List Byte) (n : Nat) (d : List Byte) (k : Nat) : (s.afterCall msg n d k).inputs = s.inputs := rfl
@[simp] theorem afterCall_hmacPoints (msg : List Byte) (n : Nat) (d : List Byte) (k : Nat) : (s.afterCall msg n d k).hmacPoints = s.hmacPoints := rfl
@[simp] theorem afterCall_draws (msg : List Byte) (n : Nat) (d : List Byte) (k : Nat) : (s.afterCall msg n d k).draws = k := rfl
@[simp] theorem afterCall_epoch (msg : List Byte) (n : Nat) (d : List Byte) (k : Nat) : (s.afterCall msg n d k).epoch = s.epoch := rfl
@[simp] theorem afterCall_response (msg : List Byte) (n : Nat) (d : List Byte) (k : Nat) : (s.afterCall msg n d k).response = s.response := rfl
@[simp] theorem afterCall_requests (msg : List Byte) (n : Nat) (d : List Byte) (k : Nat) : (s.afterCall msg n d k).requests = s.requests ++ [{ key := s.keyBytes, msg := msg }] := rfl

/-! ### zeroRegs -/

@[simp] theorem zeroRegs_seq : (s.zeroRegs).seq = s.seq := rfl
@[simp] theorem zeroRegs_ctrlIe : (s.zeroRegs).ctrlIe = s.ctrlIe := rfl
@[simp] theorem zeroRegs_done : (s.zeroRegs).done = s.done := rfl
@[simp] theorem zeroRegs_matched : (s.zeroRegs).matched = s.matched := rfl
@[simp] theorem zeroRegs_unavail : (s.zeroRegs).unavail = s.unavail := rfl
@[simp] theorem zeroRegs_err : (s.zeroRegs).err = s.err := rfl
@[simp] theorem zeroRegs_werr : (s.zeroRegs).werr = s.werr := rfl
@[simp] theorem zeroRegs_lop : (s.zeroRegs).lop = s.lop := rfl
@[simp] theorem zeroRegs_pcfgEn : (s.zeroRegs).pcfgEn = s.pcfgEn := rfl
@[simp] theorem zeroRegs_pcfgDsize : (s.zeroRegs).pcfgDsize = s.pcfgDsize := rfl
@[simp] theorem zeroRegs_blen : (s.zeroRegs).blen = 0 := rfl
@[simp] theorem zeroRegs_tlen : (s.zeroRegs).tlen = 0 := rfl
@[simp] theorem zeroRegs_dlen : (s.zeroRegs).dlen = 0 := rfl
@[simp] theorem zeroRegs_window : (s.zeroRegs).window = s.window := rfl
@[simp] theorem zeroRegs_cntLo : (s.zeroRegs).cntLo = s.cntLo := rfl
@[simp] theorem zeroRegs_cntHi : (s.zeroRegs).cntHi = s.cntHi := rfl
@[simp] theorem zeroRegs_cand0 : (s.zeroRegs).cand0 = 0 := rfl
@[simp] theorem zeroRegs_cand1 : (s.zeroRegs).cand1 = 0 := rfl
@[simp] theorem zeroRegs_clen : (s.zeroRegs).clen = 0 := rfl
@[simp] theorem zeroRegs_trunc : (s.zeroRegs).trunc = 0 := rfl
@[simp] theorem zeroRegs_cval : (s.zeroRegs).cval = 0 := rfl
@[simp] theorem zeroRegs_code0 : (s.zeroRegs).code0 = 0 := rfl
@[simp] theorem zeroRegs_code1 : (s.zeroRegs).code1 = 0 := rfl
@[simp] theorem zeroRegs_nowLo : (s.zeroRegs).nowLo = s.nowLo := rfl
@[simp] theorem zeroRegs_nowHi : (s.zeroRegs).nowHi = s.nowHi := rfl
@[simp] theorem zeroRegs_mem : (s.zeroRegs).mem = s.mem := rfl
@[simp] theorem zeroRegs_key : (s.zeroRegs).key = s.key := rfl
@[simp] theorem zeroRegs_klen : (s.zeroRegs).klen = s.klen := rfl
@[simp] theorem zeroRegs_ctx : (s.zeroRegs).ctx = s.ctx := rfl
@[simp] theorem zeroRegs_turns : (s.zeroRegs).turns = s.turns := rfl
@[simp] theorem zeroRegs_inputs : (s.zeroRegs).inputs = s.inputs := rfl
@[simp] theorem zeroRegs_hmacPoints : (s.zeroRegs).hmacPoints = s.hmacPoints := rfl
@[simp] theorem zeroRegs_draws : (s.zeroRegs).draws = s.draws := rfl
@[simp] theorem zeroRegs_epoch : (s.zeroRegs).epoch = s.epoch := rfl
@[simp] theorem zeroRegs_response : (s.zeroRegs).response = s.response := rfl
@[simp] theorem zeroRegs_requests : (s.zeroRegs).requests = s.requests := rfl

/-! ### start -/

@[simp] theorem start_seq (i : Instr) : (s.start i).seq = .run i := rfl
@[simp] theorem start_ctrlIe (i : Instr) : (s.start i).ctrlIe = s.ctrlIe := rfl
@[simp] theorem start_done (i : Instr) : (s.start i).done = s.done := rfl
@[simp] theorem start_matched (i : Instr) : (s.start i).matched = s.matched := rfl
@[simp] theorem start_unavail (i : Instr) : (s.start i).unavail = s.unavail := rfl
@[simp] theorem start_err (i : Instr) : (s.start i).err = s.err := rfl
@[simp] theorem start_werr (i : Instr) : (s.start i).werr = s.werr := rfl
@[simp] theorem start_lop (i : Instr) : (s.start i).lop = s.lop := rfl
@[simp] theorem start_pcfgEn (i : Instr) : (s.start i).pcfgEn = s.pcfgEn := rfl
@[simp] theorem start_pcfgDsize (i : Instr) : (s.start i).pcfgDsize = s.pcfgDsize := rfl
@[simp] theorem start_blen (i : Instr) : (s.start i).blen = s.blen := rfl
@[simp] theorem start_tlen (i : Instr) : (s.start i).tlen = s.tlen := rfl
@[simp] theorem start_dlen (i : Instr) : (s.start i).dlen = s.dlen := rfl
@[simp] theorem start_window (i : Instr) : (s.start i).window = s.window := rfl
@[simp] theorem start_cntLo (i : Instr) : (s.start i).cntLo = s.cntLo := rfl
@[simp] theorem start_cntHi (i : Instr) : (s.start i).cntHi = s.cntHi := rfl
@[simp] theorem start_cand0 (i : Instr) : (s.start i).cand0 = s.cand0 := rfl
@[simp] theorem start_cand1 (i : Instr) : (s.start i).cand1 = s.cand1 := rfl
@[simp] theorem start_clen (i : Instr) : (s.start i).clen = s.clen := rfl
@[simp] theorem start_trunc (i : Instr) : (s.start i).trunc = s.trunc := rfl
@[simp] theorem start_cval (i : Instr) : (s.start i).cval = s.cval := rfl
@[simp] theorem start_code0 (i : Instr) : (s.start i).code0 = s.code0 := rfl
@[simp] theorem start_code1 (i : Instr) : (s.start i).code1 = s.code1 := rfl
@[simp] theorem start_nowLo (i : Instr) : (s.start i).nowLo = s.nowLo := rfl
@[simp] theorem start_nowHi (i : Instr) : (s.start i).nowHi = s.nowHi := rfl
@[simp] theorem start_mem (i : Instr) : (s.start i).mem = s.mem := rfl
@[simp] theorem start_key (i : Instr) : (s.start i).key = s.key := rfl
@[simp] theorem start_klen (i : Instr) : (s.start i).klen = s.klen := rfl
@[simp] theorem start_ctx (i : Instr) : (s.start i).ctx = s.ctx := rfl
@[simp] theorem start_turns (i : Instr) : (s.start i).turns = s.turns := rfl
@[simp] theorem start_inputs (i : Instr) : (s.start i).inputs = s.inputs := rfl
@[simp] theorem start_hmacPoints (i : Instr) : (s.start i).hmacPoints = s.hmacPoints := rfl
@[simp] theorem start_draws (i : Instr) : (s.start i).draws = s.draws := rfl
@[simp] theorem start_epoch (i : Instr) : (s.start i).epoch = s.epoch := rfl
@[simp] theorem start_response (i : Instr) : (s.start i).response = s.response := rfl
@[simp] theorem start_requests (i : Instr) : (s.start i).requests = s.requests := rfl

/-! ### complete -/

@[simp] theorem complete_seq (e : ErrCode) (m u : Bool) : (s.complete e m u).seq = .idle := rfl
@[simp] theorem complete_ctrlIe (e : ErrCode) (m u : Bool) : (s.complete e m u).ctrlIe = s.ctrlIe := rfl
@[simp] theorem complete_done (e : ErrCode) (m u : Bool) : (s.complete e m u).done = true := rfl
@[simp] theorem complete_matched (e : ErrCode) (m u : Bool) : (s.complete e m u).matched = m := rfl
@[simp] theorem complete_unavail (e : ErrCode) (m u : Bool) : (s.complete e m u).unavail = u := rfl
@[simp] theorem complete_err (e : ErrCode) (m u : Bool) : (s.complete e m u).err = e := rfl
@[simp] theorem complete_werr (e : ErrCode) (m u : Bool) : (s.complete e m u).werr = s.werr := rfl
@[simp] theorem complete_lop (e : ErrCode) (m u : Bool) : (s.complete e m u).lop = s.lop := rfl
@[simp] theorem complete_pcfgEn (e : ErrCode) (m u : Bool) : (s.complete e m u).pcfgEn = s.pcfgEn := rfl
@[simp] theorem complete_pcfgDsize (e : ErrCode) (m u : Bool) : (s.complete e m u).pcfgDsize = s.pcfgDsize := rfl
@[simp] theorem complete_blen (e : ErrCode) (m u : Bool) : (s.complete e m u).blen = s.blen := rfl
@[simp] theorem complete_tlen (e : ErrCode) (m u : Bool) : (s.complete e m u).tlen = s.tlen := rfl
@[simp] theorem complete_dlen (e : ErrCode) (m u : Bool) : (s.complete e m u).dlen = s.dlen := rfl
@[simp] theorem complete_window (e : ErrCode) (m u : Bool) : (s.complete e m u).window = s.window := rfl
@[simp] theorem complete_cntLo (e : ErrCode) (m u : Bool) : (s.complete e m u).cntLo = s.cntLo := rfl
@[simp] theorem complete_cntHi (e : ErrCode) (m u : Bool) : (s.complete e m u).cntHi = s.cntHi := rfl
@[simp] theorem complete_cand0 (e : ErrCode) (m u : Bool) : (s.complete e m u).cand0 = s.cand0 := rfl
@[simp] theorem complete_cand1 (e : ErrCode) (m u : Bool) : (s.complete e m u).cand1 = s.cand1 := rfl
@[simp] theorem complete_clen (e : ErrCode) (m u : Bool) : (s.complete e m u).clen = s.clen := rfl
@[simp] theorem complete_trunc (e : ErrCode) (m u : Bool) : (s.complete e m u).trunc = s.trunc := rfl
@[simp] theorem complete_cval (e : ErrCode) (m u : Bool) : (s.complete e m u).cval = s.cval := rfl
@[simp] theorem complete_code0 (e : ErrCode) (m u : Bool) : (s.complete e m u).code0 = s.code0 := rfl
@[simp] theorem complete_code1 (e : ErrCode) (m u : Bool) : (s.complete e m u).code1 = s.code1 := rfl
@[simp] theorem complete_nowLo (e : ErrCode) (m u : Bool) : (s.complete e m u).nowLo = s.nowLo := rfl
@[simp] theorem complete_nowHi (e : ErrCode) (m u : Bool) : (s.complete e m u).nowHi = s.nowHi := rfl
@[simp] theorem complete_mem (e : ErrCode) (m u : Bool) : (s.complete e m u).mem = s.mem := rfl
@[simp] theorem complete_key (e : ErrCode) (m u : Bool) : (s.complete e m u).key = zeroKey := rfl
@[simp] theorem complete_klen (e : ErrCode) (m u : Bool) : (s.complete e m u).klen = 0 := rfl
@[simp] theorem complete_ctx (e : ErrCode) (m u : Bool) : (s.complete e m u).ctx = s.ctx := rfl
@[simp] theorem complete_turns (e : ErrCode) (m u : Bool) : (s.complete e m u).turns = s.turns := rfl
@[simp] theorem complete_inputs (e : ErrCode) (m u : Bool) : (s.complete e m u).inputs = s.inputs := rfl
@[simp] theorem complete_hmacPoints (e : ErrCode) (m u : Bool) : (s.complete e m u).hmacPoints = s.hmacPoints := rfl
@[simp] theorem complete_draws (e : ErrCode) (m u : Bool) : (s.complete e m u).draws = s.draws := rfl
@[simp] theorem complete_epoch (e : ErrCode) (m u : Bool) : (s.complete e m u).epoch = s.epoch := rfl
@[simp] theorem complete_response (e : ErrCode) (m u : Bool) : (s.complete e m u).response = s.response := rfl
@[simp] theorem complete_requests (e : ErrCode) (m u : Bool) : (s.complete e m u).requests = s.requests := rfl

/-! ### setKey -/

@[simp] theorem setKey_seq (k : List Byte) : (s.setKey k).seq = s.seq := rfl
@[simp] theorem setKey_ctrlIe (k : List Byte) : (s.setKey k).ctrlIe = s.ctrlIe := rfl
@[simp] theorem setKey_done (k : List Byte) : (s.setKey k).done = s.done := rfl
@[simp] theorem setKey_matched (k : List Byte) : (s.setKey k).matched = s.matched := rfl
@[simp] theorem setKey_unavail (k : List Byte) : (s.setKey k).unavail = s.unavail := rfl
@[simp] theorem setKey_err (k : List Byte) : (s.setKey k).err = s.err := rfl
@[simp] theorem setKey_werr (k : List Byte) : (s.setKey k).werr = s.werr := rfl
@[simp] theorem setKey_lop (k : List Byte) : (s.setKey k).lop = s.lop := rfl
@[simp] theorem setKey_pcfgEn (k : List Byte) : (s.setKey k).pcfgEn = s.pcfgEn := rfl
@[simp] theorem setKey_pcfgDsize (k : List Byte) : (s.setKey k).pcfgDsize = s.pcfgDsize := rfl
@[simp] theorem setKey_blen (k : List Byte) : (s.setKey k).blen = s.blen := rfl
@[simp] theorem setKey_tlen (k : List Byte) : (s.setKey k).tlen = s.tlen := rfl
@[simp] theorem setKey_dlen (k : List Byte) : (s.setKey k).dlen = s.dlen := rfl
@[simp] theorem setKey_window (k : List Byte) : (s.setKey k).window = s.window := rfl
@[simp] theorem setKey_cntLo (k : List Byte) : (s.setKey k).cntLo = s.cntLo := rfl
@[simp] theorem setKey_cntHi (k : List Byte) : (s.setKey k).cntHi = s.cntHi := rfl
@[simp] theorem setKey_cand0 (k : List Byte) : (s.setKey k).cand0 = s.cand0 := rfl
@[simp] theorem setKey_cand1 (k : List Byte) : (s.setKey k).cand1 = s.cand1 := rfl
@[simp] theorem setKey_clen (k : List Byte) : (s.setKey k).clen = s.clen := rfl
@[simp] theorem setKey_trunc (k : List Byte) : (s.setKey k).trunc = s.trunc := rfl
@[simp] theorem setKey_cval (k : List Byte) : (s.setKey k).cval = s.cval := rfl
@[simp] theorem setKey_code0 (k : List Byte) : (s.setKey k).code0 = s.code0 := rfl
@[simp] theorem setKey_code1 (k : List Byte) : (s.setKey k).code1 = s.code1 := rfl
@[simp] theorem setKey_nowLo (k : List Byte) : (s.setKey k).nowLo = s.nowLo := rfl
@[simp] theorem setKey_nowHi (k : List Byte) : (s.setKey k).nowHi = s.nowHi := rfl
@[simp] theorem setKey_mem (k : List Byte) : (s.setKey k).mem = s.mem := rfl
@[simp] theorem setKey_key (k : List Byte) : (s.setKey k).key = k ++ s.key.drop k.length := rfl
@[simp] theorem setKey_klen (k : List Byte) : (s.setKey k).klen = k.length := rfl
@[simp] theorem setKey_ctx (k : List Byte) : (s.setKey k).ctx = s.ctx := rfl
@[simp] theorem setKey_turns (k : List Byte) : (s.setKey k).turns = s.turns := rfl
@[simp] theorem setKey_inputs (k : List Byte) : (s.setKey k).inputs = s.inputs := rfl
@[simp] theorem setKey_hmacPoints (k : List Byte) : (s.setKey k).hmacPoints = s.hmacPoints := rfl
@[simp] theorem setKey_draws (k : List Byte) : (s.setKey k).draws = s.draws := rfl
@[simp] theorem setKey_epoch (k : List Byte) : (s.setKey k).epoch = s.epoch := rfl
@[simp] theorem setKey_response (k : List Byte) : (s.setKey k).response = s.response := rfl
@[simp] theorem setKey_requests (k : List Byte) : (s.setKey k).requests = s.requests := rfl

/-! ### writeBuf -/

@[simp] theorem writeBuf_seq (b : Buf) (bs : List Byte) : (s.writeBuf b bs).seq = s.seq := rfl
@[simp] theorem writeBuf_ctrlIe (b : Buf) (bs : List Byte) : (s.writeBuf b bs).ctrlIe = s.ctrlIe := rfl
@[simp] theorem writeBuf_done (b : Buf) (bs : List Byte) : (s.writeBuf b bs).done = s.done := rfl
@[simp] theorem writeBuf_matched (b : Buf) (bs : List Byte) : (s.writeBuf b bs).matched = s.matched := rfl
@[simp] theorem writeBuf_unavail (b : Buf) (bs : List Byte) : (s.writeBuf b bs).unavail = s.unavail := rfl
@[simp] theorem writeBuf_err (b : Buf) (bs : List Byte) : (s.writeBuf b bs).err = s.err := rfl
@[simp] theorem writeBuf_werr (b : Buf) (bs : List Byte) : (s.writeBuf b bs).werr = s.werr := rfl
@[simp] theorem writeBuf_lop (b : Buf) (bs : List Byte) : (s.writeBuf b bs).lop = s.lop := rfl
@[simp] theorem writeBuf_pcfgEn (b : Buf) (bs : List Byte) : (s.writeBuf b bs).pcfgEn = s.pcfgEn := rfl
@[simp] theorem writeBuf_pcfgDsize (b : Buf) (bs : List Byte) : (s.writeBuf b bs).pcfgDsize = s.pcfgDsize := rfl
@[simp] theorem writeBuf_blen (b : Buf) (bs : List Byte) : (s.writeBuf b bs).blen = s.blen := rfl
@[simp] theorem writeBuf_tlen (b : Buf) (bs : List Byte) : (s.writeBuf b bs).tlen = s.tlen := rfl
@[simp] theorem writeBuf_dlen (b : Buf) (bs : List Byte) : (s.writeBuf b bs).dlen = s.dlen := rfl
@[simp] theorem writeBuf_window (b : Buf) (bs : List Byte) : (s.writeBuf b bs).window = s.window := rfl
@[simp] theorem writeBuf_cntLo (b : Buf) (bs : List Byte) : (s.writeBuf b bs).cntLo = s.cntLo := rfl
@[simp] theorem writeBuf_cntHi (b : Buf) (bs : List Byte) : (s.writeBuf b bs).cntHi = s.cntHi := rfl
@[simp] theorem writeBuf_cand0 (b : Buf) (bs : List Byte) : (s.writeBuf b bs).cand0 = s.cand0 := rfl
@[simp] theorem writeBuf_cand1 (b : Buf) (bs : List Byte) : (s.writeBuf b bs).cand1 = s.cand1 := rfl
@[simp] theorem writeBuf_clen (b : Buf) (bs : List Byte) : (s.writeBuf b bs).clen = s.clen := rfl
@[simp] theorem writeBuf_trunc (b : Buf) (bs : List Byte) : (s.writeBuf b bs).trunc = s.trunc := rfl
@[simp] theorem writeBuf_cval (b : Buf) (bs : List Byte) : (s.writeBuf b bs).cval = s.cval := rfl
@[simp] theorem writeBuf_code0 (b : Buf) (bs : List Byte) : (s.writeBuf b bs).code0 = s.code0 := rfl
@[simp] theorem writeBuf_code1 (b : Buf) (bs : List Byte) : (s.writeBuf b bs).code1 = s.code1 := rfl
@[simp] theorem writeBuf_nowLo (b : Buf) (bs : List Byte) : (s.writeBuf b bs).nowLo = s.nowLo := rfl
@[simp] theorem writeBuf_nowHi (b : Buf) (bs : List Byte) : (s.writeBuf b bs).nowHi = s.nowHi := rfl
@[simp] theorem writeBuf_mem (b : Buf) (bs : List Byte) : (s.writeBuf b bs).mem = s.mem.store b.base (bs.take b.cap) := rfl
@[simp] theorem writeBuf_key (b : Buf) (bs : List Byte) : (s.writeBuf b bs).key = s.key := rfl
@[simp] theorem writeBuf_klen (b : Buf) (bs : List Byte) : (s.writeBuf b bs).klen = s.klen := rfl
@[simp] theorem writeBuf_ctx (b : Buf) (bs : List Byte) : (s.writeBuf b bs).ctx = s.ctx := rfl
@[simp] theorem writeBuf_turns (b : Buf) (bs : List Byte) : (s.writeBuf b bs).turns = s.turns := rfl
@[simp] theorem writeBuf_inputs (b : Buf) (bs : List Byte) : (s.writeBuf b bs).inputs = s.inputs := rfl
@[simp] theorem writeBuf_hmacPoints (b : Buf) (bs : List Byte) : (s.writeBuf b bs).hmacPoints = s.hmacPoints := rfl
@[simp] theorem writeBuf_draws (b : Buf) (bs : List Byte) : (s.writeBuf b bs).draws = s.draws := rfl
@[simp] theorem writeBuf_epoch (b : Buf) (bs : List Byte) : (s.writeBuf b bs).epoch = s.epoch := rfl
@[simp] theorem writeBuf_response (b : Buf) (bs : List Byte) : (s.writeBuf b bs).response = s.response := rfl
@[simp] theorem writeBuf_requests (b : Buf) (bs : List Byte) : (s.writeBuf b bs).requests = s.requests := rfl

/-! ### writeBufWord -/

@[simp] theorem writeBufWord_seq (b : Buf) (j : Nat) (v : Word) : (s.writeBufWord b j v).seq = s.seq := rfl
@[simp] theorem writeBufWord_ctrlIe (b : Buf) (j : Nat) (v : Word) : (s.writeBufWord b j v).ctrlIe = s.ctrlIe := rfl
@[simp] theorem writeBufWord_done (b : Buf) (j : Nat) (v : Word) : (s.writeBufWord b j v).done = s.done := rfl
@[simp] theorem writeBufWord_matched (b : Buf) (j : Nat) (v : Word) : (s.writeBufWord b j v).matched = s.matched := rfl
@[simp] theorem writeBufWord_unavail (b : Buf) (j : Nat) (v : Word) : (s.writeBufWord b j v).unavail = s.unavail := rfl
@[simp] theorem writeBufWord_err (b : Buf) (j : Nat) (v : Word) : (s.writeBufWord b j v).err = s.err := rfl
@[simp] theorem writeBufWord_werr (b : Buf) (j : Nat) (v : Word) : (s.writeBufWord b j v).werr = s.werr := rfl
@[simp] theorem writeBufWord_lop (b : Buf) (j : Nat) (v : Word) : (s.writeBufWord b j v).lop = s.lop := rfl
@[simp] theorem writeBufWord_pcfgEn (b : Buf) (j : Nat) (v : Word) : (s.writeBufWord b j v).pcfgEn = s.pcfgEn := rfl
@[simp] theorem writeBufWord_pcfgDsize (b : Buf) (j : Nat) (v : Word) : (s.writeBufWord b j v).pcfgDsize = s.pcfgDsize := rfl
@[simp] theorem writeBufWord_blen (b : Buf) (j : Nat) (v : Word) : (s.writeBufWord b j v).blen = s.blen := rfl
@[simp] theorem writeBufWord_tlen (b : Buf) (j : Nat) (v : Word) : (s.writeBufWord b j v).tlen = s.tlen := rfl
@[simp] theorem writeBufWord_dlen (b : Buf) (j : Nat) (v : Word) : (s.writeBufWord b j v).dlen = s.dlen := rfl
@[simp] theorem writeBufWord_window (b : Buf) (j : Nat) (v : Word) : (s.writeBufWord b j v).window = s.window := rfl
@[simp] theorem writeBufWord_cntLo (b : Buf) (j : Nat) (v : Word) : (s.writeBufWord b j v).cntLo = s.cntLo := rfl
@[simp] theorem writeBufWord_cntHi (b : Buf) (j : Nat) (v : Word) : (s.writeBufWord b j v).cntHi = s.cntHi := rfl
@[simp] theorem writeBufWord_cand0 (b : Buf) (j : Nat) (v : Word) : (s.writeBufWord b j v).cand0 = s.cand0 := rfl
@[simp] theorem writeBufWord_cand1 (b : Buf) (j : Nat) (v : Word) : (s.writeBufWord b j v).cand1 = s.cand1 := rfl
@[simp] theorem writeBufWord_clen (b : Buf) (j : Nat) (v : Word) : (s.writeBufWord b j v).clen = s.clen := rfl
@[simp] theorem writeBufWord_trunc (b : Buf) (j : Nat) (v : Word) : (s.writeBufWord b j v).trunc = s.trunc := rfl
@[simp] theorem writeBufWord_cval (b : Buf) (j : Nat) (v : Word) : (s.writeBufWord b j v).cval = s.cval := rfl
@[simp] theorem writeBufWord_code0 (b : Buf) (j : Nat) (v : Word) : (s.writeBufWord b j v).code0 = s.code0 := rfl
@[simp] theorem writeBufWord_code1 (b : Buf) (j : Nat) (v : Word) : (s.writeBufWord b j v).code1 = s.code1 := rfl
@[simp] theorem writeBufWord_nowLo (b : Buf) (j : Nat) (v : Word) : (s.writeBufWord b j v).nowLo = s.nowLo := rfl
@[simp] theorem writeBufWord_nowHi (b : Buf) (j : Nat) (v : Word) : (s.writeBufWord b j v).nowHi = s.nowHi := rfl
@[simp] theorem writeBufWord_mem (b : Buf) (j : Nat) (v : Word) : (s.writeBufWord b j v).mem = s.mem.store (b.base + 4 * j) (bytesOfWord v) := rfl
@[simp] theorem writeBufWord_key (b : Buf) (j : Nat) (v : Word) : (s.writeBufWord b j v).key = s.key := rfl
@[simp] theorem writeBufWord_klen (b : Buf) (j : Nat) (v : Word) : (s.writeBufWord b j v).klen = s.klen := rfl
@[simp] theorem writeBufWord_ctx (b : Buf) (j : Nat) (v : Word) : (s.writeBufWord b j v).ctx = s.ctx := rfl
@[simp] theorem writeBufWord_turns (b : Buf) (j : Nat) (v : Word) : (s.writeBufWord b j v).turns = s.turns := rfl
@[simp] theorem writeBufWord_inputs (b : Buf) (j : Nat) (v : Word) : (s.writeBufWord b j v).inputs = s.inputs := rfl
@[simp] theorem writeBufWord_hmacPoints (b : Buf) (j : Nat) (v : Word) : (s.writeBufWord b j v).hmacPoints = s.hmacPoints := rfl
@[simp] theorem writeBufWord_draws (b : Buf) (j : Nat) (v : Word) : (s.writeBufWord b j v).draws = s.draws := rfl
@[simp] theorem writeBufWord_epoch (b : Buf) (j : Nat) (v : Word) : (s.writeBufWord b j v).epoch = s.epoch := rfl
@[simp] theorem writeBufWord_response (b : Buf) (j : Nat) (v : Word) : (s.writeBufWord b j v).response = s.response := rfl
@[simp] theorem writeBufWord_requests (b : Buf) (j : Nat) (v : Word) : (s.writeBufWord b j v).requests = s.requests := rfl

/-! ### setCode -/

@[simp] theorem setCode_seq (t : BitVec 31) : (s.setCode t).seq = s.seq := rfl
@[simp] theorem setCode_ctrlIe (t : BitVec 31) : (s.setCode t).ctrlIe = s.ctrlIe := rfl
@[simp] theorem setCode_done (t : BitVec 31) : (s.setCode t).done = s.done := rfl
@[simp] theorem setCode_matched (t : BitVec 31) : (s.setCode t).matched = s.matched := rfl
@[simp] theorem setCode_unavail (t : BitVec 31) : (s.setCode t).unavail = s.unavail := rfl
@[simp] theorem setCode_err (t : BitVec 31) : (s.setCode t).err = s.err := rfl
@[simp] theorem setCode_werr (t : BitVec 31) : (s.setCode t).werr = s.werr := rfl
@[simp] theorem setCode_lop (t : BitVec 31) : (s.setCode t).lop = s.lop := rfl
@[simp] theorem setCode_pcfgEn (t : BitVec 31) : (s.setCode t).pcfgEn = s.pcfgEn := rfl
@[simp] theorem setCode_pcfgDsize (t : BitVec 31) : (s.setCode t).pcfgDsize = s.pcfgDsize := rfl
@[simp] theorem setCode_blen (t : BitVec 31) : (s.setCode t).blen = s.blen := rfl
@[simp] theorem setCode_tlen (t : BitVec 31) : (s.setCode t).tlen = s.tlen := rfl
@[simp] theorem setCode_dlen (t : BitVec 31) : (s.setCode t).dlen = s.dlen := rfl
@[simp] theorem setCode_window (t : BitVec 31) : (s.setCode t).window = s.window := rfl
@[simp] theorem setCode_cntLo (t : BitVec 31) : (s.setCode t).cntLo = s.cntLo := rfl
@[simp] theorem setCode_cntHi (t : BitVec 31) : (s.setCode t).cntHi = s.cntHi := rfl
@[simp] theorem setCode_cand0 (t : BitVec 31) : (s.setCode t).cand0 = s.cand0 := rfl
@[simp] theorem setCode_cand1 (t : BitVec 31) : (s.setCode t).cand1 = s.cand1 := rfl
@[simp] theorem setCode_clen (t : BitVec 31) : (s.setCode t).clen = s.clen := rfl
@[simp] theorem setCode_trunc (t : BitVec 31) : (s.setCode t).trunc = t := rfl
@[simp] theorem setCode_cval (t : BitVec 31) : (s.setCode t).cval = BitVec.ofNat 20 (codeValue t) := rfl
@[simp] theorem setCode_code0 (t : BitVec 31) : (s.setCode t).code0 = digitChar (codeValue t) 3 ++ digitChar (codeValue t) 2 ++ digitChar (codeValue t) 1 ++ digitChar (codeValue t) 0 := rfl
@[simp] theorem setCode_code1 (t : BitVec 31) : (s.setCode t).code1 = digitChar (codeValue t) 5 ++ digitChar (codeValue t) 4 := rfl
@[simp] theorem setCode_nowLo (t : BitVec 31) : (s.setCode t).nowLo = s.nowLo := rfl
@[simp] theorem setCode_nowHi (t : BitVec 31) : (s.setCode t).nowHi = s.nowHi := rfl
@[simp] theorem setCode_mem (t : BitVec 31) : (s.setCode t).mem = s.mem := rfl
@[simp] theorem setCode_key (t : BitVec 31) : (s.setCode t).key = s.key := rfl
@[simp] theorem setCode_klen (t : BitVec 31) : (s.setCode t).klen = s.klen := rfl
@[simp] theorem setCode_ctx (t : BitVec 31) : (s.setCode t).ctx = s.ctx := rfl
@[simp] theorem setCode_turns (t : BitVec 31) : (s.setCode t).turns = s.turns := rfl
@[simp] theorem setCode_inputs (t : BitVec 31) : (s.setCode t).inputs = s.inputs := rfl
@[simp] theorem setCode_hmacPoints (t : BitVec 31) : (s.setCode t).hmacPoints = s.hmacPoints := rfl
@[simp] theorem setCode_draws (t : BitVec 31) : (s.setCode t).draws = s.draws := rfl
@[simp] theorem setCode_epoch (t : BitVec 31) : (s.setCode t).epoch = s.epoch := rfl
@[simp] theorem setCode_response (t : BitVec 31) : (s.setCode t).response = s.response := rfl
@[simp] theorem setCode_requests (t : BitVec 31) : (s.setCode t).requests = s.requests := rfl

/-! ### respond -/

@[simp] theorem respond_seq (r : BusResponse) : (s.respond r).seq = s.seq := rfl
@[simp] theorem respond_ctrlIe (r : BusResponse) : (s.respond r).ctrlIe = s.ctrlIe := rfl
@[simp] theorem respond_done (r : BusResponse) : (s.respond r).done = s.done := rfl
@[simp] theorem respond_matched (r : BusResponse) : (s.respond r).matched = s.matched := rfl
@[simp] theorem respond_unavail (r : BusResponse) : (s.respond r).unavail = s.unavail := rfl
@[simp] theorem respond_err (r : BusResponse) : (s.respond r).err = s.err := rfl
@[simp] theorem respond_werr (r : BusResponse) : (s.respond r).werr = s.werr := rfl
@[simp] theorem respond_lop (r : BusResponse) : (s.respond r).lop = s.lop := rfl
@[simp] theorem respond_pcfgEn (r : BusResponse) : (s.respond r).pcfgEn = s.pcfgEn := rfl
@[simp] theorem respond_pcfgDsize (r : BusResponse) : (s.respond r).pcfgDsize = s.pcfgDsize := rfl
@[simp] theorem respond_blen (r : BusResponse) : (s.respond r).blen = s.blen := rfl
@[simp] theorem respond_tlen (r : BusResponse) : (s.respond r).tlen = s.tlen := rfl
@[simp] theorem respond_dlen (r : BusResponse) : (s.respond r).dlen = s.dlen := rfl
@[simp] theorem respond_window (r : BusResponse) : (s.respond r).window = s.window := rfl
@[simp] theorem respond_cntLo (r : BusResponse) : (s.respond r).cntLo = s.cntLo := rfl
@[simp] theorem respond_cntHi (r : BusResponse) : (s.respond r).cntHi = s.cntHi := rfl
@[simp] theorem respond_cand0 (r : BusResponse) : (s.respond r).cand0 = s.cand0 := rfl
@[simp] theorem respond_cand1 (r : BusResponse) : (s.respond r).cand1 = s.cand1 := rfl
@[simp] theorem respond_clen (r : BusResponse) : (s.respond r).clen = s.clen := rfl
@[simp] theorem respond_trunc (r : BusResponse) : (s.respond r).trunc = s.trunc := rfl
@[simp] theorem respond_cval (r : BusResponse) : (s.respond r).cval = s.cval := rfl
@[simp] theorem respond_code0 (r : BusResponse) : (s.respond r).code0 = s.code0 := rfl
@[simp] theorem respond_code1 (r : BusResponse) : (s.respond r).code1 = s.code1 := rfl
@[simp] theorem respond_nowLo (r : BusResponse) : (s.respond r).nowLo = s.nowLo := rfl
@[simp] theorem respond_nowHi (r : BusResponse) : (s.respond r).nowHi = s.nowHi := rfl
@[simp] theorem respond_mem (r : BusResponse) : (s.respond r).mem = s.mem := rfl
@[simp] theorem respond_key (r : BusResponse) : (s.respond r).key = s.key := rfl
@[simp] theorem respond_klen (r : BusResponse) : (s.respond r).klen = s.klen := rfl
@[simp] theorem respond_ctx (r : BusResponse) : (s.respond r).ctx = s.ctx := rfl
@[simp] theorem respond_turns (r : BusResponse) : (s.respond r).turns = s.turns := rfl
@[simp] theorem respond_inputs (r : BusResponse) : (s.respond r).inputs = s.inputs := rfl
@[simp] theorem respond_hmacPoints (r : BusResponse) : (s.respond r).hmacPoints = s.hmacPoints := rfl
@[simp] theorem respond_draws (r : BusResponse) : (s.respond r).draws = s.draws := rfl
@[simp] theorem respond_epoch (r : BusResponse) : (s.respond r).epoch = s.epoch := rfl
@[simp] theorem respond_response (r : BusResponse) : (s.respond r).response = some r := rfl
@[simp] theorem respond_requests (r : BusResponse) : (s.respond r).requests = s.requests := rfl

/-! ### lockedWrite -/

@[simp] theorem lockedWrite_seq : (s.lockedWrite).seq = s.seq := rfl
@[simp] theorem lockedWrite_ctrlIe : (s.lockedWrite).ctrlIe = s.ctrlIe := rfl
@[simp] theorem lockedWrite_done : (s.lockedWrite).done = s.done := rfl
@[simp] theorem lockedWrite_matched : (s.lockedWrite).matched = s.matched := rfl
@[simp] theorem lockedWrite_unavail : (s.lockedWrite).unavail = s.unavail := rfl
@[simp] theorem lockedWrite_err : (s.lockedWrite).err = s.err := rfl
@[simp] theorem lockedWrite_werr : (s.lockedWrite).werr = true := rfl
@[simp] theorem lockedWrite_lop : (s.lockedWrite).lop = s.lop := rfl
@[simp] theorem lockedWrite_pcfgEn : (s.lockedWrite).pcfgEn = s.pcfgEn := rfl
@[simp] theorem lockedWrite_pcfgDsize : (s.lockedWrite).pcfgDsize = s.pcfgDsize := rfl
@[simp] theorem lockedWrite_blen : (s.lockedWrite).blen = s.blen := rfl
@[simp] theorem lockedWrite_tlen : (s.lockedWrite).tlen = s.tlen := rfl
@[simp] theorem lockedWrite_dlen : (s.lockedWrite).dlen = s.dlen := rfl
@[simp] theorem lockedWrite_window : (s.lockedWrite).window = s.window := rfl
@[simp] theorem lockedWrite_cntLo : (s.lockedWrite).cntLo = s.cntLo := rfl
@[simp] theorem lockedWrite_cntHi : (s.lockedWrite).cntHi = s.cntHi := rfl
@[simp] theorem lockedWrite_cand0 : (s.lockedWrite).cand0 = s.cand0 := rfl
@[simp] theorem lockedWrite_cand1 : (s.lockedWrite).cand1 = s.cand1 := rfl
@[simp] theorem lockedWrite_clen : (s.lockedWrite).clen = s.clen := rfl
@[simp] theorem lockedWrite_trunc : (s.lockedWrite).trunc = s.trunc := rfl
@[simp] theorem lockedWrite_cval : (s.lockedWrite).cval = s.cval := rfl
@[simp] theorem lockedWrite_code0 : (s.lockedWrite).code0 = s.code0 := rfl
@[simp] theorem lockedWrite_code1 : (s.lockedWrite).code1 = s.code1 := rfl
@[simp] theorem lockedWrite_nowLo : (s.lockedWrite).nowLo = s.nowLo := rfl
@[simp] theorem lockedWrite_nowHi : (s.lockedWrite).nowHi = s.nowHi := rfl
@[simp] theorem lockedWrite_mem : (s.lockedWrite).mem = s.mem := rfl
@[simp] theorem lockedWrite_key : (s.lockedWrite).key = s.key := rfl
@[simp] theorem lockedWrite_klen : (s.lockedWrite).klen = s.klen := rfl
@[simp] theorem lockedWrite_ctx : (s.lockedWrite).ctx = s.ctx := rfl
@[simp] theorem lockedWrite_turns : (s.lockedWrite).turns = s.turns := rfl
@[simp] theorem lockedWrite_inputs : (s.lockedWrite).inputs = s.inputs := rfl
@[simp] theorem lockedWrite_hmacPoints : (s.lockedWrite).hmacPoints = s.hmacPoints := rfl
@[simp] theorem lockedWrite_draws : (s.lockedWrite).draws = s.draws := rfl
@[simp] theorem lockedWrite_epoch : (s.lockedWrite).epoch = s.epoch := rfl
@[simp] theorem lockedWrite_response : (s.lockedWrite).response = s.response := rfl
@[simp] theorem lockedWrite_requests : (s.lockedWrite).requests = s.requests := rfl

/-! ### acknowledge -/

@[simp] theorem acknowledge_seq (v : Word) : (s.acknowledge v).seq = s.seq := rfl
@[simp] theorem acknowledge_ctrlIe (v : Word) : (s.acknowledge v).ctrlIe = s.ctrlIe := rfl
@[simp] theorem acknowledge_done (v : Word) : (s.acknowledge v).done = (s.done && !v.getLsbD 1) := rfl
@[simp] theorem acknowledge_matched (v : Word) : (s.acknowledge v).matched = s.matched := rfl
@[simp] theorem acknowledge_unavail (v : Word) : (s.acknowledge v).unavail = s.unavail := rfl
@[simp] theorem acknowledge_err (v : Word) : (s.acknowledge v).err = s.err := rfl
@[simp] theorem acknowledge_werr (v : Word) : (s.acknowledge v).werr = (s.werr && !v.getLsbD 8) := rfl
@[simp] theorem acknowledge_lop (v : Word) : (s.acknowledge v).lop = s.lop := rfl
@[simp] theorem acknowledge_pcfgEn (v : Word) : (s.acknowledge v).pcfgEn = s.pcfgEn := rfl
@[simp] theorem acknowledge_pcfgDsize (v : Word) : (s.acknowledge v).pcfgDsize = s.pcfgDsize := rfl
@[simp] theorem acknowledge_blen (v : Word) : (s.acknowledge v).blen = s.blen := rfl
@[simp] theorem acknowledge_tlen (v : Word) : (s.acknowledge v).tlen = s.tlen := rfl
@[simp] theorem acknowledge_dlen (v : Word) : (s.acknowledge v).dlen = s.dlen := rfl
@[simp] theorem acknowledge_window (v : Word) : (s.acknowledge v).window = s.window := rfl
@[simp] theorem acknowledge_cntLo (v : Word) : (s.acknowledge v).cntLo = s.cntLo := rfl
@[simp] theorem acknowledge_cntHi (v : Word) : (s.acknowledge v).cntHi = s.cntHi := rfl
@[simp] theorem acknowledge_cand0 (v : Word) : (s.acknowledge v).cand0 = s.cand0 := rfl
@[simp] theorem acknowledge_cand1 (v : Word) : (s.acknowledge v).cand1 = s.cand1 := rfl
@[simp] theorem acknowledge_clen (v : Word) : (s.acknowledge v).clen = s.clen := rfl
@[simp] theorem acknowledge_trunc (v : Word) : (s.acknowledge v).trunc = s.trunc := rfl
@[simp] theorem acknowledge_cval (v : Word) : (s.acknowledge v).cval = s.cval := rfl
@[simp] theorem acknowledge_code0 (v : Word) : (s.acknowledge v).code0 = s.code0 := rfl
@[simp] theorem acknowledge_code1 (v : Word) : (s.acknowledge v).code1 = s.code1 := rfl
@[simp] theorem acknowledge_nowLo (v : Word) : (s.acknowledge v).nowLo = s.nowLo := rfl
@[simp] theorem acknowledge_nowHi (v : Word) : (s.acknowledge v).nowHi = s.nowHi := rfl
@[simp] theorem acknowledge_mem (v : Word) : (s.acknowledge v).mem = s.mem := rfl
@[simp] theorem acknowledge_key (v : Word) : (s.acknowledge v).key = s.key := rfl
@[simp] theorem acknowledge_klen (v : Word) : (s.acknowledge v).klen = s.klen := rfl
@[simp] theorem acknowledge_ctx (v : Word) : (s.acknowledge v).ctx = s.ctx := rfl
@[simp] theorem acknowledge_turns (v : Word) : (s.acknowledge v).turns = s.turns := rfl
@[simp] theorem acknowledge_inputs (v : Word) : (s.acknowledge v).inputs = s.inputs := rfl
@[simp] theorem acknowledge_hmacPoints (v : Word) : (s.acknowledge v).hmacPoints = s.hmacPoints := rfl
@[simp] theorem acknowledge_draws (v : Word) : (s.acknowledge v).draws = s.draws := rfl
@[simp] theorem acknowledge_epoch (v : Word) : (s.acknowledge v).epoch = s.epoch := rfl
@[simp] theorem acknowledge_response (v : Word) : (s.acknowledge v).response = s.response := rfl
@[simp] theorem acknowledge_requests (v : Word) : (s.acknowledge v).requests = s.requests := rfl

/-! ### newStep -/

@[simp] theorem newStep_seq : (s.newStep).seq = s.seq := rfl
@[simp] theorem newStep_ctrlIe : (s.newStep).ctrlIe = s.ctrlIe := rfl
@[simp] theorem newStep_done : (s.newStep).done = s.done := rfl
@[simp] theorem newStep_matched : (s.newStep).matched = s.matched := rfl
@[simp] theorem newStep_unavail : (s.newStep).unavail = s.unavail := rfl
@[simp] theorem newStep_err : (s.newStep).err = s.err := rfl
@[simp] theorem newStep_werr : (s.newStep).werr = s.werr := rfl
@[simp] theorem newStep_lop : (s.newStep).lop = s.lop := rfl
@[simp] theorem newStep_pcfgEn : (s.newStep).pcfgEn = s.pcfgEn := rfl
@[simp] theorem newStep_pcfgDsize : (s.newStep).pcfgDsize = s.pcfgDsize := rfl
@[simp] theorem newStep_blen : (s.newStep).blen = s.blen := rfl
@[simp] theorem newStep_tlen : (s.newStep).tlen = s.tlen := rfl
@[simp] theorem newStep_dlen : (s.newStep).dlen = s.dlen := rfl
@[simp] theorem newStep_window : (s.newStep).window = s.window := rfl
@[simp] theorem newStep_cntLo : (s.newStep).cntLo = s.cntLo := rfl
@[simp] theorem newStep_cntHi : (s.newStep).cntHi = s.cntHi := rfl
@[simp] theorem newStep_cand0 : (s.newStep).cand0 = s.cand0 := rfl
@[simp] theorem newStep_cand1 : (s.newStep).cand1 = s.cand1 := rfl
@[simp] theorem newStep_clen : (s.newStep).clen = s.clen := rfl
@[simp] theorem newStep_trunc : (s.newStep).trunc = s.trunc := rfl
@[simp] theorem newStep_cval : (s.newStep).cval = s.cval := rfl
@[simp] theorem newStep_code0 : (s.newStep).code0 = s.code0 := rfl
@[simp] theorem newStep_code1 : (s.newStep).code1 = s.code1 := rfl
@[simp] theorem newStep_nowLo : (s.newStep).nowLo = s.nowLo := rfl
@[simp] theorem newStep_nowHi : (s.newStep).nowHi = s.nowHi := rfl
@[simp] theorem newStep_mem : (s.newStep).mem = s.mem := rfl
@[simp] theorem newStep_key : (s.newStep).key = s.key := rfl
@[simp] theorem newStep_klen : (s.newStep).klen = s.klen := rfl
@[simp] theorem newStep_ctx : (s.newStep).ctx = s.ctx := rfl
@[simp] theorem newStep_turns : (s.newStep).turns = s.turns := rfl
@[simp] theorem newStep_inputs : (s.newStep).inputs = s.inputs := rfl
@[simp] theorem newStep_hmacPoints : (s.newStep).hmacPoints = s.hmacPoints := rfl
@[simp] theorem newStep_draws : (s.newStep).draws = s.draws := rfl
@[simp] theorem newStep_epoch : (s.newStep).epoch = s.epoch := rfl
@[simp] theorem newStep_response : (s.newStep).response = none := rfl
@[simp] theorem newStep_requests : (s.newStep).requests = [] := rfl

/-! ### latchTime -/

@[simp] theorem latchTime_seq : (s.latchTime).seq = s.seq := rfl
@[simp] theorem latchTime_ctrlIe : (s.latchTime).ctrlIe = s.ctrlIe := rfl
@[simp] theorem latchTime_done : (s.latchTime).done = s.done := rfl
@[simp] theorem latchTime_matched : (s.latchTime).matched = s.matched := rfl
@[simp] theorem latchTime_unavail : (s.latchTime).unavail = s.unavail := rfl
@[simp] theorem latchTime_err : (s.latchTime).err = s.err := rfl
@[simp] theorem latchTime_werr : (s.latchTime).werr = s.werr := rfl
@[simp] theorem latchTime_lop : (s.latchTime).lop = s.lop := rfl
@[simp] theorem latchTime_pcfgEn : (s.latchTime).pcfgEn = s.pcfgEn := rfl
@[simp] theorem latchTime_pcfgDsize : (s.latchTime).pcfgDsize = s.pcfgDsize := rfl
@[simp] theorem latchTime_blen : (s.latchTime).blen = s.blen := rfl
@[simp] theorem latchTime_tlen : (s.latchTime).tlen = s.tlen := rfl
@[simp] theorem latchTime_dlen : (s.latchTime).dlen = s.dlen := rfl
@[simp] theorem latchTime_window : (s.latchTime).window = s.window := rfl
@[simp] theorem latchTime_cntLo : (s.latchTime).cntLo = s.cntLo := rfl
@[simp] theorem latchTime_cntHi : (s.latchTime).cntHi = s.cntHi := rfl
@[simp] theorem latchTime_cand0 : (s.latchTime).cand0 = s.cand0 := rfl
@[simp] theorem latchTime_cand1 : (s.latchTime).cand1 = s.cand1 := rfl
@[simp] theorem latchTime_clen : (s.latchTime).clen = s.clen := rfl
@[simp] theorem latchTime_trunc : (s.latchTime).trunc = s.trunc := rfl
@[simp] theorem latchTime_cval : (s.latchTime).cval = s.cval := rfl
@[simp] theorem latchTime_code0 : (s.latchTime).code0 = s.code0 := rfl
@[simp] theorem latchTime_code1 : (s.latchTime).code1 = s.code1 := rfl
@[simp] theorem latchTime_nowLo : (s.latchTime).nowLo = s.sampleTime.1.extractLsb' 0 32 := rfl
@[simp] theorem latchTime_nowHi : (s.latchTime).nowHi = s.sampleTime.1.extractLsb' 32 32 := rfl
@[simp] theorem latchTime_mem : (s.latchTime).mem = s.mem := rfl
@[simp] theorem latchTime_key : (s.latchTime).key = s.key := rfl
@[simp] theorem latchTime_klen : (s.latchTime).klen = s.klen := rfl
@[simp] theorem latchTime_ctx : (s.latchTime).ctx = { s.ctx with now := s.sampleTime.1 } := rfl
@[simp] theorem latchTime_turns : (s.latchTime).turns = s.turns := rfl
@[simp] theorem latchTime_inputs : (s.latchTime).inputs = s.inputs := rfl
@[simp] theorem latchTime_hmacPoints : (s.latchTime).hmacPoints = s.hmacPoints := rfl
@[simp] theorem latchTime_draws : (s.latchTime).draws = s.sampleTime.2 := rfl
@[simp] theorem latchTime_epoch : (s.latchTime).epoch = s.epoch := rfl
@[simp] theorem latchTime_response : (s.latchTime).response = s.response := rfl
@[simp] theorem latchTime_requests : (s.latchTime).requests = s.requests := rfl

/-! ### takeTurn -/

@[simp] theorem takeTurn_seq (t : Turn) (r : List Turn) : (s.takeTurn t r).seq = s.seq := rfl
@[simp] theorem takeTurn_ctrlIe (t : Turn) (r : List Turn) : (s.takeTurn t r).ctrlIe = s.ctrlIe := rfl
@[simp] theorem takeTurn_done (t : Turn) (r : List Turn) : (s.takeTurn t r).done = s.done := rfl
@[simp] theorem takeTurn_matched (t : Turn) (r : List Turn) : (s.takeTurn t r).matched = s.matched := rfl
@[simp] theorem takeTurn_unavail (t : Turn) (r : List Turn) : (s.takeTurn t r).unavail = s.unavail := rfl
@[simp] theorem takeTurn_err (t : Turn) (r : List Turn) : (s.takeTurn t r).err = s.err := rfl
@[simp] theorem takeTurn_werr (t : Turn) (r : List Turn) : (s.takeTurn t r).werr = s.werr := rfl
@[simp] theorem takeTurn_lop (t : Turn) (r : List Turn) : (s.takeTurn t r).lop = s.lop := rfl
@[simp] theorem takeTurn_pcfgEn (t : Turn) (r : List Turn) : (s.takeTurn t r).pcfgEn = s.pcfgEn := rfl
@[simp] theorem takeTurn_pcfgDsize (t : Turn) (r : List Turn) : (s.takeTurn t r).pcfgDsize = s.pcfgDsize := rfl
@[simp] theorem takeTurn_blen (t : Turn) (r : List Turn) : (s.takeTurn t r).blen = s.blen := rfl
@[simp] theorem takeTurn_tlen (t : Turn) (r : List Turn) : (s.takeTurn t r).tlen = s.tlen := rfl
@[simp] theorem takeTurn_dlen (t : Turn) (r : List Turn) : (s.takeTurn t r).dlen = s.dlen := rfl
@[simp] theorem takeTurn_window (t : Turn) (r : List Turn) : (s.takeTurn t r).window = s.window := rfl
@[simp] theorem takeTurn_cntLo (t : Turn) (r : List Turn) : (s.takeTurn t r).cntLo = s.cntLo := rfl
@[simp] theorem takeTurn_cntHi (t : Turn) (r : List Turn) : (s.takeTurn t r).cntHi = s.cntHi := rfl
@[simp] theorem takeTurn_cand0 (t : Turn) (r : List Turn) : (s.takeTurn t r).cand0 = s.cand0 := rfl
@[simp] theorem takeTurn_cand1 (t : Turn) (r : List Turn) : (s.takeTurn t r).cand1 = s.cand1 := rfl
@[simp] theorem takeTurn_clen (t : Turn) (r : List Turn) : (s.takeTurn t r).clen = s.clen := rfl
@[simp] theorem takeTurn_trunc (t : Turn) (r : List Turn) : (s.takeTurn t r).trunc = s.trunc := rfl
@[simp] theorem takeTurn_cval (t : Turn) (r : List Turn) : (s.takeTurn t r).cval = s.cval := rfl
@[simp] theorem takeTurn_code0 (t : Turn) (r : List Turn) : (s.takeTurn t r).code0 = s.code0 := rfl
@[simp] theorem takeTurn_code1 (t : Turn) (r : List Turn) : (s.takeTurn t r).code1 = s.code1 := rfl
@[simp] theorem takeTurn_nowLo (t : Turn) (r : List Turn) : (s.takeTurn t r).nowLo = s.nowLo := rfl
@[simp] theorem takeTurn_nowHi (t : Turn) (r : List Turn) : (s.takeTurn t r).nowHi = s.nowHi := rfl
@[simp] theorem takeTurn_mem (t : Turn) (r : List Turn) : (s.takeTurn t r).mem = s.mem := rfl
@[simp] theorem takeTurn_key (t : Turn) (r : List Turn) : (s.takeTurn t r).key = s.key := rfl
@[simp] theorem takeTurn_klen (t : Turn) (r : List Turn) : (s.takeTurn t r).klen = s.klen := rfl
@[simp] theorem takeTurn_ctx (t : Turn) (r : List Turn) : (s.takeTurn t r).ctx = s.ctx := rfl
@[simp] theorem takeTurn_turns (t : Turn) (r : List Turn) : (s.takeTurn t r).turns = r := rfl
@[simp] theorem takeTurn_inputs (t : Turn) (r : List Turn) : (s.takeTurn t r).inputs = t.inputs := rfl
@[simp] theorem takeTurn_hmacPoints (t : Turn) (r : List Turn) : (s.takeTurn t r).hmacPoints = s.hmacPoints := rfl
@[simp] theorem takeTurn_draws (t : Turn) (r : List Turn) : (s.takeTurn t r).draws = s.draws := rfl
@[simp] theorem takeTurn_epoch (t : Turn) (r : List Turn) : (s.takeTurn t r).epoch = s.epoch := rfl
@[simp] theorem takeTurn_response (t : Turn) (r : List Turn) : (s.takeTurn t r).response = none := rfl
@[simp] theorem takeTurn_requests (t : Turn) (r : List Turn) : (s.takeTurn t r).requests = [] := rfl

/-! ### Readings that depend on the memory alone -/

theorem readByte_congr {s t : State} (hm : s.mem = t.mem) (he : s.epoch = t.epoch) (a : Nat) :
    s.readByte a = t.readByte a := by
  simp [readByte, hm, he]

theorem readBuf_of_mem_eq {s t : State} (hm : s.mem = t.mem) (he : s.epoch = t.epoch) (b : Buf) (n : Nat) :
    s.readBuf b n = t.readBuf b n := by
  simp [readBuf, readByte, hm, he]

@[simp] theorem raiseError_eq (c : ErrCode) : s.raiseError c = s.complete c false false := rfl

@[simp] theorem unavailable_eq : s.unavailable = s.complete .noError false true := rfl

theorem busy_iff : s.busy = true ↔ s.seq ≠ .idle := by simp [busy]

theorem busy_false_iff : s.busy = false ↔ s.seq = .idle := by simp [busy]

/-- KEY[0..KLEN-1] right after the key was written is that key (R45). -/
@[simp] theorem keyBytes_setKey (k : List Byte) : (s.setKey k).keyBytes = k := by
  simp [keyBytes]

end Sys2Proof.Machine.State
end

