-- ==== Sys2Proof/Laws/Exec.lean ====
section
/-! SUPPORT. What `exec` and the shared operations of the commands can do, each said once. -/

namespace Sys2Proof.Machine

/-! ### The accept checks -/

theorem blenLegal_iff (n : BitVec 8) : blenLegal n = true ↔ n.toNat ≤ 160 := by simp [blenLegal]

theorem blenLegal_false_iff (n : BitVec 8) : blenLegal n = false ↔ n.toNat > 160 := by simp [blenLegal]

theorem tlenLegal_iff (n : BitVec 9) : tlenLegal n = true ↔ n.toNat ≤ 256 := by simp [tlenLegal]

theorem tlenLegal_false_iff (n : BitVec 9) : tlenLegal n = false ↔ n.toNat > 256 := by simp [tlenLegal]

theorem digestLenLegal_iff (n : BitVec 7) : digestLenLegal n = true ↔ 1 ≤ n.toNat ∧ n.toNat ≤ 64 := by
  simp [digestLenLegal]

theorem digestLenLegal_false_iff (n : BitVec 7) : digestLenLegal n = false ↔ n.toNat = 0 ∨ n.toNat > 64 := by
  rw [← Bool.not_eq_true, digestLenLegal_iff]
  omega

/-! ### The two parts of a command -/

/-- The accept part of each command's rule. -/
def acceptPart : Instr → State → State
  | .encode => acceptEncode
  | .decode => acceptDecode
  | .generate => acceptGenerate
  | .validate => acceptValidate
  | .truncate => acceptTruncate
  | .clear => acceptClear

/-- The completion part of each command's rule. -/
def completionPart : Instr → State → State
  | .encode => completeEncode
  | .decode => completeDecode
  | .generate => completeGenerate
  | .validate => completeValidate
  | .truncate => completeTruncate
  | .clear => completeClear

/-- Every meaning is its two parts over one shared operation. -/
theorem exec_eq_runCommand (i : Instr) (s : State) :
    exec i s = s.runCommand i (acceptPart i) (completionPart i) := by
  cases i <;> rfl

theorem exec_of_idle {s : State} (h : s.seq = .idle) (i : Instr) :
    exec i s = .next (acceptPart i ((s.acceptRecord (opcode i)).latchOp (opcode i))) := by
  rw [exec_eq_runCommand, State.runCommand, h]

theorem exec_of_run {s : State} {i : Instr} (h : s.seq = .run i) : exec i s = .next (completionPart i s) := by
  rw [exec_eq_runCommand, State.runCommand, h]
  simp

theorem exec_of_run_other {s : State} {i j : Instr} (h : s.seq = .run j) (hne : j ≠ i) :
    exec i s = .next s.lockedWrite := by
  rw [exec_eq_runCommand, State.runCommand, h]
  simp [hne]

/-- A command never faults and is never refused. -/
theorem exec_answers_next (i : Instr) (s : State) : ∃ t, exec i s = .next t := by
  rcases hs : s.seq with _ | j
  · exact ⟨_, exec_of_idle hs i⟩
  · by_cases hj : j = i
    · exact ⟨_, exec_of_run (hj ▸ hs)⟩
    · exact ⟨_, exec_of_run_other hs hj⟩

/-- The context a legal accept latches (R46), and VALIDATE's time sample (R131). -/
def latched : Instr → State → State
  | .generate, s => s.latchDsize
  | .validate, s => s.latchTime.latchDsize.latchWindow
  | .encode, s => s
  | .decode, s => s
  | .truncate, s => s
  | .clear, s => s

/-- The state whose checks an accept makes: VALIDATE's time sample comes first (R153 item 2). -/
def sampled : Instr → State → State
  | .validate, s => s.latchTime
  | .encode, s => s
  | .decode, s => s
  | .generate, s => s
  | .truncate, s => s
  | .clear, s => s

/-- Everything an accept part can do: start the command with its operands legal, report one error, or report
'unavailable'. -/
theorem acceptPart_cases (i : Instr) (s : State) :
    (acceptPart i s = (latched i s).start i ∧ ((latched i s).start i).operandsLegal i) ∨
    (∃ e, e ≠ .noError ∧ acceptPart i s = (sampled i s).complete e false false) ∨
    (s.pcfgEn = false ∧ (i = .generate ∨ i = .validate) ∧
      acceptPart i s = (sampled i s).complete .noError false true) := by
  cases i
  case encode =>
    cases h : blenLegal s.blen
    · exact .inr (.inl ⟨.badBlen, by simp, by simp [acceptPart, acceptEncode, h, sampled]⟩)
    · exact .inl ⟨by simp [acceptPart, acceptEncode, h, latched], (blenLegal_iff _).mp h⟩
  case decode =>
    cases h : tlenLegal s.tlen
    · exact .inr (.inl ⟨.badTlen, by simp, by simp [acceptPart, acceptDecode, h, sampled]⟩)
    · exact .inl ⟨by simp [acceptPart, acceptDecode, h, latched], (tlenLegal_iff _).mp h⟩
  case truncate =>
    cases h : digestLenLegal s.dlen
    · exact .inr (.inl ⟨.badDsize, by simp, by simp [acceptPart, acceptTruncate, h, sampled]⟩)
    · exact .inl ⟨by simp [acceptPart, acceptTruncate, h, latched], (digestLenLegal_iff _).mp h⟩
  case clear => exact .inl ⟨rfl, trivial⟩
  case generate =>
    cases he : s.pcfgEn
    · exact .inr (.inr ⟨rfl, .inl rfl, by simp [acceptPart, acceptGenerate, he, sampled]⟩)
    · cases hd : digestLenLegal s.pcfgDsize
      · exact .inr (.inl ⟨.badDsize, by simp, by simp [acceptPart, acceptGenerate, he, hd, sampled]⟩)
      · cases ht : tlenLegal s.tlen
        · exact .inr (.inl ⟨.badTlen, by simp, by simp [acceptPart, acceptGenerate, he, hd, ht, sampled]⟩)
        · have h1 := (digestLenLegal_iff _).mp hd
          exact .inl ⟨by simp [acceptPart, acceptGenerate, he, hd, ht, latched],
            by simp [State.operandsLegal, latched, he, (tlenLegal_iff _).mp ht, h1]⟩
  case validate =>
    cases he : s.pcfgEn
    · exact .inr (.inr ⟨rfl, .inr rfl, by simp [acceptPart, acceptValidate, he, sampled]⟩)
    · cases hd : digestLenLegal s.pcfgDsize
      · exact .inr (.inl ⟨.badDsize, by simp, by simp [acceptPart, acceptValidate, he, hd, sampled]⟩)
      · cases ht : tlenLegal s.tlen
        · exact .inr (.inl ⟨.badTlen, by simp, by simp [acceptPart, acceptValidate, he, hd, ht, sampled]⟩)
        · have h1 := (digestLenLegal_iff _).mp hd
          refine .inl ⟨by simp [acceptPart, acceptValidate, he, hd, ht, latched], ?_⟩
          simp only [State.operandsLegal, latched, State.start_pcfgEn, State.start_tlen, State.start_ctx,
            State.start_pcfgDsize, State.start_window, State.start_nowHi, State.start_nowLo,
            State.latchWindow_pcfgEn, State.latchWindow_tlen, State.latchWindow_ctx, State.latchWindow_pcfgDsize,
            State.latchWindow_window, State.latchWindow_nowHi, State.latchWindow_nowLo, State.latchDsize_pcfgEn,
            State.latchDsize_tlen, State.latchDsize_ctx, State.latchDsize_pcfgDsize, State.latchDsize_window,
            State.latchDsize_nowHi, State.latchDsize_nowLo, State.latchTime_pcfgEn, State.latchTime_tlen,
            State.latchTime_ctx, State.latchTime_pcfgDsize, State.latchTime_window, State.latchTime_nowHi,
            State.latchTime_nowLo]
          refine ⟨he, (tlenLegal_iff _).mp ht, h1.1, h1.2, trivial, trivial, ?_⟩
          apply BitVec.eq_of_getLsbD_eq
          intro j hj
          simp only [BitVec.getLsbD_append, BitVec.getLsbD_extractLsb']
          by_cases hj2 : j < 32
          · simp [hj2]
          · have : 32 + (j - 32) = j := by omega
            simp [hj2, show j - 32 < 32 by omega, this]

/-! ### The provider call -/

/-- Everything a provider call can do (R121, R52, U4). -/
theorem hcall_spec (s : State) (msg : List Byte) (n : Nat) :
    ∃ (d : List Byte) (k : Nat),
      s.hcall msg n = (d, s.afterCall msg n d k) ∧
      d.length = n ∧
      (s.answerKept s.keyBytes msg n = true → d = s.hmac s.keyBytes msg ∧ k = s.draws) ∧
      (s.answerKept s.keyBytes msg n = false →
        d = (List.range n).map (Config.freeDigestByte s.draws) ∧ k = s.draws + 1) := by
  by_cases h : s.answerKept s.keyBytes msg n = true
  · refine ⟨_, _, by simp only [State.hcall, State.hmacCall, h, if_true]; rfl, ?_, by simp, by simp [h]⟩
    simp only [State.answerKept, Bool.and_eq_true, decide_eq_true_eq] at h
    exact h.2
  · refine ⟨_, _, by simp only [State.hcall, State.hmacCall, h]; rfl, by simp, by simp [h], by simp⟩

/-- The provider call under the contract (R52). -/
theorem hcall_of_kept {s : State} {msg : List Byte} {n : Nat} (hc : s.inputs.conduct = .keepsContract)
    (hl : (s.hmac s.keyBytes msg).length = n) :
    s.hcall msg n = (s.hmac s.keyBytes msg, s.afterCall msg n (s.hmac s.keyBytes msg) s.draws) := by
  have hk : s.answerKept s.keyBytes msg n = true := by simp [State.answerKept, hc, hl]
  obtain ⟨d, k, h, -, h2, -⟩ := hcall_spec s msg n
  obtain ⟨rfl, rfl⟩ := h2 hk
  exact h

/-- DG reads back the digest a provider call recorded (R121). -/
theorem readBuf_dg_afterCall (s : State) (msg : List Byte) (n : Nat) {d : List Byte} (k : Nat) (h : d.length ≤ 64) :
    (s.afterCall msg n d k).readBuf .dg d.length = d :=
  (State.readBuf_of_mem_eq (t := s.writeBuf .dg d) rfl rfl .dg d.length).trans (readBuf_writeBuf s .dg d h)

/-- A byte outside DG[0..|d|-1] is as before a provider call (R121). -/
theorem readByte_afterCall_outside (s : State) (msg : List Byte) (n : Nat) {d : List Byte} (k : Nat) {a : Nat}
    (h : ¬ (0x100 ≤ a ∧ a < 0x100 + d.length)) : (s.afterCall msg n d k).readByte a = s.readByte a :=
  (State.readByte_congr (t := s.writeBuf .dg d) rfl rfl a).trans (readByte_writeBuf_outside s .dg d h)

@[simp] theorem keyBytes_afterCall (s : State) (msg : List Byte) (n : Nat) (d : List Byte) (k : Nat) :
    (s.afterCall msg n d k).keyBytes = s.keyBytes := rfl

@[simp] theorem candStr_afterCall (s : State) (msg : List Byte) (n : Nat) (d : List Byte) (k : Nat) :
    (s.afterCall msg n d k).candStr = s.candStr := rfl

@[simp] theorem hmac_setKey (s : State) (k key msg : List Byte) : (s.setKey k).hmac key msg = s.hmac key msg := rfl

@[simp] theorem hmac_congr_setCode (s : State) (t : BitVec 31) (key msg : List Byte) :
    (s.setCode t).hmac key msg = s.hmac key msg := rfl

@[simp] theorem keyBytes_setCode (s : State) (t : BitVec 31) : (s.setCode t).keyBytes = s.keyBytes := rfl

@[simp] theorem candByte_setCode (s : State) (t : BitVec 31) (i : Nat) : (s.setCode t).candByte i = s.candByte i := rfl

@[simp] theorem candStr_setCode (s : State) (t : BitVec 31) : (s.setCode t).candStr = s.candStr := rfl

/-! ### The code string -/

theorem codeValue_lt (t : BitVec 31) : codeValue t < 1000000 := Nat.mod_lt _ (by omega)

@[simp] theorem toNat_cval_of_codeValue (t : BitVec 31) : (BitVec.ofNat 20 (codeValue t)).toNat = codeValue t := by
  have := codeValue_lt t
  simp only [BitVec.toNat_ofNat]
  omega

/-- What SETCODE records is the six characters of the code value (R123). -/
theorem codeStr_setCode (s : State) (t : BitVec 31) : (s.setCode t).codeStr = codeChars (codeValue t) := by
  simp only [State.codeStr, codeChars]
  apply List.map_congr_left
  intro i hi
  have hi' := List.mem_range.mp hi
  simp only [State.codeChar, State.setCode_code0, State.setCode_code1]
  generalize digitChar (codeValue t) = f
  interval_cases i <;>
    simp [extract_byte0, extract_byte1, extract_byte2, extract_byte3, extract_half0, extract_half1]

/-- SETCODE leaves the code of its value (R123). -/
theorem holdsCode_setCode (s : State) (t : BitVec 31) : (s.setCode t).holdsCode t :=
  ⟨rfl, toNat_cval_of_codeValue t, codeStr_setCode s t⟩

/-- What keeps the four code registers keeps the code they hold. -/
theorem holdsCode_of_keepsCodeOf {s t : State} {v : BitVec 31} (hk : t.keepsCodeOf s) (h : s.holdsCode v) :
    t.holdsCode v := by
  obtain ⟨ht, hv, h0, h1⟩ := hk
  have hc : t.codeChar = s.codeChar := by funext i; simp [State.codeChar, h0, h1]
  exact ⟨ht.trans h.1, hv ▸ h.2.1, by simpa only [State.codeStr, hc] using h.2.2⟩

end Sys2Proof.Machine
end

