-- ==== Sys2Proof/Laws/Completion.lean ====
section
/-! SUPPORT. Everything a completion can do, said once for the six commands. -/

namespace Sys2Proof.Machine

/-- How TRUNC, CVAL and CODE may change: not at all, by SETCODE of a truncated value, or to zero. -/
def CodeStep (s u : State) : Prop :=
  (u.trunc = s.trunc ∧ u.cval = s.cval ∧ u.code0 = s.code0 ∧ u.code1 = s.code1) ∨
  (∃ (w : State) (t : BitVec 31), u.trunc = (w.setCode t).trunc ∧ u.cval = (w.setCode t).cval ∧
    u.code0 = (w.setCode t).code0 ∧ u.code1 = (w.setCode t).code1) ∨
  (u.trunc = 0 ∧ u.cval = 0 ∧ u.code0 = 0 ∧ u.code1 = 0)

/-- What the work of a completion, before its `complete`, leaves unchanged in every command. -/
structure WorkFrame (s u : State) : Prop where
  seq : u.seq = s.seq
  ctrlIe : u.ctrlIe = s.ctrlIe
  werr : u.werr = s.werr
  lop : u.lop = s.lop
  pcfgEn : u.pcfgEn = s.pcfgEn
  pcfgDsize : u.pcfgDsize = s.pcfgDsize
  window : u.window = s.window
  cntLo : u.cntLo = s.cntLo
  cntHi : u.cntHi = s.cntHi
  nowLo : u.nowLo = s.nowLo
  nowHi : u.nowHi = s.nowHi
  ctx : u.ctx = s.ctx
  turns : u.turns = s.turns
  inputs : u.inputs = s.inputs
  hmacPoints : u.hmacPoints = s.hmacPoints
  epoch : u.epoch = s.epoch
  response : u.response = s.response
  memWf : s.mem.wf → u.mem.wf
  code : CodeStep s u

theorem WorkFrame.refl (s : State) : WorkFrame s s :=
  ⟨rfl, rfl, rfl, rfl, rfl, rfl, rfl, rfl, rfl, rfl, rfl, rfl, rfl, rfl, rfl, rfl, rfl, id, .inl ⟨rfl, rfl, rfl, rfl⟩⟩

theorem CodeStep.trans {s u v : State} (h1 : CodeStep s u) (h2 : CodeStep u v) : CodeStep s v := by
  rcases h2 with ⟨a, b, c, d⟩ | h2 | h2
  · rcases h1 with ⟨a', b', c', d'⟩ | ⟨w, t, a', b', c', d'⟩ | ⟨a', b', c', d'⟩
    · exact .inl ⟨a.trans a', b.trans b', c.trans c', d.trans d'⟩
    · exact .inr (.inl ⟨w, t, a.trans a', b.trans b', c.trans c', d.trans d'⟩)
    · exact .inr (.inr ⟨a.trans a', b.trans b', c.trans c', d.trans d'⟩)
  · exact .inr (.inl h2)
  · exact .inr (.inr h2)

theorem WorkFrame.trans {s u v : State} (h1 : WorkFrame s u) (h2 : WorkFrame u v) : WorkFrame s v where
  seq := h2.seq.trans h1.seq
  ctrlIe := h2.ctrlIe.trans h1.ctrlIe
  werr := h2.werr.trans h1.werr
  lop := h2.lop.trans h1.lop
  pcfgEn := h2.pcfgEn.trans h1.pcfgEn
  pcfgDsize := h2.pcfgDsize.trans h1.pcfgDsize
  window := h2.window.trans h1.window
  cntLo := h2.cntLo.trans h1.cntLo
  cntHi := h2.cntHi.trans h1.cntHi
  nowLo := h2.nowLo.trans h1.nowLo
  nowHi := h2.nowHi.trans h1.nowHi
  ctx := h2.ctx.trans h1.ctx
  turns := h2.turns.trans h1.turns
  inputs := h2.inputs.trans h1.inputs
  hmacPoints := h2.hmacPoints.trans h1.hmacPoints
  epoch := h2.epoch.trans h1.epoch
  response := h2.response.trans h1.response
  memWf := fun h => h2.memWf (h1.memWf h)
  code := h1.code.trans h2.code

/-- A state that differs from `s` only in its buffers, lengths, KEY, draws and requests. -/
theorem WorkFrame.ofUpdate (s : State) (mem : Memory) (blen : BitVec 8) (tlen : BitVec 9) (dlen : BitVec 7)
    (key : List Byte) (klen draws : Nat) (requests : List HmacRequest) (h : s.mem.wf → Memory.wf mem) :
    WorkFrame s { s with
      mem := mem, blen := blen, tlen := tlen, dlen := dlen, key := key, klen := klen, draws := draws
      requests := requests } :=
  ⟨rfl, rfl, rfl, rfl, rfl, rfl, rfl, rfl, rfl, rfl, rfl, rfl, rfl, rfl, rfl, rfl, rfl, h, .inl ⟨rfl, rfl, rfl, rfl⟩⟩

theorem WorkFrame.setCode (s : State) (t : BitVec 31) : WorkFrame s (s.setCode t) :=
  ⟨rfl, rfl, rfl, rfl, rfl, rfl, rfl, rfl, rfl, rfl, rfl, rfl, rfl, rfl, rfl, rfl, rfl, id,
    .inr (.inl ⟨s, t, rfl, rfl, rfl, rfl⟩)⟩

theorem WorkFrame.setKey (s : State) (k : List Byte) : WorkFrame s (s.setKey k) :=
  .ofUpdate s s.mem s.blen s.tlen s.dlen _ _ s.draws s.requests id

theorem WorkFrame.zeroRegs (s : State) : WorkFrame s s.zeroRegs :=
  ⟨rfl, rfl, rfl, rfl, rfl, rfl, rfl, rfl, rfl, rfl, rfl, rfl, rfl, rfl, rfl, rfl, rfl, id,
    .inr (.inr ⟨rfl, rfl, rfl, rfl⟩)⟩

theorem WorkFrame.writeBuf (s : State) (b : Buf) (bs : List Byte) : WorkFrame s (s.writeBuf b bs) :=
  .ofUpdate s _ s.blen s.tlen s.dlen s.key s.klen s.draws s.requests fun h => writeBuf_wf h b bs

/-- One provider call is work of a completion. -/
theorem WorkFrame.hcall (s : State) (msg : List Byte) (n : Nat) : WorkFrame s (s.hcall msg n).2 := by
  obtain ⟨d, k, h, -, -, -⟩ := hcall_spec s msg n
  rw [h]
  exact .ofUpdate s _ s.blen s.tlen _ s.key s.klen k _ fun hm => writeBuf_wf hm .dg d

/-- Everything the scan of VALIDATE can do, as one record. -/
theorem scanWindow_cases (s : State) (cs : List Int) :
    ∃ (u : State) (e : ErrCode) (m : Bool), scanWindow s cs = u.complete e m false ∧ WorkFrame s u ∧
      (e = .noError ∨ e = .truncRange) ∧ (m = true → e = .noError) := by
  induction cs generalizing s with
  | nil => exact ⟨s, .noError, false, rfl, .refl s, .inl rfl, by simp⟩
  | cons c cs ih =>
    have hf := WorkFrame.hcall s (be64 c) s.ctx.dsize.toNat
    simp only [scanWindow]
    split
    · exact ⟨_, .truncRange, false, rfl, hf, .inr rfl, by simp⟩
    · rename_i t _
      have hf2 := hf.trans (WorkFrame.setCode _ t)
      split
      · exact ⟨_, .noError, true, rfl, hf2, .inl rfl, by simp⟩
      · obtain ⟨u, e, m, h1, h2, h3, h4⟩ := ih ((s.hcall (be64 c) s.ctx.dsize.toNat).2.setCode t)
        exact ⟨u, e, m, h1, hf2.trans h2, h3, h4⟩

/-- VALIDATE with a window of at least one step has a counter to evaluate (R126). -/
theorem windowCounters_ne_nil {now : Int} {w : Nat} (h : 1 ≤ w) : windowCounters now w ≠ [] := by
  intro hn
  have := congrArg List.length hn
  simp only [windowCounters, List.length_map, List.length_range, List.length_nil, windowStart, windowEnd] at this
  rw [Int.fdiv_eq_ediv_of_nonneg _ (by omega), Int.fdiv_eq_ediv_of_nonneg _ (by omega)] at this
  omega

/-- VALIDATE with an empty window has no counter to evaluate (R131). -/
theorem windowCounters_zero (now : Int) : windowCounters now 0 = [] := by
  simp [windowCounters, windowStart, windowEnd]

/-- Everything a completion can do: nothing where the provider never answers what it is asked (U9), else its work and
then one `complete` (R152). -/
theorem completionPart_cases (i : Instr) (s : State) :
    (s.asksProvider i ∧ s.inputs.conduct = .silent ∧ completionPart i s = s) ∨
    (s.answered i ∧ ∃ (u : State) (e : ErrCode) (m : Bool), completionPart i s = u.complete e m false ∧
      WorkFrame s u ∧ (e = .noError ∨ e = .truncRange ∧ (i = .truncate ∨ i = .generate ∨ i = .validate)) ∧
      (m = true → i = .validate ∧ e = .noError)) := by
  cases i
  case encode =>
    exact .inr ⟨fun h => absurd h (by simp [State.asksProvider]), _, _, _, rfl,
      .ofUpdate s _ s.blen _ s.dlen s.key s.klen s.draws s.requests fun h => writeBuf_wf h .txt _,
      .inl rfl, by simp⟩
  case decode =>
    exact .inr ⟨fun h => absurd h (by simp [State.asksProvider]), _, _, _, rfl,
      .ofUpdate s _ _ s.tlen s.dlen s.key s.klen s.draws s.requests fun h => writeBuf_wf h .bin _,
      .inl rfl, by simp⟩
  case truncate =>
    refine .inr ⟨fun h => absurd h (by simp [State.asksProvider]), ?_⟩
    simp only [completionPart, completeTruncate]
    split
    · exact ⟨s, _, _, rfl, .refl s, .inr ⟨rfl, .inl trivial⟩, by simp⟩
    · exact ⟨_, _, _, rfl, .setCode s _, .inl rfl, by simp⟩
  case clear =>
    exact .inr ⟨fun h => absurd h (by simp [State.asksProvider]), _, _, _, rfl,
      (((WorkFrame.writeBuf s .bin _).trans (.writeBuf _ .txt _)).trans (.writeBuf _ .dg _)).trans (.zeroRegs _),
      .inl rfl, by simp⟩
  case generate =>
    by_cases hc : s.inputs.conduct = .silent
    · exact .inl ⟨trivial, hc, by simp [completionPart, completeGenerate, hc]⟩
    · refine .inr ⟨fun _ => hc, ?_⟩
      simp only [completionPart, completeGenerate, hc, if_false]
      have hf := (WorkFrame.setKey s (b32dec s.txtArg)).trans (.hcall _ (be64 s.cnt) s.ctx.dsize.toNat)
      split
      · exact ⟨_, _, _, rfl, hf, .inr ⟨rfl, .inr (.inl trivial)⟩, by simp⟩
      · exact ⟨_, _, _, rfl, hf.trans (.setCode _ _), .inl rfl, by simp⟩
  case validate =>
    simp only [completionPart, completeValidate]
    split
    · rename_i h
      refine .inl ⟨?_, h.1, rfl⟩
      show 1 ≤ s.ctx.w.toNat
      rcases Nat.eq_zero_or_pos s.ctx.w.toNat with h0 | h0
      · exact absurd (by rw [h0]; exact windowCounters_zero _) h.2
      · exact h0
    · rename_i h
      refine .inr ⟨fun ha hs => h ⟨hs, windowCounters_ne_nil ha⟩, ?_⟩
      obtain ⟨u, e, m, h1, h2, h3, h4⟩ :=
        scanWindow_cases (s.setKey (b32dec s.txtArg)) (windowCounters s.ctx.now.toInt s.ctx.w.toNat)
      exact ⟨u, e, m, h1, (WorkFrame.setKey s _).trans h2, h3.imp id fun h => ⟨h, .inr (.inr trivial)⟩,
        fun h => ⟨trivial, h4 h⟩⟩

end Sys2Proof.Machine
end

