-- ==== Sys2Proof/Laws/PerInstr.lean ====
section
/-! SUPPORT. Statements about every command as syntax, one lemma per constructor. -/

namespace Sys2Proof.Laws.Legal

/-- A command is well formed, its encoding is a legal CMD value (R82) and carries its OP (R80, R81). -/
def Statement (i : Instr) : Prop :=
  i.wellFormed = true ∧ CmdWord.legal (Sys2Proof.encode i) = true ∧ cmdOp (Sys2Proof.encode i) = opcode i

theorem encode : Statement .encode := ⟨rfl, rfl, rfl⟩

theorem decode : Statement .decode := ⟨rfl, rfl, rfl⟩

theorem generate : Statement .generate := ⟨rfl, rfl, rfl⟩

theorem validate : Statement .validate := ⟨rfl, rfl, rfl⟩

theorem truncate : Statement .truncate := ⟨rfl, rfl, rfl⟩

theorem clear : Statement .clear := ⟨rfl, rfl, rfl⟩

end Sys2Proof.Laws.Legal
end

