-- ==== Sys2Proof/Laws/Step.lean ====
section
/-! SUPPORT. What one step can do: the shape of `step`, and the cases of a bus write. -/

namespace Sys2Proof.Machine

/-- The action of the next step: the first turn's, or the sequencer's where no turn is left. -/
def State.nextAction (s : State) : Action :=
  match s.turns with
  | [] => .completion
  | t :: _ => t.action

/-- The state in which the next step's action is taken. -/
def State.begun (s : State) : State :=
  match s.turns with
  | [] => s.newStep
  | t :: rest => s.takeTurn t rest

theorem step_eq_act (s : State) : step s = s.begun.act s.nextAction := by
  rcases h : s.turns with _ | ⟨t, rest⟩
  · simp [step, State.begun, State.nextAction, h, State.act]
  · simp [step, State.begun, State.nextAction, h]

/-- Beginning a step touches the model's own fields only. -/
theorem begun_eq (s : State) :
    s.begun = { s with turns := s.begun.turns, inputs := s.begun.inputs, response := none, requests := [] } := by
  rcases h : s.turns with _ | ⟨t, rest⟩
  · simp [State.begun, h, State.newStep]
  · simp [State.begun, h, State.takeTurn, State.newStep]

theorem nextAction_eq {s : State} {a : Action} (h : s.nextAction = a) (ha : a ≠ .completion) :
    ∃ (t : Turn) (rest : List Turn), s.turns = t :: rest ∧ t.action = a := by
  rcases ht : s.turns with _ | ⟨t, rest⟩
  · simp only [State.nextAction, ht] at h
    exact absurd h.symm ha
  · simp only [State.nextAction, ht] at h
    exact ⟨t, rest, rfl, h⟩

/-- Where a buffer word stands (R67). -/
theorem locate_word {off : Offset} {b : Buf} {j : Nat} (h : locate off = .word b j) :
    off.toNat = b.base + 4 * j ∧ 4 * j + 4 ≤ b.cap := by
  simp only [locate] at h
  split at h
  · simp at h
  · split at h
    · simp only [Loc.word.injEq] at h
      obtain ⟨rfl, rfl⟩ := h
      simp only [Buf.base, Buf.cap]
      omega
    · split at h
      · simp only [Loc.word.injEq] at h
        obtain ⟨rfl, rfl⟩ := h
        simp only [Buf.base, Buf.cap]
        omega
      · split at h
        · simp only [Loc.word.injEq] at h
          obtain ⟨rfl, rfl⟩ := h
          simp only [Buf.base, Buf.cap]
          omega
        · split at h <;> simp at h

/-- The register at a located offset stands at that offset (R21). -/
theorem locate_reg {off : Offset} {r : Reg} (h : locate off = .reg r) : off = r.offset := by
  simp only [locate] at h
  split at h
  · simp at h
  · rename_i hm
    split at h
    · simp at h
    · split at h
      · simp at h
      · split at h
        · simp at h
        · split at h
          · rename_i r' hr
            simp only [Loc.reg.injEq] at h
            subst h
            have hk : off.toNat = 4 * (off.toNat / 4) := by omega
            apply BitVec.eq_of_toNat_eq
            rw [hk]
            generalize off.toNat / 4 = k at hr
            unfold regOfWord at hr
            split at hr <;> simp at hr <;> subst hr <;> rfl
          · simp at h

/-- The cases of a bus read (R61, R63, R64, R66). -/
theorem busRead_cases (s : State) (off : Offset) :
    ((locate off).answers = false ∧ s.busRead off = s.respond (.read .error 0#32)) ∨
    ((locate off).answers = true ∧ s.inFlightWrites (locate off) = true ∧
      s.busRead off = { s with draws := s.draws + 1 }.respond (.read .ok (Config.freeWord s.draws))) ∨
    ((locate off).answers = true ∧ s.inFlightWrites (locate off) = false ∧
      s.busRead off = s.respond (.read .ok (s.stored (locate off)))) := by
  simp only [State.busRead]
  rcases (locate off).answers with _ | _
  · exact .inl ⟨rfl, rfl⟩
  · rcases s.inFlightWrites (locate off) with _ | _
    · exact .inr (.inr ⟨rfl, rfl, rfl⟩)
    · exact .inr (.inl ⟨rfl, rfl, rfl⟩)

/-- The cases of a bus write (R62-R65, R151). -/
theorem busWrite_cases (s : State) (off : Offset) (v : Word) (t : State) (h : s.busWrite off v = .next t) :
    ((locate off).answers = false ∧ t = s.respond (.write .error)) ∨
    (s.busy = true ∧ (locate off).locked = true ∧ t = (s.respond (.write .ok)).lockedWrite) ∨
    (off = 0x00C#12 ∧ s.seq = .idle ∧ ∃ i, decode v = .ok i ∧ exec i (s.respond (.write .ok)) = .next t) ∨
    (off = 0x00C#12 ∧ s.seq = .idle ∧ (∃ r, decode v = .reject r) ∧ t = (s.respond (.write .ok)).acceptIllegal v) ∨
    (∃ r, off = r.offset ∧ r ≠ .cmd ∧ (s.busy = true → r.locked = false) ∧
      t = (s.respond (.write .ok)).regWrite r v) ∨
    (∃ b j, off.toNat = b.base + 4 * j ∧ 4 * j + 4 ≤ b.cap ∧ s.seq = .idle ∧
      t = (s.respond (.write .ok)).writeBufWord b j v) := by
  unfold State.busWrite at h
  simp only at h
  split at h
  · split at h
    · rename_i _ hl
      simp only [Bool.and_eq_true] at hl
      injection h with h
      exact .inr (.inl ⟨hl.1, hl.2, h.symm⟩)
    · rename_i ha hl
      have hidle : (locate off).locked = true → s.seq = .idle := by
        intro hk
        rw [hk, Bool.and_true, Bool.not_eq_true] at hl
        exact (State.busy_false_iff s).mp hl
      split at h
      · rename_i hc
        have ho : off = 0x00C#12 := locate_reg hc
        have hi : s.seq = .idle := hidle (by rw [hc]; rfl)
        unfold State.accept at h
        split at h
        · rename_i i hd
          exact .inr (.inr (.inl ⟨ho, hi, i, hd, h⟩))
        · rename_i r hd
          injection h with h
          exact .inr (.inr (.inr (.inl ⟨ho, hi, ⟨r, hd⟩, h.symm⟩)))
      · rename_i r hne hr
        injection h with h
        refine .inr (.inr (.inr (.inr (.inl ⟨r, locate_reg hr, hne, fun hb => ?_, h.symm⟩))))
        rw [hr, hb, Bool.true_and, Bool.not_eq_true] at hl
        exact hl
      · rename_i b j hw
        injection h with h
        have := locate_word hw
        exact .inr (.inr (.inr (.inr (.inr ⟨b, j, this.1, this.2, hidle (by rw [hw]; rfl), h.symm⟩))))
      · rename_i hm
        rw [hm] at ha
        simp [Loc.answers] at ha
      · rename_i hm
        rw [hm] at ha
        simp [Loc.answers] at ha
  · rename_i ha
    injection h with h
    exact .inl ⟨by simpa using ha, h.symm⟩

end Sys2Proof.Machine
end

