-- ==== Sys2Proof/Tests/Slice0.lean ====
section
/-! SUPPORT. Tests on fixed values, their expected results the vectors of spec/95_test_vectors.md (V-..), and for every
statement with hypotheses a concrete input that meets them (test_witness_..). -/

namespace Sys2Proof.Tests

open Sys2Proof Sys2Proof.Machine

/-! ### Helpers -/

/-- The next state of an outcome. -/
def nextOf : Host.Outcome State Fault Refusal → Option State
  | .next t => some t
  | .fault _ => none
  | .refused _ => none

/-- A word-aligned run of bus words stored in a buffer from word `j` up. -/
def putWords (b : Buf) : Nat → List Word → State → State
  | _, [], s => s
  | j, v :: vs, s => putWords b (j + 1) vs (s.writeBufWord b j v)

/-- The words of a buffer from word `j` up. -/
def words (s : State) (b : Buf) (j n : Nat) : List Word := (List.range n).map fun k => s.readBufWord b (j + k)

/-- One turn with the inputs of `s`. -/
def turn (s : State) (a : Action) : Turn := { inputs := s.inputs, action := a }

/-- T32 of V-E10, as its eight words. -/
def t32 : List Word :=
  [0x445A4547, 0x56424E47, 0x54335947, 0x514A4F51, 0x445A4547, 0x56424E47, 0x54335947, 0x514A4F51]

/-- K20, the ASCII digits 12345678901234567890. -/
def k20 : List Byte :=
  [0x31, 0x32, 0x33, 0x34, 0x35, 0x36, 0x37, 0x38, 0x39, 0x30, 0x31, 0x32, 0x33, 0x34, 0x35, 0x36, 0x37, 0x38, 0x39, 0x30]

/-- HMAC-SHA1 of K20 at counters -3 (sent mod 2^64), -2, 0, 1 (GK2; the digests of 0 and 1 stand in V-L2). -/
def sha1Points : List HmacPoint :=
  [{ key := k20, msg := [0xFF, 0xFF, 0xFF, 0xFF, 0xFF, 0xFF, 0xFF, 0xFD]
     digest := [0x2b, 0x5d, 0xfc, 0xd8, 0x3c, 0xa8, 0x9f, 0x94, 0x3d, 0xbd, 0x90, 0x9d, 0xf0, 0x36, 0x69, 0x26, 0xa7,
       0x13, 0x56, 0x11] },
   { key := k20, msg := [0xFF, 0xFF, 0xFF, 0xFF, 0xFF, 0xFF, 0xFF, 0xFE]
     digest := [0x35, 0x11, 0x45, 0xcc, 0xdc, 0x07, 0x4c, 0xaa, 0x7f, 0xee, 0xc5, 0xd7, 0x3e, 0x91, 0xe7, 0xfb, 0xad,
       0xfb, 0x32, 0xb3] },
   { key := k20, msg := [0, 0, 0, 0, 0, 0, 0, 0]
     digest := [0xcc, 0x93, 0xcf, 0x18, 0x50, 0x8d, 0x94, 0x93, 0x4c, 0x64, 0xb6, 0x5d, 0x8b, 0xa7, 0x66, 0x7f, 0xb7,
       0xcd, 0xe4, 0xb0] },
   { key := k20, msg := [0, 0, 0, 0, 0, 0, 0, 1]
     digest := [0x75, 0xa4, 0x8a, 0x19, 0xd4, 0xcb, 0xe1, 0x00, 0x64, 0x4e, 0x8a, 0xc1, 0x39, 0x7e, 0xea, 0x74, 0x7a,
       0x2d, 0x33, 0xab] }]

/-- T32 and SHA1-20, as the vectors of GENERATE and VALIDATE set up. -/
def sha1 : State :=
  { putWords .txt 0 t32 State.reset with tlen := 32, pcfgEn := true, pcfgDsize := 20, hmacPoints := sha1Points }

/-- VALIDATE in flight, sampled at `now`. -/
def validating (s : State) (now : BitVec 64) : State :=
  { s with
    seq := .run .validate, lop := 4, nowHi := now.extractLsb' 32 32, nowLo := now.extractLsb' 0 32
    ctx := { op := 4, dsize := s.pcfgDsize, w := s.window, now := now } }

/-! ### Well-formedness (R82): a word that each check refuses -/

theorem test_illFormed_reservedBits : CmdWord.rsvdZero 0x00000011#32 = false ∧ CmdWord.legal 0x80000004#32 = false := by
  decide

theorem test_illFormed_reservedOpcode :
    CmdWord.opDefined 0x00000000#32 = false ∧ CmdWord.opDefined 0x00000007#32 = false ∧
      CmdWord.legal 0x0000000F#32 = false := by decide

/-! ### Decoding: the words of R81's table, bit by bit -/

theorem test_decode_codec :
    decode 0b00000000000000000000000000000001#32 = .ok .encode ∧
      decode 0b00000000000000000000000000000010#32 = .ok .decode := by decide

theorem test_decode_engine :
    decode 0b00000000000000000000000000000011#32 = .ok .generate ∧
      decode 0b00000000000000000000000000000100#32 = .ok .validate ∧
      decode 0b00000000000000000000000000000101#32 = .ok .truncate := by decide

theorem test_decode_control : decode 0b00000000000000000000000000000110#32 = .ok .clear := by decide

theorem test_decode_illegal :
    decode 0x00000000#32 = .reject .reservedOpcode ∧ decode 0x00000007#32 = .reject .reservedOpcode ∧
      decode 0x00000011#32 = .reject .reservedBitsSet := by decide

theorem test_decodeTableWord :
    [1, 2, 3, 4, 5, 6].map (decodeTableWord 32) =
        [some .encode, some .decode, some .generate, some .validate, some .truncate, some .clear] ∧
      decodeTableWord 32 0x11 = none ∧ decodeTableWord 32 0 = none := by decide

/-- The placed word is what the next step after reset accepts; R171: CLEAR can run at once. -/
theorem test_withFetchWord :
    (nextOf (step (State.reset.withFetchWord 32 6))).map (fun t => (t.seq, t.lop, t.statusWord)) =
      some (.run .clear, 0x6#4, 0x00006001#32) := by decide

/-! ### ENCODE and DECODE -/

/-- V-E3, V-E14: remainder 2 pads with 3 characters; TXT[8..11] keeps its characters. -/
theorem test_encode_remainder2 :
    (nextOf (exec .encode
        { putWords .txt 2 [0x5A5A5A5A] (putWords .bin 0 [0x00006F66] State.reset) with
          seq := .run .encode, lop := 1, blen := 2 })).map
      (fun t => (words t .txt 0 3, t.tlen, t.statusWord)) =
      some ([0x51585A4D, 0x3D3D3D41, 0x5A5A5A5A], 8, 0x00001002) := by decide

/-- V-X6. -/
theorem test_encode_badBlen :
    (nextOf (exec .encode { State.reset with blen := 200 })).map (fun t => (t.statusWord, t.tlen, t.mem)) =
      some (0x00001022, 0, []) := by decide

/-- V-D16: padding in the middle is skipped and does not reset the bit buffer; the last byte is a tail of 2 bits. -/
theorem test_decode_twoPaddedBlocks :
    (nextOf (exec .decode
        { putWords .txt 0 [0x57585A4D, 0x3D3D3D36, 0x57585A4D, 0x3D3D3D36] State.reset with
          seq := .run .decode, lop := 2, tlen := 16 })).map
      (fun t => (t.readBuf .bin 7, t.blen, t.statusWord)) =
      some ([0x66, 0x6F, 0x6F, 0x33, 0x37, 0xB7, 0x80], 7, 0x00002002) := by decide

/-- V-D10: lowercase letters are skipped. V-D6: the tail byte of one leftover bit. -/
theorem test_decode_lowercase :
    (nextOf (exec .decode
        { putWords .txt 0 [0x37373737, 0x00000037] State.reset with seq := .run .decode, lop := 2, tlen := 5 })).map
      (fun t => (t.readBuf .bin 4, t.blen)) = some ([0xFF, 0xFF, 0xFF, 0x80], 4) ∧
    (nextOf (exec .decode
        { putWords .txt 0 [0x7773626A, 0x70643379] State.reset with seq := .run .decode, lop := 2, tlen := 8 })).map
      (fun t => (t.readBuf .bin 1, t.blen)) = some ([0xD8], 1) := by decide

/-! ### TRUNCATE -/

/-- V-T1: the RFC 4226 digest. -/
theorem test_truncate_rfc4226 :
    (nextOf (exec .truncate
        { putWords .dg 0 [0x6998861F, 0x16CA020E, 0xEF508561, 0x8EDA197F, 0x5A555B94] State.reset with
          seq := .run .truncate, lop := 5, dlen := 20 })).map
      (fun t => (t.trunc, t.cval, t.regRead .code0, t.regRead .code1, t.statusWord)) =
      some (0x50EF7F19, 0xD51D9, 0x39323738, 0x00003132, 0x00005002) := by decide

/-- V-T7: offset 15 in 18 bytes. -/
theorem test_truncate_outOfRange :
    (nextOf (exec .truncate
        { putWords .dg 4 [0x00000F00] State.reset with seq := .run .truncate, lop := 5, dlen := 18 })).map
      (fun t => (t.trunc, t.code0, t.statusWord)) = some (0, 0, 0x00005052) := by decide

/-! ### GENERATE -/

/-- V-L2, V-G4: counter 1. -/
theorem test_generate_counter1 :
    (nextOf (exec .generate
        { sha1 with seq := .run .generate, lop := 3, cntLo := 1, ctx := { op := 3, dsize := 20, w := 0, now := 0 } })).map
      (fun t => (words t .dg 0 5 ++ [t.regRead .dlen, t.regRead .trunc, t.regRead .code0, t.statusWord])) =
      some [0x198AA475, 0x00E1CBD4, 0xC18A4E64, 0x74EA7E39, 0xAB332D7A, 20, 0x41397EEA, 0x30373832, 0x00003002] := by decide

/-- V-G12: the unavailable check comes before the length check. -/
theorem test_generate_unavailable :
    (nextOf (exec .generate { State.reset with tlen := 300 })).map (fun t => t.statusWord) = some 0x0000300A := by decide

/-! ### VALIDATE -/

/-- V-W3: counter 2 is the excluded end of the window at time 59. -/
theorem test_validate_halfOpen :
    (nextOf (exec .validate
        (validating { sha1 with window := 1, cand0 := 0x31393533, cand1 := 0x3235, clen := 6 } 59))).map
      (fun t => (t.statusWord, t.cval, t.requests.length)) = some (0x00004002, 287082, 2) := by decide

/-- V-W8: negative counters, floor toward minus infinity, a match at the second call. -/
theorem test_validate_negative :
    (nextOf (exec .validate
        (validating { sha1 with window := 1, cand0 := 0x32383834, cand1 := 0x3430, clen := 6 } (-31)))).map
      (fun t => (t.statusWord, t.cval, t.requests.map fun r => r.msg.getD 7 0)) =
      some (0x00004006, 488204, [0xFD, 0xFE]) := by decide

/-! ### CLEAR -/

/-- V-C1, with WERR set. -/
theorem test_clear :
    (nextOf (exec .clear
        { sha1 with seq := .run .clear, lop := 6, werr := true, blen := 3, cand0 := 1, clen := 6, trunc := 7 })).map
      (fun t => (t.regRead .tlen, t.regRead .trunc, t.regRead .clen, t.statusWord)) =
      some (0, 0, 0, 0x00006102) := by decide

set_option maxRecDepth 20000 in
/-- V-C1: the buffers are zeroed to their last byte; CTRL, PCFG, WINDOW and CNT are unchanged. -/
theorem test_clear_buffers :
    (nextOf (exec .clear { sha1 with seq := .run .clear, ctrlIe := true, cntHi := 9 })).map
      (fun t => ([t.readByte 0x400, t.readByte 0x4FF, t.readByte 0x29F, t.readByte 0x13F],
        t.ctrlIe, t.regRead .pcfg, t.window, t.cntHi)) = some ([0, 0, 0, 0], true, 0x00001401, 5, 9) := by decide

/-! ### Errors, bus and reset -/

/-- V-X3, V-X5: RSVD set; no time sample. -/
theorem test_illegalCmd :
    (nextOf (State.reset.busWrite 0x00C#12 0x00000011#32)).map (fun t => t.statusWord) = some 0x00001012 ∧
    (nextOf (State.busWrite { State.reset with inputs := { time := some 7, conduct := .keepsContract } } 0x00C#12
      0x80000004#32)).map (fun t => (t.statusWord, t.nowLo)) = some (0x00004012, 0) := by decide

/-- V-X8, V-X9. -/
theorem test_writeWhileBusy :
    (nextOf (State.busWrite { sha1 with seq := .run .generate, lop := 3 } 0x01C#12 0#32)).map
        (fun t => (t.statusWord, t.tlen)) = some (0x00003101, 32) ∧
    (nextOf (State.busWrite { sha1 with done := true, werr := true, lop := 3 } 0x010#12 0x00000100#32)).map
        (fun t => t.statusWord) = some 0x00003002 := by decide

/-- V-B4, V-B5, V-B6: misaligned and unmapped offsets. -/
theorem test_badOffsets :
    ([0x002#12, 0x054#12, 0x140#12, 0x2A0#12, 0x500#12, 0xFFC#12].map fun o => (State.reset.busRead o).response) =
      List.replicate 6 (some (.read .error 0)) ∧
    (nextOf (State.reset.busWrite 0x500#12 1#32)).map (fun t => (t.response, t.werr)) =
      some (some (.write .error), false) := by decide

/-- V-B8, V-B9, V-B10, V-B13. -/
theorem test_readBack :
    [(0x01C#12, 0xFFFFFFFF#32), (0x014#12, 0xFFFFFFFF#32), (0x038#12, 0x00000016#32), (0x200#12, 0x44332211#32)].map
        (fun (p : Offset × Word) => (nextOf (State.reset.busWrite p.1 p.2)).bind fun t => (t.busRead p.1).response) =
      [some (.read .ok 0x000001FF), some (.read .ok 0x00007F01), some (.read .ok 0x00000006),
        some (.read .ok 0x44332211)] := by decide

/-- R21: STATUS and WINDOW after reset; R60, R157: every offset stands at BASE, the line is IRQ_LINE. -/
theorem test_resetValues :
    State.reset.statusWord = 0 ∧ State.reset.regRead .window = 5 ∧ State.reset.irq = false ∧
      State.reset.irqLine Config.irqLine = false ∧ physicalAddress 0 = Config.base := by
  refine ⟨by decide, by decide, by decide, by simp [State.irqLine, State.irq, State.reset], rfl⟩

/-- The expansions of R87 that P1 and P2 show: a byte string as padded little-endian words, and a counter. -/
theorem test_scriptExpansion :
    (HostLine.wrBytes .bin 0 [0x48, 0x65, 0x6C, 0x6C, 0x6F, 0x21]).actions =
        [.busWrite 0x200#12 0x6C6C6548#32, .busWrite 0x204#12 0x0000216F#32] ∧
      (HostLine.wrCnt 1).actions = [.busWrite 0x028#12 1#32, .busWrite 0x02C#12 0#32] ∧
      (HostLine.cmd .generate).actions = [.busWrite 0x00C#12 3#32] := by decide

/-! ### Witnesses: steps and accepts -/

/-- A bus write of `v` to CMD as the first turn, another turn after it. -/
def writing (s : State) (off : Offset) (v : Word) : State :=
  { s with turns := [turn s (.busWrite off v), turn s .completion] }

/-- The command `i` in flight with LOP as its accept left it. -/
def running (s : State) (i : Instr) : State := { s with seq := .run i, lop := opcode i }

/-- A CMD write of CLEAR while IDLE; a read, and a register write, as the first turn. -/
theorem test_witness_StepRunsDecodedCommand :
    let s := writing State.reset 0x00C#12 0x00000006#32
    let r := { State.reset with turns := [turn State.reset (.busRead 0x024#12), turn State.reset .completion] }
    let w := writing State.reset 0x018#12 7#32
    (s.turns = turn State.reset (.busWrite 0x00C#12 6#32) :: [turn State.reset .completion] ∧ s.seq = .idle ∧
      decode 0x00000006#32 = .ok .clear) ∧
    (nextOf (step r)).map (fun t => (t.response, t.turns.length)) = some (some (.read .ok 5), 1) ∧
    (nextOf (step w)).map (fun t => (t.response, t.blen, t.turns.length)) = some (some (.write .ok), 7, 1) := by decide

theorem test_witness_StepCompletesCommandInFlight :
    let s := running State.reset .truncate
    let u := { s with turns := [turn s .completion] }
    s.seq = .run .truncate ∧ s.turns = [] ∧ u.seq = .run .truncate ∧
      u.turns = turn s .completion :: [] ∧ (turn s .completion).action = .completion := by decide

theorem test_witness_PendingCompletionHappens :
    (running sha1 .generate).turns = [] ∧ (running sha1 .generate).seq = .run .generate ∧
      (running sha1 .generate).answered .generate := by
  refine ⟨by decide, by decide, fun _ => by decide⟩

theorem test_witness_IllegalCmdCompletesAtAccept :
    let s := writing State.reset 0x00C#12 0x00000007#32
    s.turns = turn State.reset (.busWrite 0x00C#12 7#32) :: [turn State.reset .completion] ∧ s.seq = .idle ∧
      CmdWord.legal 0x00000007#32 = false ∧ CmdWord.legal 0x00000011#32 = false := by decide

/-- The last legal lengths: BLEN 160, TLEN 256, DLEN 1 and 64. -/
theorem test_witness_BufferCommandsStart :
    let s := { State.reset with blen := 160, tlen := 256, dlen := 64 }
    s.seq = .idle ∧ s.blen.toNat ≤ 160 ∧ s.tlen.toNat ≤ 256 ∧ 1 ≤ s.dlen.toNat ∧ s.dlen.toNat ≤ 64 ∧
      1 ≤ ({ s with dlen := 1 } : State).dlen.toNat := by decide

theorem test_witness_EngineCommandsStart :
    let s := { sha1 with pcfgDsize := 64, tlen := 256, inputs := { time := some 59, conduct := .keepsContract } }
    s.seq = .idle ∧ s.pcfgEn = true ∧ 1 ≤ s.pcfgDsize.toNat ∧ s.pcfgDsize.toNat ≤ 64 ∧ s.tlen.toNat ≤ 256 ∧
      s.inputs.time = some 59 := by decide

/-- The first illegal lengths, one clause each: BLEN 161, TLEN 257, DLEN 0 and 65, DSIZE 0 and 65, EN 0. -/
theorem test_witness_FirstFailingCheckEndsTheAccept :
    let s := { State.reset with inputs := { time := some 59, conduct := .keepsContract } }
    (nextOf (exec .encode { s with blen := 161 })).map (·.err) = some .badBlen ∧
    (nextOf (exec .decode { s with tlen := 257 })).map (·.err) = some .badTlen ∧
    (nextOf (exec .truncate { s with dlen := 0 })).map (·.err) = some .badDsize ∧
    (nextOf (exec .truncate { s with dlen := 65 })).map (·.err) = some .badDsize ∧
    (nextOf (exec .generate { s with pcfgEn := false, tlen := 257 })).map (·.unavail) = some true ∧
    (nextOf (exec .generate { s with pcfgEn := true, pcfgDsize := 0 })).map (·.err) = some .badDsize ∧
    (nextOf (exec .validate { s with pcfgEn := true, pcfgDsize := 65, tlen := 257 })).map (·.err) = some .badDsize ∧
    (nextOf (exec .validate { s with pcfgEn := true, pcfgDsize := 1, tlen := 257 })).map
      (fun t => (t.err, t.nowLo)) = some (.badTlen, 59) := by decide

theorem test_witness_UnconfiguredProviderGivesUnavailable :
    let s := { State.reset with inputs := { time := some 59, conduct := .keepsContract } }
    s.seq = .idle ∧ s.pcfgEn = false ∧ s.inputs.time = some 59 := by decide

theorem test_witness_AcceptFrame :
    State.reset.seq = .idle ∧ exec .clear State.reset = .next (acceptClear ((State.reset.acceptRecord 6).latchOp 6)) :=
  ⟨by decide, rfl⟩

/-! ### Witnesses: functions -/

/-- V-L4: the two strings of the source. -/
theorem test_witness_StrayCharactersAreSkipped :
    ([0x4A, 0x42, 0x53, 0x57, 0x59, 0x33, 0x44, 0x50] : List Byte).filter (fun c => (symIdx c).isSome) =
      ([0x4A, 0x42, 0x2D, 0x53, 0x57, 0x59, 0x33, 0x21, 0x44, 0x50] : List Byte).filter
        (fun c => (symIdx c).isSome) := by decide

/-- The ends of both ranges of L; the tail bytes of V-D6 (L = 1) and V-D3 (L = 2). -/
theorem test_witness_TailByteIsTheSourceFormula :
    (1 ≤ 1 ∧ 1 < 2 ^ 1) ∧ (3 ≤ 3 ∧ 3 ≤ 7 ∧ 7 < 2 ^ 3) ∧ (3 ≤ 7 ∧ 7 ≤ 7 ∧ 127 < 2 ^ 7) ∧ tailByte 1 1 = 0x80#8 ∧
      tailByte 1 2 = 0x40#8 := by decide

/-- V-T8, V-T6: a digest of one byte fails, one of 19 bytes with offset 15 does not. -/
theorem test_witness_TruncationIsDynamicTruncation :
    ([0x00#8] ≠ []) ∧ dt [0x00#8] = none ∧ dt (List.replicate 18 0x00#8 ++ [0x0F#8]) = some 15 := by decide

/-! ### Witnesses: the buffer commands -/

theorem test_witness_EncodeWritesBase32 :
    let s := { running State.reset .encode with blen := 160 }
    s.seq = .run .encode ∧ s.blen.toNat ≤ 160 := by decide

theorem test_witness_DecodeWritesBytes :
    let s := { running State.reset .decode with tlen := 256 }
    s.seq = .run .decode ∧ s.tlen.toNat ≤ 256 := by decide

theorem test_witness_CodecCommandFrame :
    let s := running State.reset .encode
    let u := running State.reset .decode
    (s.seq = .run .encode ∧ s.blen.toNat ≤ 160 ∧ ∃ t, exec .encode s = .next t) ∧
      (u.seq = .run .decode ∧ u.tlen.toNat ≤ 256 ∧ ∃ t, exec .decode u = .next t) :=
  ⟨⟨by decide, by decide, _, rfl⟩, by decide, by decide, _, rfl⟩

theorem test_witness_EncodeThenDecodeRestoresBin :
    let s := { State.reset with blen := 160 }
    s.seq = .idle ∧ s.blen.toNat ≤ 160 := by decide

/-- V-T6 (offset 15 in exactly 19 bytes) and the whole of DG. -/
theorem test_witness_TruncateWritesCode :
    let s := { putWords .dg 4 [0x000F0000] (running State.reset .truncate) with dlen := 19 }
    let u := { putWords .dg 15 [0x00000000] (running State.reset .truncate) with dlen := 64 }
    (s.seq = .run .truncate ∧ 1 ≤ s.dlen.toNat ∧ s.dlen.toNat ≤ 64 ∧
      (s.readByte (0x100 + (s.dlen.toNat - 1))).toNat % 16 + 4 ≤ s.dlen.toNat) ∧
    (u.seq = .run .truncate ∧ 1 ≤ u.dlen.toNat ∧ u.dlen.toNat ≤ 64 ∧
      (u.readByte (0x100 + (u.dlen.toNat - 1))).toNat % 16 + 4 ≤ u.dlen.toNat) := by decide

/-- V-T7. -/
theorem test_witness_TruncateOutOfRangeChangesStatusOnly :
    let s := { putWords .dg 4 [0x00000F00] (running State.reset .truncate) with dlen := 18 }
    s.seq = .run .truncate ∧ 1 ≤ s.dlen.toNat ∧ s.dlen.toNat ≤ 64 ∧
      s.dlen.toNat < (s.readByte (0x100 + (s.dlen.toNat - 1))).toNat % 16 + 4 := by decide

/-! ### Witnesses: the engine commands -/

/-- GENERATE in flight at counter 1. -/
def generating (s : State) : State :=
  { running s .generate with cntLo := 1, ctx := { op := 3, dsize := s.pcfgDsize, w := 0, now := 0 } }

/-- An empty secret and a provider of `n`-byte digests, all ending in the byte `last`, at counters -1 and 0. -/
def emptySecret (n : Nat) (last : Byte) : State :=
  { State.reset with
    pcfgEn := true, pcfgDsize := BitVec.ofNat 7 n
    hmacPoints :=
      [{ key := [], msg := List.replicate 8 0xFF, digest := List.replicate (n - 1) 0 ++ [last] },
       { key := [], msg := List.replicate 8 0, digest := List.replicate (n - 1) 0 ++ [last] }] }

theorem test_witness_GenerateWritesCode :
    let s := generating sha1
    let d := s.hmac (b32dec (s.readBuf .txt s.tlen.toNat)) (be64 (s.cntHi.toNat * 2 ^ 32 + s.cntLo.toNat))
    s.seq = .run .generate ∧ s.inputs.conduct = .keepsContract ∧ s.ctx.dsize.toNat ≤ 64 ∧
      d.length = s.ctx.dsize.toNat ∧ dt d = some 0x41397EEA := by decide

/-- V-G13: a digest of 18 bytes that ends in 0x0F. -/
theorem test_witness_GenerateOutOfRangeKeepsCode :
    let s := { generating (emptySecret 18 0x0F) with cntLo := 0 }
    s.seq = .run .generate ∧ s.inputs.conduct = .keepsContract ∧ s.ctx.dsize.toNat ≤ 64 ∧
      (s.counterDigest s.cnt).length = s.ctx.dsize.toNat ∧ dt (s.counterDigest s.cnt) = none := by decide

/-- GENERATE with a provider that breaks its contract, and with one whose answer has 20 bytes where 19 and 64 are
wanted. -/
theorem test_witness_BrokenContractStillCompletes :
    let s := { generating { sha1 with pcfgDsize := 64 } with inputs := { time := none, conduct := .breaksContract } }
    let u := generating { sha1 with pcfgDsize := 19 }
    let v := generating { sha1 with pcfgDsize := 64 }
    (s.seq = .run .generate ∧ s.inputs.conduct = .breaksContract ∧ s.ctx.dsize.toNat ≤ 64) ∧
      [u, v].all (fun x => decide (x.seq = .run .generate ∧ x.ctx.dsize.toNat ≤ 64 ∧
        x.inputs.conduct = .keepsContract ∧ (x.counterDigest x.cnt).length ≠ x.ctx.dsize.toNat)) = true := by decide

/-- VALIDATE over the counters -1 and 0 where the answer for -1 alone has the wanted length: `d 0` is that answer and
`d 1` the first draw, `q` is 0, 0, 1. An empty window needs no call (n = 0). -/
theorem test_witness_BrokenContractStillCompletes_validate :
    let s := validating { emptySecret 19 0 with window := 1, hmacPoints :=
      [{ key := [], msg := List.replicate 8 0xFF, digest := List.replicate 19 0 },
       { key := [], msg := List.replicate 8 0, digest := List.replicate 20 0 }] } 10
    let d : Nat → List Byte := fun k =>
      if k = 0 then List.replicate 19 0 else (List.range 19).map (Config.freeDigestByte 0)
    let q : Nat → Nat := fun k => if k ≤ 1 then 0 else 1
    (s.seq = .run .validate ∧ s.ctx.dsize.toNat = 19 ∧ s.inputs.conduct = .keepsContract ∧ s.ctx.w.toNat = 1 ∧
      s.ctx.now.toInt / 30 - 1 = -1 ∧ q 0 = s.draws) ∧
    ((s.counterDigest (-1 + (0 : Nat))).length = 19 ∧ d 0 = s.counterDigest (-1 + (0 : Nat)) ∧ q (0 + 1) = q 0) ∧
    ((s.counterDigest (-1 + (1 : Nat))).length ≠ 19 ∧ d 1 = (List.range 19).map (Config.freeDigestByte (q 1)) ∧
      q (1 + 1) = q 1 + 1) ∧
    ({ s with ctx := { s.ctx with w := 0 } } : State).ctx.w.toNat = 0 := by
  refine ⟨by decide, by decide, ⟨by decide, rfl, rfl⟩, by decide⟩

/-- The same window with a provider that breaks its contract: every call is a draw. -/
theorem test_witness_BrokenContractStillCompletes_allDraws :
    let s := { validating { emptySecret 19 0 with window := 1 } 10 with
      inputs := { time := none, conduct := .breaksContract } }
    let q : Nat → Nat := fun k => k
    s.seq = .run .validate ∧ s.ctx.dsize.toNat ≤ 64 ∧ s.inputs.conduct ≠ .silent ∧ q 0 = s.draws ∧
      ∀ k, ¬ (s.inputs.conduct = .keepsContract ∧
        (s.counterDigest (s.ctx.now.toInt / 30 - (s.ctx.w.toNat : Int) + (k : Int))).length = s.ctx.dsize.toNat) ∧
        q (k + 1) = q k + 1 :=
  ⟨by decide, by decide, by decide, by decide, fun _ => ⟨fun h => absurd h.1 (by decide), rfl⟩⟩

theorem test_witness_SilentProviderLeavesBusy :
    let s := { generating sha1 with inputs := { time := none, conduct := .silent } }
    let u := { validating { sha1 with window := 1 } 59 with inputs := { time := none, conduct := .silent } }
    (s.seq = .run .generate ∧ s.asksProvider .generate ∧ s.inputs.conduct = .silent) ∧
      (u.seq = .run .validate ∧ u.asksProvider .validate ∧ u.inputs.conduct = .silent) := by
  refine ⟨⟨by decide, trivial, by decide⟩, by decide, ?_, by decide⟩
  show 1 ≤ BitVec.toNat 1#8
  decide

/-- The window of one step at time 10 holds the counters -1 and 0 (V-W5); the candidate 000000 is the code of both. -/
theorem test_witness_ValidateAcceptsExactlyTheWindow :
    let s := validating { emptySecret 19 0 with window := 1, cand0 := 0x30303030, cand1 := 0x3030, clen := 6 } 10
    s.seq = .run .validate ∧ s.inputs.conduct = .keepsContract ∧ 19 ≤ s.ctx.dsize.toNat ∧ s.ctx.dsize.toNat ≤ 64 ∧
      s.ctx.now.toInt / 30 = 0 ∧ s.ctx.w.toNat = 1 ∧ (s.counterDigest (-1)).length = s.ctx.dsize.toNat ∧
      (s.counterDigest 0).length = s.ctx.dsize.toNat ∧ dt (s.counterDigest (-1)) = some 0 ∧
      s.candStr = some (codeChars 0) ∧ (nextOf (exec .validate s)).map (·.matched) = some true := by decide

/-- The same window, a miss (both clauses of MATCH), and an empty window (n = 0). -/
theorem test_witness_ValidateScansUpToTheFirstMatch :
    let s := validating { emptySecret 19 0 with window := 1, cand0 := 0x30303030, cand1 := 0x3030, clen := 6 } 10
    let u := { s with clen := 5 }
    let e := { s with ctx := { s.ctx with w := 0 } }
    s.seq = .run .validate ∧ s.inputs.conduct = .keepsContract ∧ s.ctx.dsize.toNat ≤ 64 ∧
      (∀ k : Nat, k < 2 → (s.counterDigest (-1 + (k : Int))).length = s.ctx.dsize.toNat ∧
        dt (s.counterDigest (-1 + (k : Int))) = some 0) ∧
      (nextOf (exec .validate s)).map (fun t => (t.matched, t.requests.length)) = some (true, 1) ∧
      (nextOf (exec .validate u)).map (fun t => (t.matched, t.requests.length)) = some (false, 2) ∧
      (nextOf (exec .validate e)).map (fun t => (t.matched, t.requests.length)) = some (false, 0) := by decide

/-- Two digests of 18 bytes: where both end in 0x0F the first fails (m = 0); where the first ends in 0x00 the second
fails (m = 1). -/
theorem test_witness_ValidateStopsAtShortDigest :
    let s := validating { emptySecret 18 0x0F with window := 1 } 10
    let u := { s with hmacPoints :=
      { key := [], msg := List.replicate 8 0xFF, digest := List.replicate 18 0 } :: s.hmacPoints }
    s.seq = .run .validate ∧ s.inputs.conduct = .keepsContract ∧ s.ctx.dsize.toNat ≤ 64 ∧ 1 < 2 * s.ctx.w.toNat ∧
      s.ctx.now.toInt / 30 - (s.ctx.w.toNat : Int) = -1 ∧
      (s.counterDigest (-1)).length = s.ctx.dsize.toNat ∧ dt (s.counterDigest (-1)) = none ∧
      (u.counterDigest (-1)).length = u.ctx.dsize.toNat ∧ dt (u.counterDigest (-1)) = some 0 ∧
      u.candStr ≠ some (codeChars 0) ∧ (u.counterDigest 0).length = u.ctx.dsize.toNat ∧
      dt (u.counterDigest 0) = none := by decide

theorem test_witness_EngineCommandFrame :
    let s := generating sha1
    let u := validating { sha1 with window := 0 } 59
    (s.seq = .run .generate ∧ ∃ t, exec .generate s = .next t) ∧
      (u.seq = .run .validate ∧ u.ctx.w.toNat = 0 ∧ ∃ t, exec .validate u = .next t) :=
  ⟨⟨by decide, _, rfl⟩, by decide, by decide, _, rfl⟩

/-- The second state differs in BIN[0..3]. -/
theorem test_witness_BinDoesNotReachEngineResults :
    let s := generating sha1
    let m := (s.writeBufWord .bin 0 0x44332211).mem
    s.seq = .run .generate ∧ s.tlen.toNat ≤ 256 ∧ m ≠ s.mem ∧
      (∀ a, ¬ (0x200 ≤ a ∧ a < 0x2A0) → State.readByte { s with mem := m } a = s.readByte a) ∧
      (∃ t, exec .generate s = .next t) ∧ ∃ u, exec .generate { s with mem := m } = .next u := by
  refine ⟨by decide, by decide, by decide, fun a ha => ?_, ⟨_, rfl⟩, _, rfl⟩
  show State.readByte ((generating sha1).writeBufWord .bin 0 0x44332211) a = _
  rw [readByte_writeBufWord, if_neg]
  show ¬ (0x200 + 4 * 0 ≤ a ∧ a < 0x200 + 4 * 0 + 4)
  omega

theorem test_witness_ClearErasesSecretState : (running sha1 .clear).seq = .run .clear := by decide

/-! ### Witnesses: whole-machine rules -/

theorem test_witness_EveryCompletionRecordsOneOutcome :
    let s := running State.reset .clear
    s.seq = .run .clear ∧ s.answered .clear ∧ ∃ t, exec .clear s = .next t :=
  ⟨by decide, fun h => absurd h (by simp [State.asksProvider]), _, rfl⟩

/-- One state for each clause: a completion, an accept, an acknowledgement and a mask of a pending interrupt (V-X10). -/
theorem test_witness_InterruptFollowsDoneAndEnable :
    let s := { running State.reset .clear with ctrlIe := true }
    let u := { State.reset with ctrlIe := true, done := true }
    (s.seq = .run .clear ∧ s.answered .clear ∧ (nextOf (exec .clear s)).map (·.irq) = some true) ∧
      (u.seq = .idle ∧ u.irq = true ∧ (nextOf (exec .clear u)).map (fun t => (t.seq, t.irq)) =
        some (.run .clear, false)) ∧
      (nextOf (u.busWrite 0x010#12 2#32)).map (·.irq) = some false ∧
      (nextOf (u.busWrite 0x008#12 0#32)).map (fun t => (t.done, t.irq)) = some (true, false) := by
  refine ⟨⟨by decide, fun h => absurd h (by simp [State.asksProvider]), rfl⟩, by decide⟩

/-- NOW changes at a VALIDATE accept, and at a reset. -/
theorem test_witness_NowChangesOnlyAtValidateAccept :
    let i : Inputs := { time := some 59, conduct := .keepsContract }
    let s := { State.reset with turns := [{ inputs := i, action := .busWrite 0x00C#12 4#32 }] }
    let u := { State.reset with nowLo := 59, turns := [{ inputs := i, action := .reset }] }
    (nextOf (step s)).map (·.nowLo) = some 59 ∧ s.nowLo = 0 ∧ (nextOf (step u)).map (·.nowLo) = some 0 := by decide

/-- A write to a register that is not one of the five. -/
theorem test_witness_ConfigurationChangesOnlyByHost :
    let u := turn State.reset (.busWrite 0x018#12 7#32)
    (nextOf (step { State.reset with turns := [u] })).map (·.blen) = some 7 ∧ u.action ≠ .reset ∧
      ∀ v, u.action ≠ .busWrite 0x008#12 v ∧ u.action ≠ .busWrite 0x014#12 v ∧ u.action ≠ .busWrite 0x024#12 v ∧
        u.action ≠ .busWrite 0x028#12 v ∧ u.action ≠ .busWrite 0x02C#12 v := by
  refine ⟨by decide, by decide, fun v => ?_⟩
  simp [turn]

/-- WERR set by an ignored CMD write; cleared by a STATUS write, and by a reset. -/
theorem test_witness_WerrIsSticky :
    let s := writing (running State.reset .clear) 0x00C#12 1#32
    let u := writing { State.reset with werr := true } 0x010#12 0x100#32
    let r := { State.reset with werr := true, turns := [turn State.reset .reset] }
    (s.werr = false ∧ (nextOf (step s)).map (·.werr) = some true) ∧
      (u.werr = true ∧ (nextOf (step u)).map (·.werr) = some false) ∧
      (r.werr = true ∧ (nextOf (step r)).map (·.werr) = some false) := by decide

theorem test_witness_OperandsAreLockedWhileInFlight :
    let s := writing (running State.reset .clear) 0x018#12 1#32
    s.seq = .run .clear ∧ (nextOf (step s)).map (fun t => (t.seq, t.blen)) = some (.run .clear, 0) := by decide

/-! ### Witnesses: bus, reset and invariant -/

/-- The last word of each buffer. -/
theorem test_witness_RegisterMapLocatesEveryWord :
    4 * 15 < Buf.dg.cap ∧ 4 * 39 < Buf.bin.cap ∧ 4 * 63 < Buf.txt.cap ∧
      locate 0x13C#12 = .word .dg 15 ∧ locate 0x29C#12 = .word .bin 39 ∧ locate 0x4FC#12 = .word .txt 63 := by decide

/-- The ends of each unmapped range, and one offset of each misalignment. -/
theorem test_witness_BadOffsetsAnswerErrorOnly :
    [0x001#12, 0x002#12, 0x003#12, 0x054#12, 0x0FF#12, 0x140#12, 0x1FF#12, 0x2A0#12, 0x3FF#12, 0x500#12, 0xFFF#12].all
      (fun off => decide (off.toNat % 4 ≠ 0 ∨ (0x054 ≤ off.toNat ∧ off.toNat ≤ 0x0FF) ∨
        (0x140 ≤ off.toNat ∧ off.toNat ≤ 0x1FF) ∨ (0x2A0 ≤ off.toNat ∧ off.toNat ≤ 0x3FF) ∨ 0x500 ≤ off.toNat)) =
      true := by decide

/-- Each command in flight with the ends of its 'written' ranges (R83), and offsets next to them that it does not write:
a read of the first draws, a read of the second does not. -/
theorem test_witness_BusReadHasNoSideEffect :
    ([(.encode, [0x01C#12, 0x400#12, 0x4FC#12], [0x018#12, 0x020#12, 0x29C#12, 0x500#12]),
      (.decode, [0x018#12, 0x200#12, 0x29C#12], [0x014#12, 0x01C#12, 0x13C#12, 0x400#12]),
      (.generate, [0x020#12, 0x03C#12, 0x048#12, 0x100#12, 0x13C#12], [0x01C#12, 0x038#12, 0x04C#12, 0x200#12]),
      (.validate, [0x020#12, 0x03C#12, 0x050#12, 0x100#12, 0x13C#12], [0x01C#12, 0x024#12, 0x038#12, 0x200#12]),
      (.truncate, [0x03C#12, 0x048#12], [0x020#12, 0x038#12, 0x04C#12, 0x100#12]),
      (.clear, [0x018#12, 0x020#12, 0x030#12, 0x048#12, 0x100#12, 0x29C#12, 0x4FC#12], [0x024#12, 0x02C#12, 0x04C#12])] :
      List (Instr × List Offset × List Offset)).all (fun p =>
        p.2.1.all (fun off => decide (((running State.reset p.1).busRead off).draws = 1)) &&
          p.2.2.all (fun off => decide (((running State.reset p.1).busRead off).draws = 0))) = true := by decide

/-- One state with every field its own value: what each register and a word of DG read, by the layouts of R22-R38. -/
theorem test_busRead_everyRegister :
    let s := { putWords .dg 0 [0x44332211] State.reset with
      ctrlIe := true, done := true, err := .badDsize, lop := 5, pcfgEn := true, pcfgDsize := 20, blen := 1, tlen := 0x102
      dlen := 3, window := 4, cntLo := 0x50000005, cntHi := 6, cand0 := 7, cand1 := 8, clen := 9, trunc := 10
      cval := 11, code0 := 12, code1 := 13, nowLo := 14, nowHi := 15 }
    ([0x000#12, 0x004#12, 0x008#12, 0x00C#12, 0x010#12, 0x014#12, 0x018#12, 0x01C#12, 0x020#12, 0x024#12, 0x028#12,
      0x02C#12, 0x030#12, 0x034#12, 0x038#12, 0x03C#12, 0x040#12, 0x044#12, 0x048#12, 0x04C#12, 0x050#12, 0x100#12].map
        fun off => (s.busRead off).response) =
      ([0x42335401, 0x40A00100, 1, 0, 0x00005042, 0x00001401, 1, 0x102, 3, 4, 0x50000005, 6, 7, 8, 9, 10, 11, 12, 13, 14,
        15, 0x44332211] : List Word).map (fun v => some (.read .ok v)) := by decide

/-- The ends of each locked range. -/
theorem test_witness_LockedWritesWhileBusySetWerrOnly :
    (running State.reset .clear).busy = true ∧
    [0x00C#12, 0x014#12, 0x038#12, 0x100#12, 0x13C#12, 0x200#12, 0x29C#12, 0x400#12, 0x4FC#12].all
      (fun off => decide (off.toNat % 4 = 0 ∧
        (off.toNat = 0x00C ∨ (0x014 ≤ off.toNat ∧ off.toNat ≤ 0x038) ∨ (0x100 ≤ off.toNat ∧ off.toNat ≤ 0x13F) ∨
          (0x200 ≤ off.toNat ∧ off.toNat ≤ 0x29F) ∨ (0x400 ≤ off.toNat ∧ off.toNat ≤ 0x4FF)))) = true := by decide

theorem test_witness_ReadOnlyWritesHaveNoEffect :
    0x050#12 ∈ [0x000#12, 0x004#12, 0x03C#12, 0x040#12, 0x044#12, 0x048#12, 0x04C#12, 0x050#12] := by decide

/-- Each of the eleven offsets while IDLE with all bits written (R39: what is masked reads 0), and CTRL while BUSY. -/
theorem test_witness_RegistersReadBackTheirFields :
    let s := running State.reset .clear
    State.reset.seq = .idle ∧
      ([(0x008#12, 0x00000001#32), (0x014#12, 0x00007F01#32), (0x018#12, 0x000000FF#32), (0x01C#12, 0x000001FF#32),
        (0x020#12, 0x0000007F#32), (0x024#12, 0x000000FF#32), (0x028#12, 0xFFFFFFFF#32), (0x02C#12, 0xFFFFFFFF#32),
        (0x030#12, 0xFFFFFFFF#32), (0x034#12, 0xFFFFFFFF#32), (0x038#12, 0x0000000F#32)] : List (Offset × Word)).all
          (fun p => decide ((nextOf (State.reset.busWrite p.1 0xFFFFFFFF#32)).bind (fun t => (t.busRead p.1).response) =
            some (.read .ok p.2))) = true ∧
      s.seq ≠ .idle ∧ (nextOf (s.busWrite 0x008#12 1#32)).map (fun t => (t.ctrlIe, t.werr)) = some (true, false) := by
  decide

theorem test_witness_BufferWordsAreLittleEndian :
    State.reset.seq = .idle ∧ 4 * 15 < Buf.dg.cap ∧ 4 * 39 < Buf.bin.cap ∧ 4 * 63 < Buf.txt.cap := by decide

theorem test_witness_ResetAbandonsTheCommandInFlight :
    let s := { running sha1 .generate with turns := [turn sha1 .reset] }
    s.turns = turn sha1 .reset :: [] ∧ (turn sha1 .reset).action = .reset := by decide

/-- The reset state meets the invariant; so does a GENERATE in flight that has just been accepted. -/
theorem test_witness_EveryStepKeepsInvariant :
    State.reset.Inv ∧ (∃ t, step State.reset = .next t) ∧
      (generating sha1).Inv ∧ ∃ t, step (generating sha1) = .next t := by
  refine ⟨⟨by decide, by decide, by decide, by decide, by decide, by decide, .inl (by decide), fun i h => by cases h⟩,
    ⟨_, rfl⟩, ⟨by decide, by decide, by decide, by decide, by decide, by decide, .inl (by decide), fun i h => ?_⟩,
    _, rfl⟩
  cases h
  exact ⟨by decide, by decide, by decide, by decide, by decide, by decide, by decide⟩

theorem test_witness_CmdLineRunsItsCommand : State.reset.seq = .idle ∧ State.reset.turns = [] := by decide

end Sys2Proof.Tests
end

section
/-! PROOF. Scope (R7, R152): a step is its turn's action, the sequencer's turn runs the command in flight, and that
command completes once the provider answers. -/

namespace Sys2Proof.Machine

/-! ### The step of a turn and the step with no turn left -/

theorem step_of_turns_nil {s : State} (h : s.turns = []) : step s = s.newStep.sequencerTurn := by
  simp only [step, h]

theorem step_of_turns_cons {s : State} {t : Turn} {rest : List Turn} (h : s.turns = t :: rest) :
    step s = (s.takeTurn t rest).act t.action := by
  simp only [step, h]

@[simp] theorem act_busRead (s : State) (off : Offset) : s.act (.busRead off) = .next (s.busRead off) := rfl

@[simp] theorem act_busWrite (s : State) (off : Offset) (v : Word) :
    s.act (.busWrite off v) = s.busWrite off v := rfl

@[simp] theorem act_completion (s : State) : s.act .completion = s.sequencerTurn := rfl

theorem sequencerTurn_of_run {s : State} {i : Instr} (h : s.seq = .run i) : s.sequencerTurn = exec i s := by
  simp only [State.sequencerTurn, h]

/-! ### A CMD write while IDLE -/

theorem locate_cmd : locate 0x00C#12 = .reg .cmd := rfl

theorem accept_of_decode {s : State} {v : Word} {i : Instr} (h : decode v = .ok i) : s.accept v = exec i s := by
  simp only [State.accept, h]

/-- While IDLE nothing locks CMD, so the write is an accept (R62, R65, R151). -/
theorem busWrite_cmd_of_idle {s : State} (h : s.seq = .idle) (v : Word) :
    s.busWrite 0x00C#12 v = (s.respond (.write .ok)).accept v := by
  have hb : s.busy = false := (State.busy_false_iff s).mpr h
  simp [State.busWrite, locate_cmd, Loc.answers, hb]

/-! ### The command in flight -/

/-- Whether the provider answers does not depend on the outputs of the step before. -/
@[simp] theorem answered_newStep (s : State) (i : Instr) : s.newStep.answered i ↔ s.answered i := by
  cases i <;> rfl

/-- An answered completion ends in IDLE with DONE = 1 (R152). -/
theorem completionPart_seq_done {s : State} {i : Instr} (h : s.answered i) :
    (completionPart i s).seq = .idle ∧ (completionPart i s).done = true := by
  rcases completionPart_cases i s with ⟨hasks, hsilent, -⟩ | ⟨-, u, e, m, hu, -⟩
  · exact absurd hsilent (h hasks)
  · simp [hu]

/-! ### The statements -/

/-- Settles O5: both forms of the step come to the sequencer's turn, at a state whose SEQ is that of `s`. -/
theorem stepCompletesCommandInFlight : Obligations.StepCompletesCommandInFlight := by
  intro s i hs
  refine ⟨fun ht => ?_, fun t rest ht ha => ?_⟩
  · rw [step_of_turns_nil ht, sequencerTurn_of_run (s.newStep_seq.trans hs)]
  · rw [step_of_turns_cons ht, ha, act_completion, sequencerTurn_of_run ((s.takeTurn_seq t rest).trans hs)]

/-- Settles O7: with no turn left the step is the completion of `i` (O5), which ends in `complete` where the provider
answers. -/
theorem pendingCompletionHappens : Obligations.PendingCompletionHappens := by
  intro s i ht hs hans
  refine ⟨completionPart i s.newStep, ?_, completionPart_seq_done ((answered_newStep s i).mpr hans)⟩
  rw [(stepCompletesCommandInFlight s i hs).1 ht, exec_of_run (s.newStep_seq.trans hs)]

/-- Settles O4: the step is the turn's action at the state with the turn taken; a CMD write while IDLE is an accept. -/
theorem stepRunsDecodedCommand : Obligations.StepRunsDecodedCommand := by
  intro s t rest ht
  have hwrite : ∀ (off : Offset) (v : Word), t.action = .busWrite off v →
      step s = (s.takeTurn t rest).busWrite off v := fun off v ha => by
    rw [step_of_turns_cons ht, ha, act_busWrite]
  refine ⟨rfl, fun off ha => ?_, hwrite, fun v i ha hidle hdec => ?_⟩
  · rw [step_of_turns_cons ht, ha, act_busRead]
  · rw [hwrite _ v ha, busWrite_cmd_of_idle ((s.takeTurn_seq t rest).trans hidle), accept_of_decode hdec]

end Sys2Proof.Machine
end

section
/-! PROOF. State: what one step leaves unchanged, said once per kind of step. -/

namespace Sys2Proof.Machine

/-! ### The outcome of a step -/

theorem next_inj {s t : State} (h : (.next s : Host.Outcome State Fault Refusal) = .next t) : t = s := by
  injection h with h
  exact h.symm

/-- What one step's action can do (R7). -/
theorem act_cases {s t : State} {a : Action} (h : s.act a = .next t) :
    (∃ off, a = .busRead off ∧ t = s.busRead off) ∨
    (∃ off v, a = .busWrite off v ∧ s.busWrite off v = .next t) ∨
    (a = .completion ∧ s.seq = .idle ∧ t = s) ∨
    (a = .completion ∧ ∃ i, s.seq = .run i ∧ t = completionPart i s) ∨
    (a = .reset ∧ t = s.hardReset) := by
  cases a with
  | busRead off => exact .inl ⟨off, rfl, next_inj h⟩
  | busWrite off v => exact .inr (.inl ⟨off, v, rfl, h⟩)
  | completion =>
    rw [act_completion] at h
    rcases hs : s.seq with _ | i
    · rw [State.sequencerTurn, hs] at h
      exact .inr (.inr (.inl ⟨rfl, rfl, next_inj h⟩))
    · rw [sequencerTurn_of_run hs, exec_of_run hs] at h
      exact .inr (.inr (.inr (.inl ⟨rfl, i, rfl, next_inj h⟩)))
  | reset => exact .inr (.inr (.inr (.inr ⟨rfl, next_inj h⟩)))

/-- The record and the latch of CTX.op that the accept of a command makes before its own part (R151). -/
def State.recorded (s : State) (i : Instr) : State := (s.acceptRecord (opcode i)).latchOp (opcode i)

/-- What exec does while IDLE, read backwards (R151). -/
theorem eq_acceptPart_of_exec {s t : State} {i : Instr} (hs : s.seq = .idle) (h : exec i s = .next t) :
    t = acceptPart i (s.recorded i) :=
  next_inj ((exec_of_idle hs i).symm.trans h)

/-- What exec does to the command in flight, read backwards (R152). -/
theorem eq_completionPart_of_exec {s t : State} {i : Instr} (hs : s.seq = .run i) (h : exec i s = .next t) :
    t = completionPart i s :=
  next_inj ((exec_of_run hs).symm.trans h)

/-! ### Frames -/

/-- Beginning a step changes the turns, the inputs and the outputs of the step before only. -/
theorem begun_frame (s : State) :
    ∃ tu inp, s.begun = { s with turns := tu, inputs := inp, response := none, requests := [] } :=
  ⟨_, _, begun_eq s⟩

/-- A bus read changes the draws and the answer only (R61). -/
theorem busRead_frame (s : State) (off : Offset) :
    ∃ n r, s.busRead off = { s with draws := n, response := some r } := by
  rcases busRead_cases s off with ⟨-, h⟩ | ⟨-, -, h⟩ | ⟨-, -, h⟩ <;> exact ⟨_, _, h⟩

/-- A register write changes no status flag but DONE and WERR, no result, no buffer and nothing of the sequencer. -/
theorem regWrite_frame (s : State) (r : Reg) (v : Word) :
    ∃ ie d we en ds bl tl dl w cl ch c0 c1 n, s.regWrite r v = { s with
      ctrlIe := ie, done := d, werr := we, pcfgEn := en, pcfgDsize := ds, blen := bl, tlen := tl, dlen := dl
      window := w, cntLo := cl, cntHi := ch, cand0 := c0, cand1 := c1, clen := n } := by
  cases r <;> exact ⟨_, _, _, _, _, _, _, _, _, _, _, _, _, _, rfl⟩

/-- A write to a register that BUSY does not lock changes CTRL.IE and WERR and may clear DONE, at most (R65). -/
theorem regWrite_frame_of_unlocked (s : State) {r : Reg} (hr : r.locked = false) (v : Word) :
    ∃ ie d we, s.regWrite r v = { s with ctrlIe := ie, done := d && s.done, werr := we } := by
  cases r
  case status => exact ⟨_, _, _, by rw [Bool.and_comm]; rfl⟩
  case ctrl | id | param | trunc | cval | code0 | code1 | nowLo | nowHi => exact ⟨_, true, _, rfl⟩
  all_goals simp [Reg.locked] at hr

end Sys2Proof.Machine
end

section
/-! PROOF. State: the invariant holds in the reset state and every step keeps it. -/

namespace Sys2Proof.Machine

/-! ### The code registers -/

/-- The part of the invariant about TRUNC, CVAL and the code string (R36, R37). -/
def State.CodeInv (s : State) : Prop :=
  s.cval.toNat = s.trunc.toNat % 1000000 ∧
    ((s.trunc = 0 ∧ s.code0 = 0 ∧ s.code1 = 0) ∨ s.codeStr = codeChars s.cval.toNat)

theorem State.Inv.codeInv {s : State} (h : s.Inv) : s.CodeInv := ⟨h.cvalOfTrunc, h.codeOfCval⟩

theorem codeStr_congr {s u : State} (h0 : u.code0 = s.code0) (h1 : u.code1 = s.code1) : u.codeStr = s.codeStr := by
  have hc : u.codeChar = s.codeChar := by funext i; simp only [State.codeChar, h0, h1]
  simp only [State.codeStr, hc]

theorem State.CodeInv.congr {s u : State} (h : s.CodeInv) (ht : u.trunc = s.trunc) (hv : u.cval = s.cval)
    (h0 : u.code0 = s.code0) (h1 : u.code1 = s.code1) : u.CodeInv := by
  rw [State.CodeInv, codeStr_congr h0 h1, ht, hv, h0, h1]
  exact h

/-- SETCODE establishes the invariant of the code registers (R123). -/
theorem codeInv_setCode (s : State) (t : BitVec 31) : (s.setCode t).CodeInv := by
  have hv : (s.setCode t).cval.toNat = codeValue t := toNat_cval_of_codeValue t
  exact ⟨hv, .inr (by rw [codeStr_setCode, hv])⟩

/-- Each way the code registers may change keeps their invariant. -/
theorem State.CodeInv.step {s u : State} (h : s.CodeInv) (hc : CodeStep s u) : u.CodeInv := by
  rcases hc with ⟨ht, hv, h0, h1⟩ | ⟨w, t, ht, hv, h0, h1⟩ | ⟨ht, hv, h0, h1⟩
  · exact h.congr ht hv h0 h1
  · exact (codeInv_setCode w t).congr ht hv h0 h1
  · exact ⟨by simp [hv, ht], .inl ⟨ht, h0, h1⟩⟩

/-! ### What keeps the invariant -/

/-- The invariant does not speak of CTRL, WERR or the model's own fields. -/
theorem State.Inv.frame {s : State} (h : s.Inv) (ie we : Bool) (tu : List Turn) (inp : Inputs) (n : Nat)
    (r : Option BusResponse) (rq : List HmacRequest) :
    State.Inv { s with
      ctrlIe := ie, werr := we, turns := tu, inputs := inp, draws := n, response := r, requests := rq } :=
  ⟨h.memWf, h.keyZero, h.busyFlags, h.oneOutcome, h.flagOwner, h.cvalOfTrunc, h.codeOfCval, h.inFlight⟩

theorem State.Inv.begun {s : State} (h : s.Inv) : s.begun.Inv := by
  obtain ⟨tu, inp, hb⟩ := begun_frame s
  rw [hb]
  exact h.frame _ _ _ _ _ _ _

theorem State.Inv.busRead {s : State} (h : s.Inv) (off : Offset) : (s.busRead off).Inv := by
  obtain ⟨n, r, hb⟩ := busRead_frame s off
  rw [hb]
  exact h.frame _ _ _ _ _ _ _

theorem State.Inv.respond {s : State} (h : s.Inv) (r : BusResponse) : (s.respond r).Inv := h.frame _ _ _ _ _ _ _

theorem State.Inv.lockedWrite {s : State} (h : s.Inv) : s.lockedWrite.Inv := h.frame _ _ _ _ _ _ _

/-- While IDLE the invariant asks nothing of the operands, whose registers the host may then write (R62). -/
theorem State.Inv.regWrite_of_idle {s : State} (h : s.Inv) (hs : s.seq = .idle) (r : Reg) (v : Word) :
    (s.regWrite r v).Inv := by
  obtain ⟨ie, d, we, en, ds, bl, tl, dl, w, cl, ch, c0, c1, n, hw⟩ := regWrite_frame s r v
  rw [hw]
  refine ⟨h.memWf, h.keyZero, fun hb => absurd hs ((State.busy_iff _).mp hb), h.oneOutcome, h.flagOwner,
    h.cvalOfTrunc, h.codeOfCval, fun i hi => ?_⟩
  cases hs.symm.trans hi

/-- While BUSY a register write reaches CTRL, DONE and WERR only, and DONE is clear already (R26, R65). -/
theorem State.Inv.regWrite_of_unlocked {s : State} (h : s.Inv) {r : Reg} (hr : r.locked = false) (v : Word) :
    (s.regWrite r v).Inv := by
  obtain ⟨ie, d, we, hw⟩ := regWrite_frame_of_unlocked s hr v
  rw [hw]
  refine ⟨h.memWf, h.keyZero, fun hb => ?_, h.oneOutcome, h.flagOwner, h.cvalOfTrunc, h.codeOfCval, h.inFlight⟩
  obtain ⟨hd, hflags⟩ := h.busyFlags hb
  exact ⟨by simp [hd], hflags⟩

theorem State.Inv.regWrite {s : State} (h : s.Inv) {r : Reg} (hr : s.busy = true → r.locked = false) (v : Word) :
    (s.regWrite r v).Inv := by
  cases hb : s.busy
  · exact h.regWrite_of_idle ((State.busy_false_iff s).mp hb) r v
  · exact h.regWrite_of_unlocked (hr hb) v

theorem State.Inv.writeBufWord_of_idle {s : State} (h : s.Inv) (hs : s.seq = .idle) (b : Buf) {j : Nat}
    (hj : 4 * j + 4 ≤ b.cap) (v : Word) : (s.writeBufWord b j v).Inv := by
  refine ⟨writeBufWord_wf h.memWf b hj v, h.keyZero, h.busyFlags, h.oneOutcome, h.flagOwner, h.cvalOfTrunc,
    h.codeOfCval, fun i hi => ?_⟩
  cases hs.symm.trans hi

/-! ### Accept and completion -/

/-- `complete` establishes the invariant where it reports one outcome that LOP's command may report (R152). -/
theorem inv_complete {u : State} {e : ErrCode} {m un : Bool} (hm : u.mem.wf) (hc : u.CodeInv)
    (hone : (m = true → un = false) ∧ (e ≠ .noError → m = false ∧ un = false))
    (howner : (m = true → u.lop = opcode .validate) ∧
      (un = true → u.lop = opcode .generate ∨ u.lop = opcode .validate)) :
    (u.complete e m un).Inv := by
  refine ⟨hm, ⟨rfl, rfl⟩, fun hb => ?_, hone, howner, hc.1, hc.2, fun i hi => ?_⟩
  · exact absurd rfl ((State.busy_iff _).mp hb)
  · simp at hi

/-- `start` establishes the invariant where the accept's record and its latches are made (R151). -/
theorem inv_start {u : State} {i : Instr} (hm : u.mem.wf) (hk : u.key = zeroKey ∧ u.klen = 0) (hc : u.CodeInv)
    (hf : u.done = false ∧ u.matched = false ∧ u.unavail = false ∧ u.err = .noError)
    (hop : u.ctx.op = opcode i) (hlop : u.lop = opcode i) (hlegal : (u.start i).operandsLegal i) :
    (u.start i).Inv := by
  obtain ⟨hd, hma, hun, he⟩ := hf
  refine ⟨hm, hk, fun _ => ⟨hd, hma, hun, he⟩, ?_, ?_, hc.1, hc.2, fun j hj => ?_⟩
  · simp [hma, hun]
  · simp [hma, hun]
  · obtain rfl : i = j := by simpa using hj
    exact ⟨hop, hlop, hlegal⟩

/-- Latching the context touches CTX, NOW and the draws only. -/
theorem latched_frame (i : Instr) (s : State) :
    ∃ ds w now hi lo n, latched i s = { s with
      ctx := { op := s.ctx.op, dsize := ds, w := w, now := now }, nowHi := hi, nowLo := lo, draws := n } := by
  cases i <;> exact ⟨_, _, _, _, _, _, rfl⟩

/-- VALIDATE's time sample touches CTX, NOW and the draws only. -/
theorem sampled_frame (i : Instr) (s : State) :
    ∃ now hi lo n, sampled i s = { s with
      ctx := { s.ctx with now := now }, nowHi := hi, nowLo := lo, draws := n } := by
  cases i <;> exact ⟨_, _, _, _, rfl⟩

/-- An accept keeps the invariant (R151, R153). -/
theorem State.Inv.accept {s : State} (h : s.Inv) (i : Instr) :
    (acceptPart i (s.recorded i)).Inv := by
  rcases acceptPart_cases i (s.recorded i) with ⟨ha, hlegal⟩ | ⟨e, he, ha⟩ | ⟨-, hi, ha⟩
  · rw [ha]
    obtain ⟨ds, w, now, hi, lo, n, hl⟩ := latched_frame i (s.recorded i)
    rw [hl] at hlegal ⊢
    exact inv_start h.memWf h.keyZero h.codeInv ⟨rfl, rfl, rfl, rfl⟩ rfl rfl hlegal
  · rw [ha]
    obtain ⟨now, hi, lo, n, hl⟩ := sampled_frame i (s.recorded i)
    rw [hl]
    exact inv_complete h.memWf h.codeInv (by simp) (by simp)
  · rw [ha]
    obtain ⟨now, hi', lo, n, hl⟩ := sampled_frame i (s.recorded i)
    rw [hl]
    refine inv_complete h.memWf h.codeInv (by simp) ⟨by simp, fun _ => ?_⟩
    exact hi.imp (congrArg opcode) (congrArg opcode)

theorem State.Inv.acceptIllegal {s : State} (h : s.Inv) (v : Word) : (s.acceptIllegal v).Inv :=
  inv_complete h.memWf h.codeInv (by simp) (by simp)

/-- A completion keeps the invariant (R152). -/
theorem State.Inv.completion {s : State} (h : s.Inv) {i : Instr} (hs : s.seq = .run i) : (completionPart i s).Inv := by
  rcases completionPart_cases i s with ⟨-, -, hu⟩ | ⟨-, u, e, m, hu, hf, -, hm⟩
  · rw [hu]
    exact h
  · rw [hu]
    refine inv_complete (hf.memWf h.memWf) (h.codeInv.step hf.code) ⟨by simp, fun he => ?_⟩ ⟨fun hmt => ?_, by simp⟩
    · exact ⟨Bool.eq_false_iff.mpr fun hmt => he (hm hmt).2, rfl⟩
    · obtain ⟨-, hlop, -⟩ := h.inFlight i hs
      rw [hf.lop, hlop, (hm hmt).1]

/-! ### Steps -/

theorem State.Inv.busWrite {s t : State} {off : Offset} {v : Word} (h : s.Inv) (hw : s.busWrite off v = .next t) :
    t.Inv := by
  rcases busWrite_cases s off v t hw with ⟨-, rfl⟩ | ⟨-, -, rfl⟩ | ⟨-, hs, i, -, he⟩ | ⟨-, -, -, rfl⟩ |
    ⟨r, -, -, hr, rfl⟩ | ⟨b, j, -, hj, hs, rfl⟩
  · exact h.respond _
  · exact (h.respond _).lockedWrite
  · rw [eq_acceptPart_of_exec (s := s.respond _) hs he]
    exact (h.respond _).accept i
  · exact (h.respond _).acceptIllegal v
  · exact (h.respond _).regWrite hr v
  · exact (h.respond _).writeBufWord_of_idle hs b hj v

/-- Settles O58: every flag is clear, nothing is truncated and no command is in flight. -/
theorem resetStateMeetsInvariant : Obligations.ResetStateMeetsInvariant :=
  ⟨reset_mem_wf, ⟨rfl, rfl⟩, by decide, by decide, by decide, rfl, .inl ⟨rfl, rfl, rfl⟩, fun i hi => by cases hi⟩

/-- Reset establishes the invariant from any state (R170). -/
theorem inv_hardReset (s : State) : s.hardReset.Inv :=
  have h := resetStateMeetsInvariant
  ⟨h.memWf, h.keyZero, h.busyFlags, h.oneOutcome, h.flagOwner, h.cvalOfTrunc, h.codeOfCval, h.inFlight⟩

/-- Settles O59: by the kind of step, each of which keeps the invariant. -/
theorem everyStepKeepsInvariant : Obligations.EveryStepKeepsInvariant := by
  intro s t h hstep
  rw [step_eq_act] at hstep
  rcases act_cases hstep with ⟨off, -, rfl⟩ | ⟨off, v, -, hw⟩ | ⟨-, -, rfl⟩ | ⟨-, i, hs, rfl⟩ | ⟨-, rfl⟩
  · exact h.begun.busRead off
  · exact h.begun.busWrite hw
  · exact h.begun
  · exact h.begun.completion hs
  · exact inv_hardReset _

end Sys2Proof.Machine
end

section
/-! PROOF. State: the register map, and what the bus reads and writes at each register. -/

namespace Sys2Proof.Machine

/-! ### The register map -/

/-- Each register is located at its offset (R21). -/
theorem locate_offset (r : Reg) : locate r.offset = .reg r := by cases r <;> rfl

/-- Word `j` of a buffer is located four bytes a word from the buffer's base (R40-R42, R67). -/
theorem locate_bufWord {b : Buf} {j : Nat} (h : 4 * j < b.cap) :
    locate (BitVec.ofNat 12 (b.base + 4 * j)) = .word b j := by
  have hoff : ∀ n, n < 2 ^ 12 → (BitVec.ofNat 12 n).toNat = n := fun n hn => by
    rw [BitVec.toNat_ofNat, Nat.mod_eq_of_lt hn]
  cases b
  case dg =>
    have hj : 4 * j < 64 := h
    show locate (BitVec.ofNat 12 (0x100 + 4 * j)) = _
    simp only [locate, hoff (0x100 + 4 * j) (by omega)]
    rw [if_neg (by omega), if_pos (by omega)]
    congr 1
    omega
  case bin =>
    have hj : 4 * j < 160 := h
    show locate (BitVec.ofNat 12 (0x200 + 4 * j)) = _
    simp only [locate, hoff (0x200 + 4 * j) (by omega)]
    rw [if_neg (by omega), if_neg (by omega), if_pos (by omega)]
    congr 1
    omega
  case txt =>
    have hj : 4 * j < 256 := h
    show locate (BitVec.ofNat 12 (0x400 + 4 * j)) = _
    simp only [locate, hoff (0x400 + 4 * j) (by omega)]
    rw [if_neg (by omega), if_neg (by omega), if_neg (by omega), if_pos (by omega)]
    congr 1
    omega

/-- The registers are words 0 to 20 of the window (R21). -/
theorem regOfWord_isSome_iff (k : Nat) : (regOfWord k).isSome = true ↔ k ≤ 20 := by
  by_cases h : k ≤ 20
  · have : (regOfWord k).isSome = true := by interval_cases k <;> rfl
    simp [this, h]
  · have : regOfWord k = none := by
      unfold regOfWord
      split
      case h_22 => rfl
      all_goals omega
    simp [this, h]

/-- Which offsets answer OK (R63, R64). -/
theorem locate_answers_iff (off : Offset) : (locate off).answers = true ↔
    off.toNat % 4 = 0 ∧ (off.toNat ≤ 0x050 ∨ (0x100 ≤ off.toNat ∧ off.toNat ≤ 0x13F) ∨
      (0x200 ≤ off.toNat ∧ off.toNat ≤ 0x29F) ∨ (0x400 ≤ off.toNat ∧ off.toNat ≤ 0x4FF)) := by
  simp only [locate]
  split
  · simp only [Loc.answers, Bool.false_eq_true, false_iff]
    omega
  split
  · simp only [Loc.answers, true_iff]
    omega
  split
  · simp only [Loc.answers, true_iff]
    omega
  split
  · simp only [Loc.answers, true_iff]
    omega
  have hreg := regOfWord_isSome_iff (off.toNat / 4)
  split
  · next r hr =>
    rw [hr] at hreg
    simp only [Option.isSome_some, true_iff] at hreg
    simp only [Loc.answers, true_iff]
    omega
  · next hr =>
    rw [hr] at hreg
    simp only [Option.isSome_none, Bool.false_eq_true, false_iff] at hreg
    simp only [Loc.answers, Bool.false_eq_true, false_iff]
    omega

/-! ### Bus writes and reads at a register -/

/-- A bus write that reaches a register other than CMD is that register's write, the bus answering OK (R62). -/
theorem busWrite_offset {s : State} {r : Reg} (hr : r ≠ .cmd) (hl : s.busy = false ∨ r.locked = false) (v : Word) :
    s.busWrite r.offset v = .next ((s.respond (.write .ok)).regWrite r v) := by
  have hb : (s.busy && r.locked) = false := by rcases hl with h | h <;> simp [h]
  simp [State.busWrite, locate_offset, Loc.answers, Loc.locked, hb]

/-- A write to a read-only register is the bus answer alone, in every state (R39). -/
theorem busWrite_readOnly (s : State) {r : Reg} (hr : r.readOnly = true) (v : Word) :
    s.busWrite r.offset v = .next (s.respond (.write .ok)) := by
  have hw : (s.respond (.write .ok)).regWrite r v = s.respond (.write .ok) ∧ r ≠ .cmd ∧ r.locked = false := by
    cases r <;> simp [Reg.readOnly] at hr <;> exact ⟨rfl, nofun, rfl⟩
  obtain ⟨heq, hcmd, hlocked⟩ := hw
  rw [busWrite_offset hcmd (.inr hlocked), heq]

theorem inFlightWrites_of_idle {s : State} (h : s.seq = .idle) (l : Loc) : s.inFlightWrites l = false := by
  simp only [State.inFlightWrites, h]

theorem inFlightWrites_of_never {l : Loc} (h : ∀ i, commandWrites i l = false) (s : State) :
    s.inFlightWrites l = false := by
  rcases hs : s.seq with _ | i <;> simp only [State.inFlightWrites, hs, h]

/-- A read of a register that the command in flight, if there is one, does not write answers its value (R61, R66). -/
theorem busRead_offset {s : State} {r : Reg} (h : s.inFlightWrites (.reg r) = false) :
    (s.busRead r.offset).response = some (.read .ok (s.regRead r)) := by
  simp [State.busRead, locate_offset, Loc.answers, h, State.stored]

/-! ### STATUS as a number -/

/-- Appending is multiplying by the lower part's range and adding it. -/
theorem toNat_append_eq_add {m n : Nat} (x : BitVec m) (y : BitVec n) :
    (x ++ y).toNat = x.toNat * 2 ^ n + y.toNat := by
  rw [BitVec.toNat_append, ← Nat.shiftLeft_add_eq_or_of_lt y.isLt, Nat.shiftLeft_eq]

theorem toNat_busy (s : State) : s.busy.toNat = if s.seq = .idle then 0 else 1 := by
  by_cases h : s.seq = .idle <;> simp [State.busy, h]

/-- The place of each field of STATUS (R26). -/
theorem toNat_statusWord (s : State) :
    s.statusWord.toNat = s.busy.toNat + 2 * s.done.toNat + 4 * s.matched.toNat + 8 * s.unavail.toNat +
      16 * s.err.code.toNat + 256 * s.werr.toNat + 4096 * s.lop.toNat := by
  simp only [State.statusWord, toNat_append_eq_add, BitVec.toNat_ofBool, BitVec.toNat_ofNat]
  omega

/-! ### Fields read back (R39) -/

/-- The registers the host writes whole, each with the mask of its fields (R24, R27-R34). -/
def fieldMasks : List (Reg × Word) :=
  [(.ctrl, 0x00000001#32), (.pcfg, 0x00007F01#32), (.blen, 0x000000FF#32), (.tlen, 0x000001FF#32),
    (.dlen, 0x0000007F#32), (.window, 0x000000FF#32), (.cntLo, 0xFFFFFFFF#32), (.cntHi, 0xFFFFFFFF#32),
    (.cand0, 0xFFFFFFFF#32), (.cand1, 0xFFFFFFFF#32), (.clen, 0x0000000F#32)]

/-- The low `n` bits of a word under zeros are the word masked to them. -/
theorem zero_append_extract {n k : Nat} (h : k + n = 32) (v : Word) :
    (0#k ++ v.extractLsb' 0 n).cast h = v &&& BitVec.ofNat 32 (2 ^ n - 1) := by
  have hn : 2 ^ n ≤ 2 ^ 32 := Nat.pow_le_pow_right (by omega) (by omega)
  have hpos : 0 < 2 ^ n := Nat.two_pow_pos n
  apply BitVec.eq_of_toNat_eq
  rw [BitVec.toNat_cast, toNat_append_eq_add, BitVec.toNat_and, BitVec.toNat_ofNat, BitVec.toNat_ofNat,
    Nat.mod_eq_of_lt (show 2 ^ n - 1 < 2 ^ 32 by omega), Nat.and_two_pow_sub_one_eq_mod, BitVec.extractLsb'_toNat]
  simp

theorem ctrl_eq_mask (v : Word) : 0#31 ++ BitVec.ofBool (v.getLsbD 0) = v &&& 0x00000001#32 := by
  apply BitVec.eq_of_getLsbD_eq
  intro j hj
  simp only [BitVec.getLsbD_append, BitVec.getLsbD_and]
  interval_cases j <;> simp

theorem pcfg_eq_mask (v : Word) :
    0#17 ++ v.extractLsb' 8 7 ++ 0#7 ++ BitVec.ofBool (v.getLsbD 0) = v &&& 0x00007F01#32 := by
  apply BitVec.eq_of_getLsbD_eq
  intro j hj
  simp only [BitVec.getLsbD_append, BitVec.getLsbD_and, BitVec.getLsbD_extractLsb']
  interval_cases j <;> simp

/-- A register reads back what was written, its reserved bits 0 (R39). -/
theorem regRead_regWrite {r : Reg} {m : Word} (h : (r, m) ∈ fieldMasks) (s : State) (v : Word) :
    (s.regWrite r v).regRead r = v &&& m := by
  simp only [fieldMasks, List.mem_cons, Prod.mk.injEq, List.not_mem_nil, or_false] at h
  have hall : v = v &&& 0xFFFFFFFF#32 := (BitVec.and_allOnes (x := v)).symm
  rcases h with ⟨rfl, rfl⟩ | ⟨rfl, rfl⟩ | ⟨rfl, rfl⟩ | ⟨rfl, rfl⟩ | ⟨rfl, rfl⟩ | ⟨rfl, rfl⟩ | ⟨rfl, rfl⟩ |
    ⟨rfl, rfl⟩ | ⟨rfl, rfl⟩ | ⟨rfl, rfl⟩ | ⟨rfl, rfl⟩
  · exact ctrl_eq_mask v
  · exact pcfg_eq_mask v
  · exact zero_append_extract (n := 8) (k := 24) rfl v
  · exact zero_append_extract (n := 9) (k := 23) rfl v
  · exact zero_append_extract (n := 7) (k := 25) rfl v
  · exact zero_append_extract (n := 8) (k := 24) rfl v
  · exact hall
  · exact hall
  · exact hall
  · exact hall
  · exact zero_append_extract (n := 4) (k := 28) rfl v

/-- A register write starts no command and ends none. -/
theorem seq_regWrite (s : State) (r : Reg) (v : Word) : (s.regWrite r v).seq = s.seq := by cases r <;> rfl

/-- No command writes CTRL (R83). -/
theorem commandWrites_ctrl (i : Instr) : commandWrites i (.reg .ctrl) = false := by cases i <;> rfl

/-- No command lists STATUS in its 'written' column (R66, R83). -/
theorem commandWrites_status (i : Instr) : commandWrites i (.reg .status) = false := by cases i <;> rfl

/-- A register with fields written while IDLE, or CTRL at any time, reads back at once (R39, R62). -/
theorem busRead_after_busWrite {s : State} {r : Reg} {m : Word} (h : (r, m) ∈ fieldMasks)
    (hs : s.seq = .idle ∨ r = .ctrl) (v : Word) :
    ∃ t, s.busWrite r.offset v = .next t ∧ (t.busRead r.offset).response = some (.read .ok (v &&& m)) := by
  have hcmd : r ≠ .cmd := by
    rintro rfl
    simp [fieldMasks] at h
  have hl : s.busy = false ∨ r.locked = false :=
    hs.imp (State.busy_false_iff s).mpr fun hr => by rw [hr]; rfl
  refine ⟨_, busWrite_offset hcmd hl v, ?_⟩
  rw [busRead_offset, regRead_regWrite h]
  rcases hs with hs | rfl
  · exact inFlightWrites_of_idle ((seq_regWrite (s.respond _) r v).trans hs) _
  · exact inFlightWrites_of_never commandWrites_ctrl _

/-! ### The statements -/

/-- Settles O47: register by register and buffer by buffer; which offsets answer is `locate_answers_iff`. -/
theorem registerMapLocatesEveryWord : Obligations.RegisterMapLocatesEveryWord :=
  ⟨rfl, locate_offset, by decide, fun _ _ => locate_bufWord, locate_answers_iff⟩

/-- Settles O54: no command writes STATUS, so the read answers it; its number is the sum of its fields' places. -/
theorem statusWordLayout : Obligations.StatusWordLayout := by
  intro s
  refine ⟨busRead_offset (r := .status) (inFlightWrites_of_never commandWrites_status s), ?_⟩
  rw [toNat_statusWord, toNat_busy]
  cases s.err <;> rfl

/-- Settles O51: the eight offsets are those of read-only registers. -/
theorem readOnlyWritesHaveNoEffect : Obligations.ReadOnlyWritesHaveNoEffect := by
  intro s off v h
  have hr : ∃ r : Reg, off = r.offset ∧ r.readOnly = true := by
    simp only [List.mem_cons, List.not_mem_nil, or_false] at h
    rcases h with rfl | rfl | rfl | rfl | rfl | rfl | rfl | rfl
    exacts [⟨.id, rfl, rfl⟩, ⟨.param, rfl, rfl⟩, ⟨.trunc, rfl, rfl⟩, ⟨.cval, rfl, rfl⟩, ⟨.code0, rfl, rfl⟩,
      ⟨.code1, rfl, rfl⟩, ⟨.nowLo, rfl, rfl⟩, ⟨.nowHi, rfl, rfl⟩]
  obtain ⟨r, rfl, hro⟩ := hr
  exact busWrite_readOnly s hro v

/-- Settles O52: each write is `regWrite` (CTRL is never locked), and its fields read back under the register's mask. -/
theorem registersReadBackTheirFields : Obligations.RegistersReadBackTheirFields := by
  intro s v
  refine ⟨busWrite_offset (r := .ctrl) nofun (.inr rfl) v, fun hs => ?_, fun off m hs hm => ?_⟩
  · have hw : ∀ {r : Reg}, r ≠ .cmd → s.busWrite r.offset v = .next ((s.respond (.write .ok)).regWrite r v) :=
      fun hr => busWrite_offset hr (.inl ((State.busy_false_iff s).mpr hs)) v
    exact ⟨hw (r := .pcfg) nofun, hw (r := .blen) nofun, hw (r := .tlen) nofun, hw (r := .dlen) nofun,
      hw (r := .window) nofun, hw (r := .cntLo) nofun, hw (r := .cntHi) nofun, hw (r := .cand0) nofun,
      hw (r := .cand1) nofun, hw (r := .clen) nofun⟩
  · have hp : (off, m) ∈ fieldMasks.map fun p => (p.1.offset, p.2) := hm
    obtain ⟨⟨r, m'⟩, hr, heq⟩ := List.mem_map.mp hp
    obtain ⟨rfl, rfl⟩ := Prod.mk.injEq .. ▸ heq
    refine busRead_after_busWrite hr (hs.imp_right fun ho => ?_) v
    exact Loc.reg.inj ((locate_offset r).symm.trans (congrArg locate ho))

/-- Settles O55: STATUS is never locked, and its write is the acknowledgement. -/
theorem statusWriteClearsDoneAndWerrOnly : Obligations.StatusWriteClearsDoneAndWerrOnly :=
  fun _ v => busWrite_offset (r := .status) nofun (.inr rfl) v

/-- Settles O56: no command writes ID, PARAM or CMD, and ID and PARAM are read-only. -/
theorem fixedRegistersReadTheirConstants : Obligations.FixedRegistersReadTheirConstants := by
  intro s v
  have hr : ∀ r : Reg, (∀ i, commandWrites i (.reg r) = false) →
      (s.busRead r.offset).response = some (.read .ok (s.regRead r)) :=
    fun r hn => busRead_offset (inFlightWrites_of_never hn s)
  exact ⟨hr .id fun i => by cases i <;> rfl, hr .param fun i => by cases i <;> rfl, hr .cmd fun i => by cases i <;> rfl,
    busWrite_readOnly s (r := .id) rfl v, busWrite_readOnly s (r := .param) rfl v⟩

end Sys2Proof.Machine
end

section
/-! PROOF. State: which steps change the interrupt output, the configuration, NOW and the operands in flight. -/

namespace Sys2Proof.Machine

/-! ### The registers a step may leave alone -/

/-- The fields of CTRL, PCFG, WINDOW and CNT. -/
def State.config (s : State) : Bool × Bool × BitVec 7 × BitVec 8 × Word × Word :=
  (s.ctrlIe, s.pcfgEn, s.pcfgDsize, s.window, s.cntLo, s.cntHi)

/-- The sample in NOW_HI and NOW_LO. -/
def State.now (s : State) : Word × Word := (s.nowHi, s.nowLo)

theorem config_begun (s : State) : s.begun.config = s.config := by
  obtain ⟨tu, inp, h⟩ := begun_frame s
  rw [h]
  rfl

theorem now_begun (s : State) : s.begun.now = s.now := by
  obtain ⟨tu, inp, h⟩ := begun_frame s
  rw [h]
  rfl

theorem seq_begun (s : State) : s.begun.seq = s.seq := by
  obtain ⟨tu, inp, h⟩ := begun_frame s
  rw [h]

theorem config_busRead (s : State) (off : Offset) : (s.busRead off).config = s.config := by
  obtain ⟨n, r, h⟩ := busRead_frame s off
  rw [h]
  rfl

theorem now_busRead (s : State) (off : Offset) : (s.busRead off).now = s.now := by
  obtain ⟨n, r, h⟩ := busRead_frame s off
  rw [h]
  rfl

theorem now_regWrite (s : State) (r : Reg) (v : Word) : (s.regWrite r v).now = s.now := by cases r <;> rfl

/-- Only the five registers' own writes change the configuration. -/
theorem config_regWrite (s : State) {r : Reg} (h : r ∉ [Reg.ctrl, .pcfg, .window, .cntLo, .cntHi]) (v : Word) :
    (s.regWrite r v).config = s.config := by
  cases r
  case ctrl | pcfg | window | cntLo | cntHi => simp at h
  all_goals rfl

/-- A completion changes neither the configuration nor NOW. -/
theorem config_now_completionPart (i : Instr) (s : State) :
    (completionPart i s).config = s.config ∧ (completionPart i s).now = s.now := by
  rcases completionPart_cases i s with ⟨-, -, hu⟩ | ⟨-, u, e, m, hu, hf, -⟩
  · rw [hu]
    exact ⟨rfl, rfl⟩
  · rw [hu]
    simp only [State.config, State.now, State.complete_ctrlIe, State.complete_pcfgEn, State.complete_pcfgDsize,
      State.complete_window, State.complete_cntLo, State.complete_cntHi, State.complete_nowHi, State.complete_nowLo,
      hf.ctrlIe, hf.pcfgEn, hf.pcfgDsize, hf.window, hf.cntLo, hf.cntHi, hf.nowHi, hf.nowLo, and_self]

/-- What an accept may change: the sequencer, the status flags, KEY, CTX, NOW and the draws (R151, R155). -/
theorem acceptPart_frame (i : Instr) (s : State) :
    ∃ sq d ma un e k kl cx hi lo n, acceptPart i s = { s with
      seq := sq, done := d, matched := ma, unavail := un, err := e, key := k, klen := kl, ctx := cx
      nowHi := hi, nowLo := lo, draws := n } := by
  obtain ⟨ds, w, now, hi, lo, n, hl⟩ := latched_frame i s
  obtain ⟨now', hi', lo', n', hs⟩ := sampled_frame i s
  rcases acceptPart_cases i s with ⟨ha, -⟩ | ⟨e, -, ha⟩ | ⟨-, -, ha⟩
  · exact ⟨_, _, _, _, _, _, _, _, _, _, _, by rw [ha, hl]; rfl⟩
  · exact ⟨_, _, _, _, _, _, _, _, _, _, _, by rw [ha, hs]; rfl⟩
  · exact ⟨_, _, _, _, _, _, _, _, _, _, _, by rw [ha, hs]; rfl⟩

theorem config_acceptPart (i : Instr) (s : State) : (acceptPart i s).config = s.config := by
  obtain ⟨sq, d, ma, un, e, k, kl, cx, hi, lo, n, h⟩ := acceptPart_frame i s
  rw [h]
  rfl

/-- Only VALIDATE samples the time at its accept (R131). -/
theorem now_acceptPart {i : Instr} (hi : i ≠ .validate) (s : State) : (acceptPart i s).now = s.now := by
  have hl : (latched i s).now = s.now ∧ (sampled i s).now = s.now := by
    cases i
    case validate => exact absurd rfl hi
    all_goals exact ⟨rfl, rfl⟩
  rcases acceptPart_cases i s with ⟨ha, -⟩ | ⟨e, -, ha⟩ | ⟨-, -, ha⟩
  · rw [ha]
    exact hl.1
  · rw [ha]
    exact hl.2
  · rw [ha]
    exact hl.2

/-! ### The decoder read backwards -/

theorem eq_opcode_of_instrOfOp {op : BitVec 4} {i : Instr} (h : instrOfOp op = some i) : op = opcode i := by
  apply BitVec.eq_of_toNat_eq
  unfold instrOfOp at h
  split at h
  case h_7 => cases h
  all_goals next hop => cases h; exact hop

/-- A word that decodes to a command is that command's encoding (R80-R82). -/
theorem eq_encode_of_decode {v : Word} {i : Instr} (h : decode v = .ok i) : v = encode i := by
  unfold decode at h
  split at h
  · next hrsvd =>
    split at h
    · next j hj =>
      cases h
      have hv : cmdRsvd v ++ cmdOp v = v :=
        (BitVec.extractLsb'_append_extractLsb'_eq_extractLsb' (start₁ := 0) (len₁ := 4) rfl).trans
          BitVec.extractLsb'_eq_self
      rw [← hv, hrsvd, eq_opcode_of_instrOfOp hj, encode]
    · cases h
  · cases h

/-! ### Bus writes and steps -/

/-- A bus write outside the five offsets changes no configuration. -/
theorem config_busWrite {s t : State} {off : Offset} {v : Word} (h : s.busWrite off v = .next t)
    (hoff : ∀ r ∈ [Reg.ctrl, .pcfg, .window, .cntLo, .cntHi], off ≠ r.offset) : t.config = s.config := by
  rcases busWrite_cases s off v t h with ⟨-, rfl⟩ | ⟨-, -, rfl⟩ | ⟨-, hs, i, -, he⟩ | ⟨-, -, -, rfl⟩ |
    ⟨r, ho, -, -, rfl⟩ | ⟨b, j, -, -, -, rfl⟩
  · rfl
  · rfl
  · rw [eq_acceptPart_of_exec (s := s.respond _) hs he, config_acceptPart]
    rfl
  · rfl
  · rw [config_regWrite _ fun hr => hoff r hr ho]
    rfl
  · rfl

/-- A bus write changes NOW only where it is the accept of VALIDATE. -/
theorem now_busWrite {s t : State} {off : Offset} {v : Word} (h : s.busWrite off v = .next t) :
    t.now = s.now ∨ (off = 0x00C#12 ∧ v = encode .validate ∧ s.seq = .idle) := by
  rcases busWrite_cases s off v t h with ⟨-, rfl⟩ | ⟨-, -, rfl⟩ | ⟨ho, hs, i, hd, he⟩ | ⟨-, -, -, rfl⟩ |
    ⟨r, ho, -, -, rfl⟩ | ⟨b, j, -, -, -, rfl⟩
  · exact .inl rfl
  · exact .inl rfl
  · by_cases hi : i = .validate
    · exact .inr ⟨ho, hi ▸ eq_encode_of_decode hd, hs⟩
    · rw [eq_acceptPart_of_exec (s := s.respond _) hs he, now_acceptPart hi]
      exact .inl rfl
  · exact .inl rfl
  · exact .inl (now_regWrite (s.respond _) r v)
  · exact .inl rfl

/-- A bus write while BUSY changes CTRL.IE, DONE, WERR and the answer at most (R65). -/
theorem busWrite_frame_of_busy {s t : State} {off : Offset} {v : Word} {i : Instr} (hs : s.seq = .run i)
    (h : s.busWrite off v = .next t) :
    ∃ ie d we r, t = { s with ctrlIe := ie, done := d, werr := we, response := r } := by
  have hidle : s.seq ≠ .idle := by simp [hs]
  rcases busWrite_cases s off v t h with ⟨-, rfl⟩ | ⟨-, -, rfl⟩ | ⟨-, hi, -⟩ | ⟨-, hi, -⟩ | ⟨r, -, -, hr, rfl⟩ |
    ⟨b, j, -, -, hi, -⟩
  · exact ⟨_, _, _, _, rfl⟩
  · exact ⟨_, _, _, _, rfl⟩
  · exact absurd hi hidle
  · exact absurd hi hidle
  · obtain ⟨ie, d, we, hw⟩ := regWrite_frame_of_unlocked (s.respond _) (hr ((State.busy_iff s).mpr hidle)) v
    exact ⟨_, _, _, _, hw⟩
  · exact absurd hi hidle

/-- A step that leaves a command in flight changes CTRL.IE, DONE, WERR and the model's own fields at most: it is a bus
transaction, or a completion that the provider does not answer (R65, R73, U9). -/
theorem step_frame_of_stays_in_flight {s t : State} {i : Instr} (hs : s.seq = .run i) (h : step s = .next t)
    (ht : t.seq = .run i) :
    ∃ ie d we tu inp n r rq, t = { s with
      ctrlIe := ie, done := d, werr := we, turns := tu, inputs := inp, draws := n, response := r, requests := rq } := by
  rw [step_eq_act] at h
  obtain ⟨tu, inp, hb⟩ := begun_frame s
  have hbs : s.begun.seq = .run i := (seq_begun s).trans hs
  rcases act_cases h with ⟨off, -, rfl⟩ | ⟨off, v, -, hw⟩ | ⟨-, hidle, -⟩ | ⟨-, j, -, rfl⟩ | ⟨-, rfl⟩
  · obtain ⟨n, r, hr⟩ := busRead_frame s.begun off
    exact ⟨_, _, _, _, _, _, _, _, by rw [hr, hb]⟩
  · obtain ⟨ie, d, we, r, rfl⟩ := busWrite_frame_of_busy hbs hw
    exact ⟨_, _, _, _, _, _, _, _, by rw [hb]⟩
  · cases hbs.symm.trans hidle
  · rcases completionPart_cases j s.begun with ⟨-, -, hu⟩ | ⟨-, u, e, m, hu, -⟩
    · exact ⟨_, _, _, _, _, _, _, _, by rw [hu, hb]⟩
    · simp [hu] at ht
  · cases ht

/-! ### The statements -/

/-- Settles O42: by what a completion, an accept, and the STATUS and CTRL writes do to DONE and IE. -/
theorem interruptFollowsDoneAndEnable : Obligations.InterruptFollowsDoneAndEnable := by
  refine ⟨fun s i t hs hans he => ?_, fun s i t hs he ht => ?_, fun s v t hw hv => ?_, fun s v t hw => ?_⟩
  · rw [eq_completionPart_of_exec hs he]
    have hie := (Prod.mk.inj (config_now_completionPart i s).1).1
    simp [State.irq, (completionPart_seq_done hans).2, hie]
  · rw [eq_acceptPart_of_exec hs he] at ht ⊢
    obtain ⟨ds, w, now, hi, lo, n, hl⟩ := latched_frame i (s.recorded i)
    rcases acceptPart_cases i (s.recorded i) with ⟨ha, -⟩ | ⟨e, -, ha⟩ | ⟨-, -, ha⟩
    · rw [ha, hl]
      rfl
    · simp [ha] at ht
    · simp [ha] at ht
  · cases (busWrite_offset (r := .status) nofun (.inr rfl) v).symm.trans hw
    simp [State.irq, State.regWrite, hv]
  · cases (busWrite_offset (r := .ctrl) nofun (.inr rfl) v).symm.trans hw
    exact ⟨rfl, rfl⟩

/-- Settles O43: of the kinds of step only a reset and the accept of VALIDATE change NOW. -/
theorem nowChangesOnlyAtValidateAccept : Obligations.NowChangesOnlyAtValidateAccept := by
  intro s t h hne
  have hnow : t.now ≠ s.begun.now := by
    rw [now_begun]
    intro heq
    obtain ⟨hhi, hlo⟩ := Prod.mk.inj heq
    exact hne.elim (· hhi) (· hlo)
  rw [step_eq_act] at h
  rcases act_cases h with ⟨off, -, rfl⟩ | ⟨off, v, ha, hw⟩ | ⟨-, -, rfl⟩ | ⟨-, i, -, rfl⟩ | ⟨ha, -⟩
  · exact absurd (now_busRead _ _) hnow
  · rcases now_busWrite hw with hn | ⟨rfl, rfl, hs⟩
    · exact absurd hn hnow
    · obtain ⟨u, rest, hu, hact⟩ := nextAction_eq ha nofun
      exact ⟨u, rest, hu, .inr ⟨(seq_begun s).symm.trans hs, hact⟩⟩
  · exact absurd rfl hnow
  · exact absurd (config_now_completionPart i _).2 hnow
  · obtain ⟨u, rest, hu, hact⟩ := nextAction_eq ha nofun
    exact ⟨u, rest, hu, .inl hact⟩

/-- Settles O44: every kind of step but a reset and a write to the five registers keeps their fields. -/
theorem configurationChangesOnlyByHost : Obligations.ConfigurationChangesOnlyByHost := by
  intro s t h hhost
  have hconfig : t.config = s.begun.config := by
    rw [step_eq_act] at h
    rcases act_cases h with ⟨off, -, rfl⟩ | ⟨off, v, ha, hw⟩ | ⟨-, -, rfl⟩ | ⟨-, i, -, rfl⟩ | ⟨ha, -⟩
    · exact config_busRead _ _
    · obtain ⟨u, rest, hu, hact⟩ := nextAction_eq ha nofun
      obtain ⟨-, hoff⟩ := hhost u rest hu
      obtain ⟨hctrl, hpcfg, hwindow, hlo, hhi⟩ := hoff v
      refine config_busWrite hw fun r hr ho => ?_
      rw [hact, ho] at hctrl hpcfg hwindow hlo hhi
      simp only [List.mem_cons, List.not_mem_nil, or_false] at hr
      rcases hr with rfl | rfl | rfl | rfl | rfl
      exacts [hctrl rfl, hpcfg rfl, hwindow rfl, hlo rfl, hhi rfl]
    · rfl
    · exact (config_now_completionPart i _).1
    · obtain ⟨u, rest, hu, hact⟩ := nextAction_eq ha nofun
      exact absurd hact (hhost u rest hu).1
  rw [config_begun] at hconfig
  simpa only [State.config, Prod.mk.injEq] using hconfig

/-- Settles O46: what a step may change while the command stays in flight is none of these. -/
theorem operandsAreLockedWhileInFlight : Obligations.OperandsAreLockedWhileInFlight := by
  intro s t i hs h ht
  obtain ⟨ie, d, we, tu, inp, n, r, rq, rfl⟩ := step_frame_of_stays_in_flight hs h ht
  exact ⟨rfl, rfl, rfl, rfl, rfl, rfl, rfl, rfl, rfl, rfl, rfl, rfl, rfl, rfl, rfl, rfl, rfl, rfl⟩

/-- Settles O34: of the two ways a completion can go, a silent provider leaves the one that changes nothing. -/
theorem silentProviderLeavesBusy : Obligations.SilentProviderLeavesBusy := by
  intro s i hs hasks hsilent
  rcases completionPart_cases i s with ⟨-, -, hu⟩ | ⟨hans, -⟩
  · rw [exec_of_run hs, hu]
  · exact absurd hsilent (hans hasks)

end Sys2Proof.Machine
end

section
/-! PROOF. State: BIN does not reach the results of GENERATE and VALIDATE. -/

namespace Sys2Proof.Machine

/-- `u` differs from `s` in the bytes of BIN only (R41). -/
def BinTwin (s u : State) : Prop :=
  u = { s with mem := u.mem } ∧ ∀ a, ¬ (0x200 ≤ a ∧ a < 0x2A0) → u.readByte a = s.readByte a

/-- What does not depend on the buffers is the same of both. -/
theorem BinTwin.eq_of {s u : State} (h : BinTwin s u) {α : Type} (f : State → α)
    (hf : ∀ (x : State) (m : Memory), f { x with mem := m } = f x) : f u = f s :=
  (congrArg f h.1).trans (hf s u.mem)

/-- An operation that neither reads nor writes the buffers keeps the relation. -/
theorem BinTwin.map {s u : State} (h : BinTwin s u) {f : State → State}
    (hf : ∀ (x : State) (m : Memory), f { x with mem := m } = { f x with mem := m })
    (he : ∀ x, (f x).epoch = x.epoch) : BinTwin (f s) (f u) := by
  obtain ⟨hu, hr⟩ := h
  have hmem : ∀ x, (f x).mem = x.mem := fun x => (congrArg State.mem (hf x x.mem) :)
  refine ⟨?_, fun a ha => ?_⟩
  · rw [hmem u]
    exact (congrArg f hu).trans (hf s u.mem)
  · rw [State.readByte_congr (hmem u) (he u), State.readByte_congr (hmem s) (he s)]
    exact hr a ha

/-- The same bytes stored in two memories leave an address alike that was alike before. -/
theorem readByte_store_congr {s u : State} {a : Nat} (h : u.readByte a = s.readByte a) (b : Nat) (bs : List Byte) :
    State.readByte { u with mem := u.mem.store b bs } a = State.readByte { s with mem := s.mem.store b bs } a := by
  simp only [State.readByte, get?_store]
  split
  · next hin =>
    have hlt : a - b < bs.length := by omega
    simp [hlt]
  · exact h

/-- A provider call reads no buffer: its digest is the same, and only DG's bytes are written (R121). -/
theorem hcall_with_mem (s : State) (m : Memory) (msg : List Byte) (n : Nat) :
    ({ s with mem := m } : State).hcall msg n =
      ((s.hcall msg n).1, { (s.hcall msg n).2 with mem := m.store 0x100 ((s.hcall msg n).1.take 64) }) := by
  have hkey : ({ s with mem := m } : State).keyBytes = s.keyBytes := rfl
  have hkept : ({ s with mem := m } : State).answerKept s.keyBytes msg n = s.answerKept s.keyBytes msg n := rfl
  cases hans : s.answerKept s.keyBytes msg n <;>
    simp only [State.hcall, State.hmacCall, hkey, hkept, hans] <;> rfl

theorem BinTwin.hcall {s u : State} (h : BinTwin s u) (msg : List Byte) (n : Nat) :
    (u.hcall msg n).1 = (s.hcall msg n).1 ∧ BinTwin (s.hcall msg n).2 (u.hcall msg n).2 := by
  obtain ⟨hu, hr⟩ := h
  obtain ⟨d, k, hs, -⟩ := hcall_spec s msg n
  have hcall := (congrArg (State.hcall · msg n) hu).trans (hcall_with_mem s u.mem msg n)
  rw [hs] at hcall ⊢
  dsimp only at hcall ⊢
  rw [hcall]
  refine ⟨rfl, rfl, fun a ha => ?_⟩
  exact readByte_store_congr ((congrArg (State.readByte · a) hu).symm.trans (hr a ha)) 0x100 (d.take 64)

theorem BinTwin.setCode {s u : State} (h : BinTwin s u) (t : BitVec 31) : BinTwin (s.setCode t) (u.setCode t) :=
  h.map (f := (·.setCode t)) (fun _ _ => rfl) fun _ => rfl

theorem BinTwin.setKey {s u : State} (h : BinTwin s u) (k : List Byte) : BinTwin (s.setKey k) (u.setKey k) :=
  h.map (f := (·.setKey k)) (fun _ _ => rfl) fun _ => rfl

theorem BinTwin.complete {s u : State} (h : BinTwin s u) (e : ErrCode) (m un : Bool) :
    BinTwin (s.complete e m un) (u.complete e m un) :=
  h.map (f := (·.complete e m un)) (fun _ _ => rfl) fun _ => rfl

/-- The scan keeps the relation: every counter gets the same digest, code and comparison in both states. -/
theorem BinTwin.scanWindow {s u : State} (h : BinTwin s u) (cs : List Int) :
    BinTwin (scanWindow s cs) (scanWindow u cs) := by
  induction cs generalizing s u with
  | nil => exact h.complete _ _ _
  | cons c cs ih =>
    have hctx : u.ctx = s.ctx := h.eq_of State.ctx fun _ _ => rfl
    obtain ⟨hd, h2⟩ := h.hcall (be64 c) s.ctx.dsize.toNat
    simp only [Machine.scanWindow, hctx, hd]
    split
    · exact h2.complete _ _ _
    · next t _ =>
      have h3 := h2.setCode t
      rw [h3.eq_of State.codeEq fun _ _ => rfl]
      split
      · exact h3.complete _ _ _
      · exact ih h3

/-- TXT lies outside BIN, so the secret is the same (R43). -/
theorem BinTwin.txtArg {s u : State} (h : BinTwin s u) : u.txtArg = s.txtArg := by
  have htlen : u.tlen = s.tlen := h.eq_of State.tlen fun _ _ => rfl
  rw [State.txtArg, htlen]
  refine readBuf_congr fun i _ => h.2 _ ?_
  simp only [Buf.base]
  omega

theorem BinTwin.completeGenerate {s u : State} (h : BinTwin s u) :
    BinTwin (completeGenerate s) (completeGenerate u) := by
  have hinputs : u.inputs = s.inputs := h.eq_of State.inputs fun _ _ => rfl
  have hctx : u.ctx = s.ctx := h.eq_of State.ctx fun _ _ => rfl
  have hcnt : u.cnt = s.cnt := h.eq_of State.cnt fun _ _ => rfl
  obtain ⟨hd, h2⟩ := (h.setKey (b32dec s.txtArg)).hcall (be64 s.cnt) s.ctx.dsize.toNat
  simp only [Machine.completeGenerate, hinputs, hctx, hcnt, h.txtArg, hd]
  split
  · exact h
  split
  · exact h2.complete _ _ _
  · exact (h2.setCode _).complete _ _ _

theorem BinTwin.completeValidate {s u : State} (h : BinTwin s u) :
    BinTwin (completeValidate s) (completeValidate u) := by
  have hinputs : u.inputs = s.inputs := h.eq_of State.inputs fun _ _ => rfl
  have hctx : u.ctx = s.ctx := h.eq_of State.ctx fun _ _ => rfl
  simp only [Machine.completeValidate, hinputs, hctx, h.txtArg]
  split
  · exact h
  · exact (h.setKey _).scanWindow _

/-- Settles O39: the two states are twins, and each of the two completions keeps twins. -/
theorem binDoesNotReachEngineResults : Obligations.BinDoesNotReachEngineResults := by
  intro s m i t u hi hs _ hagree ht hu
  have htwin : BinTwin s { s with mem := m } := ⟨rfl, hagree⟩
  rw [eq_completionPart_of_exec hs ht, eq_completionPart_of_exec (s := { s with mem := m }) hs hu]
  rcases hi with rfl | rfl
  · exact htwin.completeGenerate
  · exact htwin.completeValidate

end Sys2Proof.Machine
end

section
/-! PROOF. State: GENERATE and VALIDATE with any provider that answers, call by call. -/

namespace Sys2Proof.Machine

/-! ### The comparison with the candidate (R124) -/

/-- CODEEQ is the equality of the candidate string and the code string. -/
theorem codeEq_iff_candStr (s : State) : s.codeEq = true ↔ s.candStr = some s.codeStr := by
  simp only [State.codeEq, Bool.and_eq_true, decide_eq_true_eq, List.all_eq_true, List.mem_range, State.candStr]
  constructor
  · rintro ⟨hl, h⟩
    rw [hl, if_pos (by omega), State.codeStr]
    exact congrArg some (List.map_congr_left fun i hi => h i (List.mem_range.mp hi))
  · intro h
    split at h
    · injection h with h
      have hl : s.clen.toNat = 6 := by simpa [State.codeStr] using congrArg List.length h
      rw [hl, State.codeStr] at h
      exact ⟨hl, fun i hi => List.map_inj_left.mp h i (List.mem_range.mpr hi)⟩
    · cases h

/-- After SETCODE the comparison asks whether the candidate is the code of that value. -/
theorem codeEq_setCode_iff (s : State) (v : BitVec 31) : (s.setCode v).codeEq = true ↔ s.candidateIs v := by
  rw [codeEq_iff_candStr, codeStr_setCode, candStr_setCode]
  rfl

/-! ### GENERATE -/

/-- The provider call where the contract is broken (R52, U4). -/
theorem hcall_of_broken {s : State} {msg : List Byte} {n : Nat} (h : s.answerKept s.keyBytes msg n = false) :
    s.hcall msg n = ((List.range n).map (Config.freeDigestByte s.draws),
      s.afterCall msg n ((List.range n).map (Config.freeDigestByte s.draws)) (s.draws + 1)) := by
  obtain ⟨d, k, hcall, -, -, hd⟩ := hcall_spec s msg n
  obtain ⟨rfl, rfl⟩ := hd h
  exact hcall

/-- GENERATE's completion by what its one call answers (R130). -/
theorem completeGenerate_of_hcall {s u : State} {d : List Byte} (hc : s.inputs.conduct ≠ .silent)
    (hcall : (s.setKey s.secret).hcall (be64 s.cnt) s.ctx.dsize.toNat = (d, u)) :
    (dt d = none → completeGenerate s = u.complete .truncRange false false) ∧
      ∀ v, dt d = some v → completeGenerate s = (u.setCode v).complete .noError false false := by
  rw [State.secret] at hcall
  refine ⟨fun hd => ?_, fun v hd => ?_⟩ <;> simp only [completeGenerate, if_neg hc, hcall, hd, State.raiseError_eq]

/-- What a provider call leaves in DLEN and DG where the size fits DG (R121). -/
theorem dg_afterCall (s : State) (msg : List Byte) {ds : BitVec 7} {d : List Byte} (k : Nat) (hd : d.length = ds.toNat)
    (hds : ds.toNat ≤ 64) :
    (s.afterCall msg ds.toNat d k).dlen = ds ∧ (s.afterCall msg ds.toNat d k).readBuf .dg ds.toNat = d := by
  refine ⟨by simp, ?_⟩
  have h := readBuf_dg_afterCall s msg ds.toNat k (d := d) (by omega)
  rwa [hd] at h

/-- GENERATE completes by its rule on digest bytes that are all draws. -/
theorem generate_completes_on_draws {s : State} (hs : s.seq = .run .generate) (hds : s.ctx.dsize.toNat ≤ 64)
    (hbroken : s.inputs.conduct = .breaksContract ∨
      s.inputs.conduct = .keepsContract ∧ (s.counterDigest s.cnt).length ≠ s.ctx.dsize.toNat) :
    let d := (List.range s.ctx.dsize.toNat).map (Config.freeDigestByte s.draws)
    ∃ t, exec .generate s = .next t ∧
      t.readBuf .dg s.ctx.dsize.toNat = d ∧ t.dlen = s.ctx.dsize ∧
      t.seq = .idle ∧ t.done = true ∧ t.matched = false ∧ t.unavail = false ∧
      (dt d = none → t.err = .truncRange ∧ t.keepsCodeOf s) ∧
      ∀ v : BitVec 31, dt d = some v → t.err = .noError ∧ t.holdsCode v := by
  intro d
  have hkept : (s.setKey s.secret).answerKept (s.setKey s.secret).keyBytes (be64 s.cnt) s.ctx.dsize.toNat = false := by
    rw [State.keyBytes_setKey]
    rcases hbroken with hc | ⟨-, hl⟩
    · simp [State.answerKept, hc]
    · exact Bool.and_eq_false_iff.mpr (.inr (decide_eq_false hl))
  obtain ⟨hnone, hsome⟩ := completeGenerate_of_hcall (by rcases hbroken with hc | ⟨hc, -⟩ <;> simp [hc])
    (hcall_of_broken hkept)
  obtain ⟨hdlen, hdg⟩ := dg_afterCall (s.setKey s.secret) (be64 s.cnt) (d := d) (s.draws + 1) (by simp [d]) hds
  refine ⟨completeGenerate s, exec_of_run hs, ?_⟩
  rcases hd : dt d with _ | v
  · rw [hnone hd]
    exact ⟨hdg, hdlen, rfl, rfl, rfl, rfl, fun _ => ⟨rfl, rfl, rfl, rfl, rfl⟩, nofun⟩
  · rw [hsome v hd]
    refine ⟨hdg, hdlen, rfl, rfl, rfl, rfl, nofun, fun v' hv => ?_⟩
    obtain rfl := Option.some.inj hv
    exact ⟨rfl, holdsCode_setCode
      ((s.setKey s.secret).afterCall (be64 s.cnt) s.ctx.dsize.toNat d (s.draws + 1)) v⟩

/-! ### VALIDATE: the calls of the scan -/

/-- `d k` is the digest of call `k` for counter `start + k`, and `q k` the draws made before it, for the calls 0..m-1: a
call whose contract is kept uses `HMAC_FN`, every other one a fresh draw (R52, U4). -/
def DigestsOf (s : State) (start : Int) (d : Nat → List Byte) (q : Nat → Nat) (m : Nat) : Prop :=
  ∀ k, k < m →
    (s.inputs.conduct = .keepsContract ∧ (s.counterDigest (start + (k : Int))).length = s.ctx.dsize.toNat →
      d k = s.counterDigest (start + (k : Int)) ∧ q (k + 1) = q k) ∧
    (¬ (s.inputs.conduct = .keepsContract ∧ (s.counterDigest (start + (k : Int))).length = s.ctx.dsize.toNat) →
      d k = (List.range s.ctx.dsize.toNat).map (Config.freeDigestByte (q k)) ∧ q (k + 1) = q k + 1)

/-- `u` is `s` with KEY written and the calls 0..n-1 made (R121, R131). -/
structure Called (s : State) (start : Int) (d : Nat → List Byte) (q : Nat → Nat) (n : Nat) (u : State) : Prop where
  key : u.keyBytes = s.secret
  inputs : u.inputs = s.inputs
  hmacPoints : u.hmacPoints = s.hmacPoints
  ctx : u.ctx = s.ctx
  candStr : u.candStr = s.candStr
  draws : u.draws = q n
  requests : u.requests = s.requests ++ (List.range n).map (fun (k : Nat) => s.counterRequest (start + (k : Int)))
  noCall : n = 0 → u.mem = s.mem ∧ u.dlen = s.dlen
  lastCall : 1 ≤ n → u.dlen = s.ctx.dsize ∧ u.readBuf .dg s.ctx.dsize.toNat = d (n - 1)

/-- The code registers after calls 0..n-1 that all truncated. -/
def CodeAfter (s : State) (d : Nat → List Byte) (n : Nat) (u : State) : Prop :=
  (n = 0 → u.keepsCodeOf s) ∧ (1 ≤ n → ∀ v, dt (d (n - 1)) = some v → u.holdsCode v)

/-- Calls 0..n-1 truncated and did not match. -/
def PassedAll (s : State) (d : Nat → List Byte) (n : Nat) : Prop :=
  ∀ k, k < n → ∃ v, dt (d k) = some v ∧ ¬ s.candidateIs v

theorem keepsCodeOf_trans {s t u : State} (hut : u.keepsCodeOf t) (hts : t.keepsCodeOf s) :
    u.keepsCodeOf s := by
  obtain ⟨ht, hv, h0, h1⟩ := hut
  obtain ⟨ht', hv', h0', h1'⟩ := hts
  exact ⟨ht.trans ht', hv.trans hv', h0.trans h0', h1.trans h1'⟩

section
variable {s u : State} {start : Int} {d : Nat → List Byte} {q : Nat → Nat} {n m : Nat}

theorem Called.setCode (h : Called s start d q n u) (v : BitVec 31) : Called s start d q n (u.setCode v) :=
  ⟨h.key, h.inputs, h.hmacPoints, h.ctx, h.candStr, h.draws, h.requests, h.noCall, h.lastCall⟩

theorem called_zero (hq : q 0 = s.draws) : Called s start d q 0 (s.setKey s.secret) :=
  ⟨State.keyBytes_setKey s _, rfl, rfl, rfl, rfl, hq.symm, by simp, fun _ => ⟨rfl, rfl⟩, by simp⟩

/-- One more call (R121): its digest is `d n`, and the calls 0..n are made. -/
theorem Called.hcall (h : Called s start d q n u) (hds : s.ctx.dsize.toNat ≤ 64) (hd : DigestsOf s start d q m)
    (hn : n < m) :
    ∃ u', u.hcall (be64 (start + (n : Int))) u.ctx.dsize.toNat = (d n, u') ∧ Called s start d q (n + 1) u' ∧
      u'.keepsCodeOf u := by
  obtain ⟨d', k, hcall, hlen, hkept, hbroken⟩ := hcall_spec u (be64 (start + (n : Int))) u.ctx.dsize.toNat
  have hhmac : u.hmac u.keyBytes (be64 (start + (n : Int))) = s.counterDigest (start + (n : Int)) := by
    simp only [State.hmac, State.counterDigest, h.key, h.hmacPoints]
  have hans : u.answerKept u.keyBytes (be64 (start + (n : Int))) u.ctx.dsize.toNat = true ↔
      s.inputs.conduct = .keepsContract ∧ (s.counterDigest (start + (n : Int))).length = s.ctx.dsize.toNat := by
    simp only [State.answerKept, hhmac, h.inputs, h.ctx, Bool.and_eq_true, decide_eq_true_eq]
  obtain ⟨hdk, hdb⟩ := hd n hn
  have hdigest : d' = d n ∧ k = q (n + 1) := by
    cases ha : u.answerKept u.keyBytes (be64 (start + (n : Int))) u.ctx.dsize.toNat
    · obtain ⟨rfl, rfl⟩ := hbroken ha
      obtain ⟨hdn, hqn⟩ := hdb (fun hk => by simp [hans.mpr hk] at ha)
      rw [hdn, hqn, h.draws, h.ctx]
      exact ⟨rfl, rfl⟩
    · obtain ⟨rfl, rfl⟩ := hkept ha
      obtain ⟨hdn, hqn⟩ := hdk (hans.mp ha)
      rw [hdn, hqn, h.draws, hhmac]
      exact ⟨rfl, rfl⟩
  obtain ⟨rfl, rfl⟩ := hdigest
  rw [h.ctx] at hcall hlen ⊢
  refine ⟨_, hcall, ⟨h.key, h.inputs, h.hmacPoints, h.ctx, h.candStr, rfl, ?_, nofun, fun _ => ?_⟩,
    rfl, rfl, rfl, rfl⟩
  · rw [State.afterCall_requests, h.requests, h.key, List.range_succ, List.map_append, List.append_assoc]
    rfl
  · exact dg_afterCall u _ (q (n + 1)) hlen hds

/-! ### VALIDATE: where the scan ends -/

/-- How the scan can end after `n` calls of at most `m`: a match, a digest that cannot be truncated, or the end of the
window (R131). -/
def ScanVerdict (s : State) (d : Nat → List Byte) (m n : Nat) (t : State) : Prop :=
  (1 ≤ n ∧ t.matched = true ∧ t.err = .noError ∧
      ∃ v, dt (d (n - 1)) = some v ∧ s.candidateIs v ∧ t.holdsCode v) ∨
    (1 ≤ n ∧ t.matched = false ∧ t.err = .truncRange ∧ dt (d (n - 1)) = none ∧
      (n = 1 → t.keepsCodeOf s) ∧ (2 ≤ n → ∀ v, dt (d (n - 2)) = some v → t.holdsCode v)) ∨
    (n = m ∧ t.matched = false ∧ t.err = .noError ∧
      (1 ≤ n → ∃ v, dt (d (n - 1)) = some v ∧ ¬ s.candidateIs v ∧ t.holdsCode v))

/-- The scan ends in `t`, the completion of a state in which calls 0..n-1 were made; those before the last passed. -/
def ScanEnds (s : State) (start : Int) (d : Nat → List Byte) (q : Nat → Nat) (m n : Nat) (t : State) : Prop :=
  n ≤ m ∧ (∃ u e b, t = u.complete e b false ∧ Called s start d q n u) ∧ PassedAll s d (n - 1) ∧
    (n = 0 → t.keepsCodeOf s) ∧ ScanVerdict s d m n t

/-- The scan from its call `n` on, the calls before having passed: by induction on the calls left. -/
theorem scanWindow_ends (hds : s.ctx.dsize.toNat ≤ 64) (hd : DigestsOf s start d q m) (r : Nat) (hr : n + r = m)
    (h : Called s start d q n u) (hpassed : PassedAll s d n) (hcode : CodeAfter s d n u) :
    ∃ n', ScanEnds s start d q m n' (scanWindow u ((List.range' n r).map fun (k : Nat) => start + (k : Int))) := by
  induction r generalizing n u with
  | zero =>
    refine ⟨n, by omega, ⟨u, _, _, rfl, h⟩, fun k hk => hpassed k (by omega), hcode.1,
      .inr (.inr ⟨by omega, rfl, rfl, fun hn => ?_⟩)⟩
    obtain ⟨v, hv, hne⟩ := hpassed (n - 1) (by omega)
    exact ⟨v, hv, hne, hcode.2 hn v hv⟩
  | succ r ih =>
    obtain ⟨u', hcall, hu', hkeeps⟩ := h.hcall hds hd (by omega)
    rw [List.range'_succ, List.map_cons]
    simp only [scanWindow, hcall]
    rcases hdt : dt (d n) with _ | v
    · refine ⟨n + 1, by omega, ⟨u', _, _, rfl, hu'⟩, hpassed, nofun, .inr (.inl ⟨by omega, rfl, rfl, hdt, ?_, ?_⟩)⟩
      · intro hn
        exact keepsCodeOf_trans hkeeps (hcode.1 (by omega))
      · intro hn v hv
        exact holdsCode_of_keepsCodeOf hkeeps (hcode.2 (by omega) v hv)
    · have hcand : (u'.setCode v).codeEq = true ↔ s.candidateIs v := by
        rw [codeEq_setCode_iff, State.candidateIs, hu'.candStr]
        rfl
      dsimp only
      split
      · next hmatch =>
        exact ⟨n + 1, by omega, ⟨_, _, _, rfl, hu'.setCode v⟩, hpassed, nofun,
          .inl ⟨by omega, rfl, rfl, v, hdt, hcand.mp hmatch, holdsCode_setCode u' v⟩⟩
      · next hmatch =>
        refine ih (by omega) (hu'.setCode v) (fun k hk => ?_) ⟨nofun, fun _ v' hv' => ?_⟩
        · rcases Nat.lt_succ_iff_lt_or_eq.mp hk with hlt | rfl
          · exact hpassed k hlt
          · exact ⟨v, hdt, fun hc => hmatch (hcand.mpr hc)⟩
        · obtain rfl := Option.some.inj (hdt.symm.trans hv')
          exact holdsCode_setCode u' v

end

/-- The counters of the window are those from T - w up (R126). -/
theorem windowCounters_eq (now : Int) (w : Nat) :
    windowCounters now w = (List.range' 0 (2 * w)).map fun (k : Nat) => now / 30 - (w : Int) + (k : Int) := by
  have hstart : windowStart now w = now / 30 - (w : Int) := by
    rw [windowStart, Int.fdiv_eq_ediv_of_nonneg _ (by omega)]
    omega
  have hend : windowEnd now w = now / 30 + (w : Int) := by
    rw [windowEnd, Int.fdiv_eq_ediv_of_nonneg _ (by omega)]
    omega
  rw [windowCounters, hstart, hend, List.range_eq_range']
  congr 2
  omega

/-- VALIDATE's completion is the scan of all its counters (R131). -/
theorem completeValidate_ends {s : State} {d : Nat → List Byte} {q : Nat → Nat} (hds : s.ctx.dsize.toNat ≤ 64)
    (hc : s.inputs.conduct ≠ .silent) (hq : q 0 = s.draws)
    (hd : DigestsOf s (s.ctx.now.toInt / 30 - (s.ctx.w.toNat : Int)) d q (2 * s.ctx.w.toNat)) :
    ∃ n, ScanEnds s (s.ctx.now.toInt / 30 - (s.ctx.w.toNat : Int)) d q (2 * s.ctx.w.toNat) n (completeValidate s) := by
  have hscan : completeValidate s = scanWindow (s.setKey s.secret)
      ((List.range' 0 (2 * s.ctx.w.toNat)).map fun (k : Nat) =>
        s.ctx.now.toInt / 30 - (s.ctx.w.toNat : Int) + (k : Int)) := by
    simp only [completeValidate, hc, false_and, if_false, windowCounters_eq]
    rfl
  rw [hscan]
  exact scanWindow_ends hds hd _ (Nat.zero_add _) (called_zero hq) nofun ⟨fun _ => ⟨rfl, rfl, rfl, rfl⟩, nofun⟩

/-- Settles O33: GENERATE makes one broken call; VALIDATE's scan is followed call by call, whatever each answers. -/
theorem brokenContractStillCompletes : Obligations.BrokenContractStillCompletes := by
  refine ⟨fun s hs hds hbroken => generate_completes_on_draws hs hds hbroken, ?_⟩
  intro s d q hs hds hc w start hq hd
  obtain ⟨n, hle, ⟨u, e, b, ht, hu⟩, hpassed, hkeeps, hverdict⟩ := completeValidate_ends hds hc hq hd
  have hexec : exec .validate s = .next (completeValidate s) := exec_of_run hs
  rw [ht] at hexec hkeeps hverdict
  refine ⟨_, n, hexec, hle, rfl, rfl, rfl, hu.draws, hu.requests, fun k hk => hpassed k (by omega), hu.lastCall,
    fun hn => ?_, hverdict⟩
  obtain ⟨hmem, hdlen⟩ := hu.noCall hn
  exact ⟨hmem, hdlen, hkeeps hn⟩

end Sys2Proof.Machine
end

section
/-! PROOF. State: what every offset of the window answers, and where the bytes of a buffer word go. -/

namespace Sys2Proof.Machine

/-! ### What an offset selects -/

/-- An offset that answers is a register's or a buffer word's (R21, R64). -/
theorem reg_or_word_of_answers {off : Offset} (h : (locate off).answers = true) :
    (∃ r : Reg, locate off = .reg r ∧ off = r.offset) ∨
      ∃ b j, locate off = .word b j ∧ off.toNat = b.base + 4 * j ∧ 4 * j + 4 ≤ b.cap := by
  cases hl : locate off with
  | reg r => exact .inl ⟨r, rfl, locate_reg hl⟩
  | word b j => exact .inr ⟨b, j, rfl, locate_word hl⟩
  | misaligned => simp [hl, Loc.answers] at h
  | unmapped => simp [hl, Loc.answers] at h

/-- The registers all stand below the buffers (R21). -/
theorem toNat_offset_le (r : Reg) : r.offset.toNat ≤ 0x050 := by cases r <;> decide

/-- The offsets of the registers locked while BUSY (R65). -/
theorem reg_locked_iff (r : Reg) :
    r.locked = true ↔ r.offset.toNat = 0x00C ∨ (0x014 ≤ r.offset.toNat ∧ r.offset.toNat ≤ 0x038) := by
  cases r <;> decide

/-! ### Transactions by what the offset selects -/

/-- A write where nothing answers is the bus ERROR alone (R63, R64). -/
theorem busWrite_of_not_answers {off : Offset} (h : (locate off).answers = false) (s : State) (v : Word) :
    s.busWrite off v = .next (s.respond (.write .error)) := by
  simp [State.busWrite, h]

/-- A write to a locked location while BUSY is ignored and sets WERR (R65). -/
theorem busWrite_of_locked {s : State} {off : Offset} (hb : s.busy = true) (hl : (locate off).locked = true)
    (v : Word) : s.busWrite off v = .next (s.respond (.write .ok)).lockedWrite := by
  have ha : (locate off).answers = true := by
    cases h : locate off <;> simp [h, Loc.locked] at hl <;> rfl
  simp [State.busWrite, ha, hb, hl]

/-- A write to a buffer word while IDLE (R62). -/
theorem busWrite_bufWord {s : State} (hs : s.seq = .idle) {b : Buf} {j : Nat} (hj : 4 * j < b.cap) (v : Word) :
    s.busWrite (BitVec.ofNat 12 (b.base + 4 * j)) v = .next ((s.respond (.write .ok)).writeBufWord b j v) := by
  simp [State.busWrite, locate_bufWord hj, Loc.answers, (State.busy_false_iff s).mpr hs]

/-- A read of a buffer word while IDLE answers the stored word (R61). -/
theorem busRead_bufWord {s : State} (hs : s.seq = .idle) {b : Buf} {j : Nat} (hj : 4 * j < b.cap) :
    (s.busRead (BitVec.ofNat 12 (b.base + 4 * j))).response = some (.read .ok (s.readBufWord b j)) := by
  simp [State.busRead, locate_bufWord hj, Loc.answers, inFlightWrites_of_idle hs, State.stored]

/-! ### The bytes of a buffer word (R67) -/

theorem getD_bytesOfWord (v : Word) {k : Nat} (hk : k < 4) : (bytesOfWord v).getD k 0 = v.extractLsb' (8 * k) 8 := by
  interval_cases k <;> rfl

/-- Byte `k` of a buffer word is the buffer's byte `4j + k`. -/
theorem extract_readBufWord (s : State) (b : Buf) (j : Nat) {k : Nat} (hk : k < 4) :
    (s.readBufWord b j).extractLsb' (8 * k) 8 = s.readByte (b.base + 4 * j + k) := by
  interval_cases k
  · exact extract_byte0 ..
  · exact extract_byte1 ..
  · exact extract_byte2 ..
  · exact extract_byte3 ..

/-- The four places of a written word hold its bytes, the least significant first. -/
theorem readByte_writeBufWord_inside (s : State) (b : Buf) (j : Nat) (v : Word) {k : Nat} (hk : k < 4) :
    (s.writeBufWord b j v).readByte (b.base + 4 * j + k) = v.extractLsb' (8 * k) 8 := by
  rw [readByte_writeBufWord, if_pos (by omega), Nat.add_sub_cancel_left, getD_bytesOfWord v hk]

theorem readBufWord_writeBufWord (s : State) (b : Buf) (j : Nat) (v : Word) :
    (s.writeBufWord b j v).readBufWord b j = v := by
  have hbyte := fun k hk => readByte_writeBufWord_inside s b j v (k := k) hk
  rw [State.readBufWord, hbyte 1 (by omega), hbyte 2 (by omega), hbyte 3 (by omega)]
  exact (congrArg (wordOfBytes · _ _ _) (hbyte 0 (by omega))).trans (wordOfBytes_extract v)

/-! ### The 'written' column by offset (R83) -/

/-- R83's 'written' column: the offsets a command writes, among those that answer. -/
def writtenBy : Instr → Nat → Prop
  | .encode, o => o = 0x01C ∨ (0x400 ≤ o ∧ o ≤ 0x4FF)
  | .decode, o => o = 0x018 ∨ (0x200 ≤ o ∧ o ≤ 0x29F)
  | .generate, o => o = 0x020 ∨ (0x03C ≤ o ∧ o ≤ 0x048) ∨ (0x100 ≤ o ∧ o ≤ 0x13F)
  | .validate, o => o = 0x020 ∨ (0x03C ≤ o ∧ o ≤ 0x050) ∨ (0x100 ≤ o ∧ o ≤ 0x13F)
  | .truncate, o => 0x03C ≤ o ∧ o ≤ 0x048
  | .clear, o => (0x018 ≤ o ∧ o ≤ 0x020) ∨ (0x030 ≤ o ∧ o ≤ 0x048) ∨ 0x100 ≤ o

theorem commandWrites_reg_iff (i : Instr) (r : Reg) :
    commandWrites i (.reg r) = true ↔ writtenBy i r.offset.toNat := by
  cases i <;> simp only [writtenBy] <;> cases r <;> decide

/-- The address of a buffer word says which buffer it is (R40-R42). -/
theorem bufWord_window {b : Buf} {j : Nat} (hj : 4 * j + 4 ≤ b.cap) :
    (b = .dg ↔ 0x100 ≤ b.base + 4 * j ∧ b.base + 4 * j ≤ 0x13F) ∧
      (b = .bin ↔ 0x200 ≤ b.base + 4 * j ∧ b.base + 4 * j ≤ 0x29F) ∧
      (b = .txt ↔ 0x400 ≤ b.base + 4 * j ∧ b.base + 4 * j ≤ 0x4FF) ∧ 0x100 ≤ b.base + 4 * j := by
  cases b <;> simp only [Buf.base, Buf.cap, reduceCtorEq, true_iff, false_iff] at hj ⊢ <;> omega

theorem commandWrites_word_iff (i : Instr) {b : Buf} {j : Nat} (hj : 4 * j + 4 ≤ b.cap) :
    commandWrites i (.word b j) = true ↔ writtenBy i (b.base + 4 * j) := by
  obtain ⟨hdg, hbin, htxt, hlow⟩ := bufWord_window hj
  cases i <;> simp only [commandWrites, writtenBy, decide_eq_true_eq, Bool.false_eq_true, false_iff, true_iff, hdg,
    hbin, htxt] <;> omega

/-- The locations of the 'written' column are those at its offsets. -/
theorem commandWrites_locate_iff (i : Instr) {off : Offset} (h : (locate off).answers = true) :
    commandWrites i (locate off) = true ↔ writtenBy i off.toNat := by
  obtain ⟨r, hr, ho⟩ | ⟨b, j, hw, ho, hj⟩ := reg_or_word_of_answers h
  · rw [hr, ho]
    exact commandWrites_reg_iff i r
  · rw [hw, ho]
    exact commandWrites_word_iff i hj

/-! ### What each offset holds -/

theorem stored_of_toNat_eq (s : State) {off : Offset} {r : Reg} (h : off.toNat = r.offset.toNat) :
    s.stored (locate off) = s.regRead r := by
  rw [BitVec.eq_of_toNat_eq h, locate_offset]
  rfl

/-- A word of a buffer holds its four bytes little-endian (R67). -/
theorem extract_stored {off : Offset} (ha : (locate off).answers = true) (ho : 0x100 ≤ off.toNat) (s : State)
    {k : Nat} (hk : k < 4) : (s.stored (locate off)).extractLsb' (8 * k) 8 = s.readByte (off.toNat + k) := by
  obtain ⟨r, -, rfl⟩ | ⟨b, j, hw, hoff, -⟩ := reg_or_word_of_answers ha
  · have := toNat_offset_le r
    omega
  · rw [hw, hoff]
    exact extract_readBufWord s b j hk

/-- Reserved bits above a field add nothing to its number (R39). -/
theorem toNat_zero_append (m : Nat) {n : Nat} (x : BitVec n) : (0#m ++ x).toNat = x.toNat := by
  simp only [BitVec.toNat_append, BitVec.toNat_ofNat, Nat.zero_mod, Nat.zero_shiftLeft, Nat.zero_or]

theorem toNat_regRead_pcfg (s : State) :
    (s.regRead .pcfg).toNat = s.pcfgEn.toNat + 256 * s.pcfgDsize.toNat := by
  simp only [State.regRead, toNat_append_eq_add, BitVec.toNat_ofBool, BitVec.toNat_ofNat]
  omega

/-! ### The statements -/

/-- Settles O48: none of these offsets answers, so either transaction is the bus ERROR alone. -/
theorem badOffsetsAnswerErrorOnly : Obligations.BadOffsetsAnswerErrorOnly := by
  intro s off v h
  have hno : (locate off).answers = false := by
    rw [← Bool.not_eq_true, locate_answers_iff]
    omega
  refine ⟨?_, busWrite_of_not_answers hno s v⟩
  rcases busRead_cases s off with ⟨-, hr⟩ | ⟨ha, -⟩ | ⟨ha, -⟩
  · exact hr
  · cases hno.symm.trans ha
  · cases hno.symm.trans ha

/-- Settles O49: by the cases of a read; which locations read as a draw is the 'written' column, and the others answer
the stored word, register by register. -/
theorem busReadHasNoSideEffect : Obligations.BusReadHasNoSideEffect := by
  intro s off o written
  have hwritten (ha : (locate off).answers = true) : s.inFlightWrites (locate off) = true ↔ written := by
    simp only [written, State.inFlightWrites]
    rcases s.seq with _ | i
    · simp
    · rw [commandWrites_locate_iff i ha]
      cases i <;> rfl
  rcases busRead_cases s off with ⟨ha, h⟩ | ⟨ha, hw, h⟩ | ⟨ha, hw, h⟩
  · refine ⟨_, by rw [h]; rfl, fun h4 hm => ?_⟩
    cases ha.symm.trans ((locate_answers_iff off).mpr ⟨h4, hm⟩)
  · refine ⟨_, by rw [h]; rfl, fun _ _ => ⟨fun _ => ⟨rfl, by rw [h]; rfl⟩, fun hn => ?_⟩⟩
    exact absurd ((hwritten ha).mp hw) hn
  · refine ⟨_, by rw [h]; rfl, fun _ _ => ⟨fun hn => ?_, fun _ => ⟨by rw [h]; rfl, _, rfl, ?_⟩⟩⟩
    · cases hw.symm.trans ((hwritten ha).mpr hn)
    have hreg (r : Reg) (hr : o = r.offset.toNat) : s.stored (locate off) = s.regRead r := stored_of_toNat_eq s hr
    have hfield (r : Reg) (hr : o = r.offset.toNat) {n : Nat} (hn : (s.regRead r).toNat = n) :
        (s.stored (locate off)).toNat = n := hreg r hr ▸ hn
    exact ⟨hreg .id, hreg .param, fun hr => hfield .ctrl hr ((toNat_zero_append 31 _).trans (BitVec.toNat_ofBool _)),
      hreg .cmd, hreg .status, fun hr => hfield .pcfg hr (toNat_regRead_pcfg s),
      fun hr => hfield .blen hr (toNat_zero_append 24 _), fun hr => hfield .tlen hr (toNat_zero_append 23 _),
      fun hr => hfield .dlen hr (toNat_zero_append 25 _), fun hr => hfield .window hr (toNat_zero_append 24 _),
      hreg .cntLo, hreg .cntHi, hreg .cand0, hreg .cand1, fun hr => hfield .clen hr (toNat_zero_append 28 _),
      fun hr => hfield .trunc hr (toNat_zero_append 1 _), fun hr => hfield .cval hr (toNat_zero_append 12 _),
      hreg .code0, fun hr => hfield .code1 hr (toNat_zero_append 16 _), hreg .nowLo, hreg .nowHi,
      fun ho k hk => extract_stored ha ho s hk⟩

/-- Settles O50: each of these offsets is a locked register's or a buffer word's. -/
theorem lockedWritesWhileBusySetWerrOnly : Obligations.LockedWritesWhileBusySetWerrOnly := by
  intro s off v hb h4 ho
  have ha : (locate off).answers = true := (locate_answers_iff off).mpr (by omega)
  refine busWrite_of_locked hb ?_ v
  obtain ⟨r, hr, rfl⟩ | ⟨b, j, hw, -⟩ := reg_or_word_of_answers ha
  · have := toNat_offset_le r
    rw [hr]
    exact (reg_locked_iff r).mpr (by omega)
  · rw [hw]
    rfl

/-- Settles O53: the write is `writeBufWord` at the word's place, and the word read back is the one written. -/
theorem bufferWordsAreLittleEndian : Obligations.BufferWordsAreLittleEndian := by
  intro s b j v hs hj
  refine ⟨_, busWrite_bufWord hs hj v, fun k hk => readByte_writeBufWord_inside _ b j v hk, fun a ha => ?_, rfl, ?_⟩
  · rw [readByte_writeBufWord, if_neg ha]
    rfl
  · rw [busRead_bufWord (s := (s.respond (.write .ok)).writeBufWord b j v) hs hj, readBufWord_writeBufWord]

end Sys2Proof.Machine
end

section
/-! PROOF. Encoding (R80-R82): the decoder inverts the encoder, the legal words are the encodings, and what the bus does
with a legal and with an illegal CMD value. -/

namespace Sys2Proof.Machine

/-! ### The encodings -/

@[simp] theorem decode_encode (i : Instr) : decode (encode i) = .ok i := by cases i <;> rfl

theorem toNat_encode (i : Instr) : (encode i).toNat = (opcode i).toNat := toNat_zero_append 28 (opcode i)

/-- The encodings are the words 1 to 6 (R81). -/
theorem exists_eq_encode_iff (v : Word) : (∃ i, v = encode i) ↔ 1 ≤ v.toNat ∧ v.toNat ≤ 6 := by
  constructor
  · rintro ⟨i, rfl⟩
    rw [toNat_encode]
    cases i <;> decide
  · rintro ⟨hlo, hhi⟩
    have hword : ∀ i, v.toNat = (opcode i).toNat → ∃ i, v = encode i := fun i h =>
      ⟨i, BitVec.eq_of_toNat_eq (h.trans (toNat_encode i).symm)⟩
    generalize hn : v.toNat = n at hlo hhi
    interval_cases n
    exacts [hword .encode hn, hword .decode hn, hword .generate hn, hword .validate hn, hword .truncate hn,
      hword .clear hn]

/-! ### Legality in mask form (R82) -/

/-- Masking RSVD out is clearing the low four bits. -/
theorem and_rsvdMask_eq_shift (v : Word) : v &&& 0xFFFFFFF0#32 = v >>> 4 <<< 4 := by
  apply BitVec.eq_of_getLsbD_eq
  intro j hj
  simp only [BitVec.getLsbD_and, BitVec.getLsbD_shiftLeft, BitVec.getLsbD_ushiftRight]
  interval_cases j <;> simp

theorem rsvdZero_iff (v : Word) : CmdWord.rsvdZero v = true ↔ v.toNat < 16 := by
  have hv := v.isLt
  rw [CmdWord.rsvdZero, beq_iff_eq, and_rsvdMask_eq_shift, ← BitVec.toNat_inj, BitVec.toNat_shiftLeft,
    BitVec.toNat_ushiftRight, Nat.shiftRight_eq_div_pow, Nat.shiftLeft_eq, BitVec.toNat_ofNat]
  omega

theorem opDefined_iff (v : Word) : CmdWord.opDefined v = true ↔ 1 ≤ v.toNat % 16 ∧ v.toNat % 16 ≤ 6 := by
  simp [CmdWord.opDefined, BitVec.extractLsb'_toNat]

/-- The mask form holds of the words 1 to 6 (R82). -/
theorem legal_iff_toNat (v : Word) : CmdWord.legal v = true ↔ 1 ≤ v.toNat ∧ v.toNat ≤ 6 := by
  rw [CmdWord.legal, Bool.and_eq_true, rsvdZero_iff, opDefined_iff]
  omega

/-! ### An illegal CMD value -/

theorem accept_of_reject {s : State} {v : Word} {r : DecodeReject} (h : decode v = .reject r) :
    s.accept v = .next (s.acceptIllegal v) := by
  simp only [State.accept, h]

/-- The accept of an illegal value changes the status flags and KEY only: SEQ was IDLE and stays so (R82, R153). -/
theorem acceptIllegal_of_idle {s : State} (h : s.seq = .idle) (v : Word) :
    s.acceptIllegal v = { s with
      done := true, matched := false, unavail := false, err := .illegalCmd, lop := cmdOp v
      key := zeroKey, klen := 0 } := by
  simp only [State.acceptIllegal, State.acceptRecord, State.raiseError_eq, State.complete, ← h]

/-! ### The script line `cmd` -/

/-- The line's one turn, taken before a block with no turns left, leaves the block as at the beginning of a step. -/
theorem takeTurn_withScript_cmd {s : State} (h : s.turns = []) (i : Instr) :
    (s.withScript [.cmd i]).takeTurn ⟨s.inputs, .busWrite 0x00C#12 (encode i)⟩ [] = s.newStep := by
  simp only [State.withScript, State.takeTurn, State.newStep, ← h]

/-! ### The statements -/

/-- Settles O2: the decoder read backwards is `eq_encode_of_decode`, and forwards `decode_encode`. -/
theorem decodeAnswersExactlyTheEncoding : Obligations.DecodeAnswersExactlyTheEncoding :=
  fun _ i => ⟨eq_encode_of_decode, fun h => h ▸ decode_encode i⟩

/-- Settles O3: the mask form, the encodings and so the decoder (O2) all come to the range 1 to 6. -/
theorem legalWordsAreTheSixOpcodes : Obligations.LegalWordsAreTheSixOpcodes := by
  intro v
  refine ⟨?_, legal_iff_toNat v⟩
  rw [legal_iff_toNat, ← exists_eq_encode_iff]
  exact exists_congr fun i => (decodeAnswersExactlyTheEncoding v i).symm

/-- An illegal value is one the decoder rejects (R82). -/
theorem exists_decode_reject_of_illegal {v : Word} (h : CmdWord.legal v = false) : ∃ r, decode v = .reject r := by
  cases hd : decode v with
  | ok i => cases h.symm.trans ((legalWordsAreTheSixOpcodes v).1.mpr ⟨i, hd⟩)
  | reject r => exact ⟨r, rfl⟩

/-- Settles O1: the six words are the encodings; the reserved ones are evaluated. -/
theorem opcodeTableWordsDecode : Obligations.OpcodeTableWordsDecode :=
  ⟨decode_encode .encode, decode_encode .decode, decode_encode .generate, decode_encode .validate,
    decode_encode .truncate, decode_encode .clear, by decide, by decide, by decide⟩

/-- Settles O8: the write is an accept of a word the decoder rejects. -/
theorem illegalCmdCompletesAtAccept : Obligations.IllegalCmdCompletesAtAccept := by
  intro s t rest v ht ha hs hv
  obtain ⟨r, hr⟩ := exists_decode_reject_of_illegal hv
  have hidle : (s.takeTurn t rest).seq = .idle := (s.takeTurn_seq t rest).trans hs
  rw [step_of_turns_cons ht, ha, act_busWrite, busWrite_cmd_of_idle hidle, accept_of_reject hr,
    acceptIllegal_of_idle ((State.respond_seq _ _).trans hidle)]
  rfl

/-- Settles O60: the line's write is a turn whose word decodes to `i` (O4). -/
theorem cmdLineRunsItsCommand : Obligations.CmdLineRunsItsCommand := by
  intro s i hs ht
  have hturns : (s.withScript [.cmd i]).turns = [⟨s.inputs, .busWrite 0x00C#12 (encode i)⟩] := by
    rw [State.withScript, ht]
    rfl
  obtain ⟨-, -, -, hcmd⟩ := stepRunsDecodedCommand _ _ _ hturns
  exact ⟨rfl, by rw [hcmd _ i rfl hs (decode_encode i), takeTurn_withScript_cmd ht]⟩

end Sys2Proof.Machine
end

section
/-! PROOF. Encoding (R83): what the completions of GENERATE and VALIDATE leave unchanged. -/

namespace Sys2Proof.Machine

/-- `s` with the fields that GENERATE and VALIDATE may change taken from `u` (R83). -/
def State.withEngineFields (s u : State) : State :=
  { s with
    seq := u.seq, done := u.done, matched := u.matched, unavail := u.unavail, err := u.err
    key := u.key, klen := u.klen, mem := u.mem, dlen := u.dlen
    trunc := u.trunc, cval := u.cval, code0 := u.code0, code1 := u.code1
    draws := u.draws, requests := u.requests }

/-- `u` differs from `s` in those fields only, and in DG[0..dsize-1] only of the buffers (R83, R121). -/
def EngineFrame (s u : State) : Prop :=
  u = s.withEngineFields u ∧
    ∀ a, ¬ (0x100 ≤ a ∧ a < 0x100 + s.ctx.dsize.toNat) → u.readByte a = s.readByte a

theorem EngineFrame.refl (s : State) : EngineFrame s s := ⟨rfl, fun _ _ => rfl⟩

theorem EngineFrame.ctx {s u : State} (h : EngineFrame s u) : u.ctx = s.ctx := (congrArg State.ctx h.1 :)

theorem EngineFrame.trans {s u v : State} (hsu : EngineFrame s u) (huv : EngineFrame u v) : EngineFrame s v := by
  refine ⟨huv.1.trans (congrArg (State.withEngineFields · v) hsu.1 :), fun a ha => ?_⟩
  exact (huv.2 a (by rwa [hsu.ctx])).trans (hsu.2 a ha)

theorem EngineFrame.setKey (s : State) (k : List Byte) : EngineFrame s (s.setKey k) := ⟨rfl, fun _ _ => rfl⟩

theorem EngineFrame.setCode (s : State) (t : BitVec 31) : EngineFrame s (s.setCode t) := ⟨rfl, fun _ _ => rfl⟩

theorem EngineFrame.complete (s : State) (e : ErrCode) (m un : Bool) : EngineFrame s (s.complete e m un) :=
  ⟨rfl, fun _ _ => rfl⟩

/-- A provider call writes its digest, of `CTX.dsize` bytes, into DG and nothing else into the buffers (R121). -/
theorem EngineFrame.hcall (s : State) (msg : List Byte) : EngineFrame s (s.hcall msg s.ctx.dsize.toNat).2 := by
  obtain ⟨d, k, hcall, hlen, -⟩ := hcall_spec s msg s.ctx.dsize.toNat
  rw [hcall]
  exact ⟨rfl, fun a ha => readByte_afterCall_outside s msg _ k (hlen ▸ ha)⟩

/-- The scan only makes calls, sets codes and completes: by induction on the counters left (R131). -/
theorem EngineFrame.scanWindow (s : State) (cs : List Int) : EngineFrame s (scanWindow s cs) := by
  induction cs generalizing s with
  | nil => exact .complete s _ _ _
  | cons c cs ih =>
    have hcall := EngineFrame.hcall s (be64 c)
    simp only [Machine.scanWindow]
    split
    · exact hcall.trans (.complete _ _ _ _)
    · next t _ =>
      have hcode := hcall.trans (.setCode _ t)
      split
      · exact hcode.trans (.complete _ _ _ _)
      · exact hcode.trans (ih _)

theorem EngineFrame.completeGenerate (s : State) : EngineFrame s (completeGenerate s) := by
  have hcall := (EngineFrame.setKey s (b32dec s.txtArg)).trans (.hcall _ (be64 s.cnt))
  simp only [Machine.completeGenerate]
  split
  · exact .refl s
  split
  · exact hcall.trans (.complete _ _ _ _)
  · next t _ => exact (hcall.trans (.setCode _ t)).trans (.complete _ _ _ _)

theorem EngineFrame.completeValidate (s : State) : EngineFrame s (completeValidate s) := by
  simp only [Machine.completeValidate]
  split
  · exact .refl s
  · exact (EngineFrame.setKey s _).trans (.scanWindow _ _)

/-- With an empty window VALIDATE decodes its secret and completes, whatever the provider does (R131). -/
theorem completeValidate_of_empty_window {s : State} (h : s.ctx.w.toNat = 0) :
    completeValidate s = (s.setKey (b32dec s.txtArg)).complete .noError false false := by
  simp [completeValidate, h, windowCounters_zero, scanWindow]

/-- Settles O38: both completions are made of operations that keep the frame; an empty window makes no call. -/
theorem engineCommandFrame : Obligations.EngineCommandFrame := by
  intro s i t hi hs he
  obtain rfl := eq_completionPart_of_exec hs he
  have hframe : EngineFrame s (completionPart i s) := by
    rcases hi with rfl | rfl
    · exact .completeGenerate s
    · exact .completeValidate s
  refine ⟨hframe.1, hframe.2, ?_⟩
  rintro rfl hw
  rw [completionPart, completeValidate_of_empty_window hw]
  exact ⟨fun _ => rfl, rfl, rfl, rfl, rfl, rfl, rfl, rfl⟩

end Sys2Proof.Machine
end

section
/-! PROOF. Codec functions (R100-R107): the alphabet, TAIL, and what the encoder and the decoder do to the bits of their
inputs, each read as one number. -/

namespace Sys2Proof.Machine

/-! ### The alphabet -/

theorem symIdx_alpha {i : Nat} (h : i < 32) : symIdx (alpha i) = some i := by
  have hall : ∀ i < 32, symIdx (alpha i) = some i := by decide
  exact hall i h

theorem symIdx_eq_some_iff (b : Byte) (i : Nat) : symIdx b = some i ↔ i < 32 ∧ b = alpha i := by
  refine ⟨fun h => ?_, fun ⟨hi, hb⟩ => hb ▸ symIdx_alpha hi⟩
  simp only [symIdx] at h
  split at h
  · obtain rfl := Option.some.inj h
    have hi : b.toNat - 0x41 < 26 := by omega
    exact ⟨by omega, BitVec.eq_of_toNat_eq (by simp only [alpha, if_pos hi, BitVec.toNat_ofNat]; omega)⟩
  split at h
  · obtain rfl := Option.some.inj h
    have hi : ¬ b.toNat - 0x32 + 26 < 26 := by omega
    exact ⟨by omega, BitVec.eq_of_toNat_eq (by simp only [alpha, if_neg hi, BitVec.toNat_ofNat]; omega)⟩
  · cases h

/-- Settles O18: the 32 codes are computed; `symIdx` has one range for the letters and one for the digits. -/
theorem symbolIndexInvertsAlphabet : Obligations.SymbolIndexInvertsAlphabet :=
  ⟨by decide, rfl, symIdx_eq_some_iff⟩

theorem symIdx_lt {b : Byte} {i : Nat} (h : symIdx b = some i) : i < 32 := ((symIdx_eq_some_iff b i).mp h).1

/-! ### TAIL -/

theorem toNat_tailByte {acc l : Nat} (hl : l ≤ 8) (h : acc < 2 ^ l) : (tailByte acc l).toNat = acc * 2 ^ (8 - l) := by
  rw [tailByte, BitVec.toNat_ofNat, Nat.mod_eq_of_lt]
  calc acc * 2 ^ (8 - l) < 2 ^ l * 2 ^ (8 - l) := Nat.mul_lt_mul_of_pos_right h (by positivity)
    _ = 2 ^ 8 := by rw [← pow_add, Nat.add_sub_cancel' hl]

/-- Settles O19: shifting left by 5 and right by `l - 3` is shifting left by `8 - l`. -/
theorem tailByteIsTheSourceFormula : Obligations.TailByteIsTheSourceFormula := by
  intro acc l _ hl hacc
  refine ⟨toNat_tailByte (by omega) hacc, fun h3 => BitVec.eq_of_toNat_eq ?_⟩
  have hshift : acc <<< 5 >>> (l - 3) = acc * 2 ^ (8 - l) := by
    have hpow : 2 ^ 5 = 2 ^ (8 - l) * 2 ^ (l - 3) := by rw [← pow_add]; congr 1; omega
    rw [Nat.shiftLeft_eq, Nat.shiftRight_eq_div_pow, hpow, ← Nat.mul_assoc, Nat.mul_div_cancel _ (by positivity)]
  rw [hshift, tailByte, BitVec.toNat_ofNat, BitVec.toNat_ofNat, Nat.and_two_pow_sub_one_eq_mod _ 8, Nat.mod_mod]

/-! ### Strings as numbers -/

theorem digitsValue_eq_ofDigits (base : Nat) (ds : List Nat) : digitsValue base ds = Nat.ofDigits base ds.reverse := by
  induction ds with
  | nil => rfl
  | cons d ds ih => simp [digitsValue_cons, Nat.ofDigits_append, ih, Nat.mul_comm, Nat.add_comm]

/-- Byte strings of one length that are one number are the same string. -/
theorem eq_of_bytesValue_eq {bs cs : List Byte} (hlen : bs.length = cs.length) (h : bytesValue bs = bytesValue cs) :
    bs = cs := by
  rw [bytesValue, bytesValue, digitsValue_eq_ofDigits, digitsValue_eq_ofDigits] at h
  have hbyte : ∀ (xs : List Byte), ∀ n ∈ (xs.map BitVec.toNat).reverse, n < 256 := by
    simp only [List.mem_reverse, List.mem_map]
    rintro xs _ ⟨x, -, rfl⟩
    exact x.isLt
  have hrev := Nat.ofDigits_inj_of_len_eq (by omega) (by simpa using hlen) (hbyte bs) (hbyte cs) h
  exact List.map_injective_iff.mpr (fun _ _ => BitVec.eq_of_toNat_eq) (List.reverse_injective hrev)

theorem bytesValue_append_zeros (bs : List Byte) (k : Nat) :
    bytesValue (bs ++ List.replicate k 0) = bytesValue bs * 2 ^ (8 * k) := by
  have hzero : bytesValue (List.replicate k 0) = 0 := by
    simp [bytesValue, digitsValue_eq_ofDigits, Nat.ofDigits_replicate_zero]
  rw [bytesValue_append, hzero, List.length_replicate, pow_mul]
  rfl

/-- The valid characters of a string, in their order (R101). -/
def validChars (t : List Byte) : List Byte := t.filter fun c => (symIdx c).isSome

@[simp] theorem validChars_cons_none {c : Byte} (h : symIdx c = none) (t : List Byte) :
    validChars (c :: t) = validChars t := by
  simp [validChars, h]

@[simp] theorem validChars_cons_some {c : Byte} {v : Nat} (h : symIdx c = some v) (t : List Byte) :
    validChars (c :: t) = c :: validChars t := by
  simp [validChars, h]

theorem symbolsValue_lt (t : List Byte) : symbolsValue t < 32 ^ (validChars t).length := by
  rw [symbolsValue, digitsValue_eq_ofDigits, validChars, ← length_filterMap_symIdx, ← List.length_reverse]
  refine Nat.ofDigits_lt_base_pow_length (by omega) fun v hv => ?_
  obtain ⟨c, -, hc⟩ := List.mem_filterMap.mp (List.mem_reverse.mp hv)
  exact symIdx_lt hc

/-! ### The decoder -/

/-- `bs` are the `m` bits of `x`, the most significant first, and then zero bits to the end of the last byte. -/
def HoldsBits (bs : List Byte) (x m : Nat) : Prop :=
  bs.length = (m + 7) / 8 ∧ bytesValue bs = x * 2 ^ (8 * ((m + 7) / 8) - m)

theorem HoldsBits.unique {bs cs : List Byte} {x m : Nat} (hb : HoldsBits bs x m) (hc : HoldsBits cs x m) : bs = cs :=
  eq_of_bytesValue_eq (hb.1.trans hc.1.symm) (hb.2.trans hc.2.symm)

theorem holdsBits_tailByte {acc l : Nat} (h1 : 1 ≤ l) (h7 : l ≤ 7) (h : acc < 2 ^ l) :
    HoldsBits [tailByte acc l] acc l := by
  have hlen : (l + 7) / 8 = 1 := by omega
  refine ⟨hlen.symm, ?_⟩
  simp [bytesValue_cons, toNat_tailByte (by omega : l ≤ 8) h, hlen]

/-- A byte put before a string holds eight bits above the string's. -/
theorem HoldsBits.cons {bs : List Byte} {x m : Nat} (h : HoldsBits bs x m) (b : Byte) :
    HoldsBits (b :: bs) (b.toNat * 2 ^ m + x) (m + 8) := by
  obtain ⟨hlen, hval⟩ := h
  have hN : (m + 8 + 7) / 8 = (m + 7) / 8 + 1 := by omega
  refine ⟨by rw [List.length_cons, hlen, hN], ?_⟩
  have hexp : 8 * ((m + 7) / 8 + 1) - (m + 8) = 8 * ((m + 7) / 8) - m := by omega
  have hpow : 256 ^ ((m + 7) / 8) = 2 ^ m * 2 ^ (8 * ((m + 7) / 8) - m) := by
    rw [← pow_add, show (256 : Nat) = 2 ^ 8 from rfl, ← pow_mul]
    congr 1
    omega
  rw [bytesValue_cons, hlen, hval, hN, hexp, hpow]
  ring

/-- The byte that leaves the accumulator holds its bits above the `k` that stay (R104). -/
theorem HoldsBits.cons_div {bs : List Byte} {x k n y : Nat} (hx : x < 2 ^ (k + 8))
    (h : HoldsBits bs (x % 2 ^ k * 32 ^ n + y) (5 * n + k)) :
    HoldsBits (BitVec.ofNat 8 (x / 2 ^ k) :: bs) (x * 32 ^ n + y) (5 * n + (k + 8)) := by
  have hbyte : (BitVec.ofNat 8 (x / 2 ^ k)).toNat = x / 2 ^ k := by
    rw [BitVec.toNat_ofNat, Nat.mod_eq_of_lt]
    exact Nat.div_lt_of_lt_mul (by rwa [← pow_add])
  have hsplit : x / 2 ^ k * 2 ^ (5 * n + k) + (x % 2 ^ k * 32 ^ n + y) = x * 32 ^ n + y := by
    conv_rhs => rw [← Nat.div_add_mod x (2 ^ k)]
    rw [pow_add, pow_mul]
    ring
  have hcons := h.cons (BitVec.ofNat 8 (x / 2 ^ k))
  rwa [hbyte, hsplit] at hcons

/-- The scan keeps every bit: the accumulator's, and five for each valid character after it (R104, R105). -/
theorem holdsBits_b32decFrom (t : List Byte) {acc l : Nat} (hl : l < 8) (hacc : acc < 2 ^ l) :
    HoldsBits (b32decFrom t acc l) (acc * 32 ^ (validChars t).length + symbolsValue t)
      (5 * (validChars t).length + l) := by
  induction t generalizing acc l with
  | nil =>
    rcases Nat.eq_zero_or_pos l with rfl | hpos
    · obtain rfl : acc = 0 := by simpa using hacc
      exact ⟨rfl, rfl⟩
    · simpa [b32decFrom, hpos, validChars] using holdsBits_tailByte hpos (by omega) hacc
  | cons c t ih =>
    rcases hc : symIdx c with _ | v
    · simpa [b32decFrom, hc, symbolsValue_cons_none hc] using ih hl hacc
    · have hv := symIdx_lt hc
      have hx : acc * 32 + v < 2 ^ (l + 5) := by rw [pow_add]; omega
      have hval : acc * 32 ^ (validChars (c :: t)).length + symbolsValue (c :: t) =
          (acc * 32 + v) * 32 ^ (validChars t).length + symbolsValue t := by
        rw [symbolsValue_cons_some hc, validChars_cons_some hc, List.length_cons, pow_succ, validChars]
        ring
      have hbits : 5 * (validChars (c :: t)).length + l = 5 * (validChars t).length + (l + 5) := by
        rw [validChars_cons_some hc, List.length_cons]
        omega
      rw [hval, hbits]
      simp only [b32decFrom, hc]
      split
      · obtain ⟨k, hk⟩ : ∃ k, l + 5 = k + 8 := ⟨l + 5 - 8, by omega⟩
        rw [hk] at hx ⊢
        rw [Nat.add_sub_cancel]
        exact (ih (by omega) (Nat.mod_lt _ (by positivity))).cons_div hx
      · rw [Nat.mod_eq_of_lt hx]
        exact ih (by omega) hx

theorem holdsBits_b32dec (t : List Byte) : HoldsBits (b32dec t) (symbolsValue t) (5 * (validChars t).length) := by
  simpa [b32dec] using holdsBits_b32decFrom t (acc := 0) (l := 0) (by omega) (by omega)

theorem length_b32dec (t : List Byte) : (b32dec t).length = (5 * (validChars t).length + 7) / 8 :=
  (holdsBits_b32dec t).1

/-- Settles O16: the scan begins with no bits and keeps every bit it takes in. -/
theorem decodedLengthIsFiveEighths : Obligations.DecodedLengthIsFiveEighths := holdsBits_b32dec

/-- The scan does not see the characters outside the alphabet. -/
theorem b32decFrom_validChars (t : List Byte) (acc l : Nat) : b32decFrom (validChars t) acc l = b32decFrom t acc l := by
  induction t generalizing acc l with
  | nil => rfl
  | cons c t ih => rcases hc : symIdx c with _ | v <;> simp [b32decFrom, hc, ih]

/-- Settles O17: both strings decode as their valid characters do. -/
theorem strayCharactersAreSkipped : Obligations.StrayCharactersAreSkipped := by
  intro t u h
  rw [b32dec, b32dec, ← b32decFrom_validChars t, ← b32decFrom_validChars u, validChars, h, validChars]

/-! ### The encoder -/

/-- The 40 bits of the encoder's blocks as symbols, before the padding takes the place of the last ones (R103). -/
def encSymbols (s : List Byte) : List Byte :=
  (List.range (8 * ((s.length + 4) / 5))).map fun i => encSymbol (encBlock s (i / 8)) (i % 8)

@[simp] theorem length_encSymbols (s : List Byte) : (encSymbols s).length = 8 * ((s.length + 4) / 5) := by
  simp [encSymbols]

@[simp] theorem length_b32enc (s : List Byte) : (b32enc s).length = 8 * ((s.length + 4) / 5) := by
  simp [b32enc]

theorem padCnt_le (s : List Byte) : padCnt (s.length % 5) ≤ 8 * ((s.length + 4) / 5) := by
  have h : ∀ r < 5, padCnt r ≤ 8 * ((r + 4) / 5) := by decide
  have hr := h (s.length % 5) (Nat.mod_lt _ (by omega))
  omega

/-- The encoder's output without its padding (R102). -/
def encBody (s : List Byte) : List Byte :=
  (encSymbols s).take (8 * ((s.length + 4) / 5) - padCnt (s.length % 5))

@[simp] theorem length_encBody (s : List Byte) :
    (encBody s).length = 8 * ((s.length + 4) / 5) - padCnt (s.length % 5) := by
  simp [encBody]

/-- The padding takes the place of the last symbols. -/
theorem b32enc_eq (s : List Byte) :
    b32enc s = encBody s ++ List.replicate (padCnt (s.length % 5)) padChar := by
  have hp := padCnt_le s
  refine List.ext_getElem (by simp; omega) fun i hi _ => ?_
  rw [length_b32enc] at hi
  simp only [b32enc, encBody, encSymbols, List.getElem_map, List.getElem_range, List.getElem_append, List.length_take,
    List.length_map, List.length_range, List.getElem_take, List.getElem_replicate]
  split
  · rw [dif_neg (by omega)]
  · rw [dif_pos (by omega)]

theorem symIdx_encSymbol (blk : Nat) {j : Nat} (hj : j < 8) :
    symIdx (encSymbol blk j) = some (bits blk (39 - 5 * j) (35 - 5 * j)) := by
  refine symIdx_alpha ?_
  have hw : 39 - 5 * j + 1 - (35 - 5 * j) = 5 := by omega
  rw [bits, hw]
  exact Nat.mod_lt _ (by omega)

theorem isSome_symIdx_of_mem_encSymbols {s : List Byte} {c : Byte} (h : c ∈ encSymbols s) :
    (symIdx c).isSome = true := by
  obtain ⟨i, -, rfl⟩ := List.mem_map.mp h
  rw [symIdx_encSymbol _ (Nat.mod_lt i (by omega))]
  rfl

theorem encBlock_lt (s : List Byte) (k : Nat) : encBlock s k < 2 ^ 40 := by
  have hb : ∀ i, (s.getD i 0).toNat < 256 := fun i => (s.getD i 0).isLt
  have h0 := hb (5 * k + 0)
  have h1 := hb (5 * k + 1)
  have h2 := hb (5 * k + 2)
  have h3 := hb (5 * k + 3)
  have h4 := hb (5 * k + 4)
  simp only [encBlock]
  omega

/-- The eight symbols of a block are its 40 bits. -/
theorem digitsValue_symbols_of_block {blk : Nat} (h : blk < 2 ^ 40) :
    digitsValue 32 ((List.range 8).map fun j => bits blk (39 - 5 * j) (35 - 5 * j)) = blk := by
  simp only [List.range_succ, List.range_zero, List.nil_append, List.cons_append, List.map_cons, List.map_nil,
    digitsValue, List.foldl_cons, List.foldl_nil, bits, Nat.reduceMul, Nat.reduceSub, Nat.reduceAdd, Nat.reducePow]
  omega

/-- The five bytes of a block are its 40 bits. -/
theorem digitsValue_bytes_of_block (s : List Byte) (k : Nat) :
    digitsValue 256 ((List.range 5).map fun j => (s.getD (5 * k + j) 0).toNat) = encBlock s k := by
  simp only [List.range_succ, List.range_zero, List.nil_append, List.cons_append, List.map_cons, List.map_nil,
    digitsValue, List.foldl_cons, List.foldl_nil, encBlock]
  omega

/-- Block by block, the symbols are the same number as the bytes. -/
theorem digitsValue_symbols_eq_bytes (s : List Byte) (nb : Nat) :
    digitsValue 32 ((List.range (8 * nb)).map fun i =>
        bits (encBlock s (i / 8)) (39 - 5 * (i % 8)) (35 - 5 * (i % 8))) =
      digitsValue 256 ((List.range (5 * nb)).map fun i => (s.getD i 0).toNat) := by
  induction nb with
  | zero => simp
  | succ nb ih =>
    have hblock : ((List.range 8).map fun j =>
        bits (encBlock s ((8 * nb + j) / 8)) (39 - 5 * ((8 * nb + j) % 8)) (35 - 5 * ((8 * nb + j) % 8))) =
        (List.range 8).map fun j => bits (encBlock s nb) (39 - 5 * j) (35 - 5 * j) := by
      refine List.map_congr_left fun j hj => ?_
      have hj8 := List.mem_range.mp hj
      rw [show (8 * nb + j) / 8 = nb by omega, show (8 * nb + j) % 8 = j by omega]
    rw [Nat.mul_succ, Nat.mul_succ, List.range_add, List.range_add, List.map_append, List.map_append,
      digitsValue_append, digitsValue_append, ih, List.map_map, List.map_map]
    simp only [Function.comp_def, List.length_map, List.length_range]
    rw [hblock, digitsValue_symbols_of_block (encBlock_lt s nb), digitsValue_bytes_of_block]
    norm_num

/-- The bytes 0..m-1 of a string, zero bytes beyond its end. -/
theorem map_getD_range (s : List Byte) {m : Nat} (h : s.length ≤ m) :
    ((List.range m).map fun i => s.getD i 0) = s ++ List.replicate (m - s.length) 0 := by
  refine List.ext_getElem (by simp; omega) fun i _ _ => ?_
  simp only [List.getElem_map, List.getElem_range, List.getElem_append, List.getElem_replicate]
  split
  · next hi => rw [List.getD_eq_getElem _ _ hi]
  · next hi => rw [List.getD_eq_default _ _ (by omega)]

/-- The symbol indices are the blocks' bits in groups of five (R103). -/
theorem filterMap_symIdx_encSymbols (s : List Byte) :
    (encSymbols s).filterMap symIdx = (List.range (8 * ((s.length + 4) / 5))).map fun i =>
      bits (encBlock s (i / 8)) (39 - 5 * (i % 8)) (35 - 5 * (i % 8)) := by
  rw [encSymbols, List.filterMap_map, List.filterMap_eq_map_iff_forall_eq_some]
  intro i _
  rw [Function.comp_apply]
  exact symIdx_encSymbol _ (Nat.mod_lt i (by omega))

/-- The symbols are the input's bits and zero bits up to the end of the last block (R103). -/
theorem symbolsValue_encSymbols (s : List Byte) :
    symbolsValue (encSymbols s) = bytesValue s * 2 ^ (8 * (5 * ((s.length + 4) / 5) - s.length)) := by
  have hbytes : bytesValue s * 2 ^ (8 * (5 * ((s.length + 4) / 5) - s.length)) =
      digitsValue 256 ((List.range (5 * ((s.length + 4) / 5))).map fun i => (s.getD i 0).toNat) := by
    rw [← bytesValue_append_zeros, ← map_getD_range s (by omega), bytesValue, List.map_map]
    rfl
  rw [symbolsValue, filterMap_symIdx_encSymbols, digitsValue_symbols_eq_bytes, hbytes]

/-- A multiple of the base power above the dropped characters has zero bits in them. -/
theorem symbolsValue_take_mul_of_dvd {t : List Byte} {k p : Nat} (hlen : (validChars (t.drop k)).length = p)
    (h : 32 ^ p ∣ symbolsValue t) : symbolsValue (t.take k) * 32 ^ p = symbolsValue t := by
  have hsplit : symbolsValue t = symbolsValue (t.take k) * 32 ^ p + symbolsValue (t.drop k) := by
    conv_lhs => rw [← List.take_append_drop k t]
    rw [symbolsValue_append, ← validChars, hlen]
  have hlt : symbolsValue (t.drop k) < 32 ^ p := hlen ▸ symbolsValue_lt _
  have hzero : symbolsValue (t.drop k) = 0 :=
    Nat.eq_zero_of_dvd_of_lt ((Nat.dvd_add_right (Dvd.intro_left _ rfl)).mp (hsplit ▸ h)) hlt
  rw [hsplit, hzero, Nat.add_zero]

theorem validChars_eq_self {t : List Byte} (h : ∀ c ∈ t, (symIdx c).isSome = true) : validChars t = t :=
  List.filter_eq_self.mpr h

theorem isSome_symIdx_of_mem_encBody {s : List Byte} {c : Byte} (h : c ∈ encBody s) : (symIdx c).isSome = true :=
  isSome_symIdx_of_mem_encSymbols (List.mem_of_mem_take h)

/-- The padding stands for zero bits (R102): its symbols lie past the input's end. -/
theorem padCnt_bits_le (s : List Byte) :
    5 * padCnt (s.length % 5) ≤ 8 * (5 * ((s.length + 4) / 5) - s.length) := by
  have h : ∀ r < 5, 5 * padCnt r ≤ 8 * (5 * ((r + 4) / 5) - r) := by decide
  have hr := h (s.length % 5) (Nat.mod_lt _ (by omega))
  omega

theorem symbolsValue_encBody (s : List Byte) :
    symbolsValue (encBody s) * 2 ^ (5 * padCnt (s.length % 5)) =
      bytesValue s * 2 ^ (8 * (5 * ((s.length + 4) / 5) - s.length)) := by
  have hp := padCnt_le s
  have hdrop : (validChars ((encSymbols s).drop (8 * ((s.length + 4) / 5) - padCnt (s.length % 5)))).length =
      padCnt (s.length % 5) := by
    rw [validChars_eq_self fun c hc => isSome_symIdx_of_mem_encSymbols (List.mem_of_mem_drop hc), List.length_drop,
      length_encSymbols]
    omega
  have hpow : (32 : Nat) ^ padCnt (s.length % 5) = 2 ^ (5 * padCnt (s.length % 5)) := by rw [pow_mul]; rfl
  rw [← symbolsValue_encSymbols, ← hpow, encBody]
  refine symbolsValue_take_mul_of_dvd hdrop ?_
  rw [hpow, symbolsValue_encSymbols]
  exact Dvd.dvd.mul_left (pow_dvd_pow 2 (padCnt_bits_le s)) _

/-- Settles O15: the symbols past the input's end hold zero bits, so the padding in their place loses none. -/
theorem encodedStringShape : Obligations.EncodedStringShape := by
  intro s
  have hpad : [0, 6, 3, 3, 1].getD (s.length % 5) 0 = padCnt (s.length % 5) := by
    have h : ∀ r < 5, [0, 6, 3, 3, 1].getD r 0 = padCnt r := by decide
    exact h _ (Nat.mod_lt _ (by omega))
  refine ⟨encBody s, ?_⟩
  rw [hpad]
  exact ⟨b32enc_eq s, length_b32enc s, fun c => isSome_symIdx_of_mem_encBody, symbolsValue_encBody s⟩

/-! ### The round trip (R107) -/

/-- How many zero bytes the round trip adds to `n` bytes (R107). -/
def roundTripZeros (n : Nat) : Nat := if n % 5 = 0 then 0 else if n % 5 = 2 then 2 else 1

/-- The bytes that the encoding's characters fill (R106), and that they end within its last block. -/
theorem add_roundTripZeros (n : Nat) :
    n + roundTripZeros n = (5 * (8 * ((n + 4) / 5) - padCnt (n % 5)) + 7) / 8 ∧
      n + roundTripZeros n ≤ 5 * ((n + 4) / 5) := by
  have h : ∀ r < 5, r + roundTripZeros r = (5 * (8 * ((r + 4) / 5) - padCnt r) + 7) / 8 ∧
      r + roundTripZeros r ≤ 5 * ((r + 4) / 5) ∧ padCnt r ≤ 8 * ((r + 4) / 5) := by decide
  obtain ⟨hlen, hle, hp⟩ := h (n % 5) (Nat.mod_lt _ (by omega))
  have hz : roundTripZeros (n % 5) = roundTripZeros n := by simp [roundTripZeros]
  omega

theorem validChars_b32enc (s : List Byte) : validChars (b32enc s) = encBody s := by
  have hpad : validChars (List.replicate (padCnt (s.length % 5)) padChar) = [] := by
    rw [validChars, List.filter_replicate, if_neg (by decide)]
  rw [b32enc_eq, validChars, List.filter_append, ← validChars, ← validChars, hpad, List.append_nil,
    validChars_eq_self fun c => isSome_symIdx_of_mem_encBody]

theorem symbolsValue_validChars (t : List Byte) : symbolsValue (validChars t) = symbolsValue t := by
  have hidx : (validChars t).filterMap symIdx = t.filterMap symIdx := by
    induction t with
    | nil => rfl
    | cons c t ih => rcases hc : symIdx c with _ | v <;> simp [hc, ih]
  rw [symbolsValue, hidx, symbolsValue]

/-- The bytes hold `x` where they do so with the same zero bits after both. -/
theorem holdsBits_of_mul_two_pow {bs : List Byte} {x m q : Nat} (hlen : bs.length = (m + 7) / 8)
    (h : bytesValue bs * 2 ^ q = x * 2 ^ (8 * ((m + 7) / 8) - m + q)) : HoldsBits bs x m := by
  refine ⟨hlen, Nat.eq_of_mul_eq_mul_right (by positivity : 0 < 2 ^ q) ?_⟩
  rw [h, pow_add, Nat.mul_assoc]

/-- `s` with its zero bytes holds the bits of its encoding's characters. -/
theorem holdsBits_roundTrip (s : List Byte) :
    HoldsBits (s ++ List.replicate (roundTripZeros s.length) 0) (symbolsValue (encBody s))
      (5 * (encBody s).length) := by
  obtain ⟨hlen, hle⟩ := add_roundTripZeros s.length
  have hp := padCnt_le s
  rw [length_encBody]
  refine holdsBits_of_mul_two_pow (q := 8 * (5 * ((s.length + 4) / 5) - (s.length + roundTripZeros s.length)))
    (by simpa using hlen) ?_
  rw [← hlen, bytesValue_append_zeros, Nat.mul_assoc, ← pow_add]
  convert (symbolsValue_encBody s).symm using 3 <;> omega

/-- Settles O14: `s` with its zero bytes holds the same bits as the characters of its encoding, which are those that
the decoder keeps. -/
theorem decodeOfEncodeRestoresBytes : Obligations.DecodeOfEncodeRestoresBytes := by
  intro s
  have hdec := holdsBits_b32dec (b32enc s)
  rw [← symbolsValue_validChars, validChars_b32enc] at hdec
  exact hdec.unique (holdsBits_roundTrip s)

end Sys2Proof.Machine
end

section
/-! PROOF. Codec commands (R108, R109, R151, R152): the accepts and completions of ENCODE and DECODE, their frames and
their round trip. -/

namespace Sys2Proof.Machine

/-! ### Accepts -/

/-- The command in flight after an accept whose checks pass and that latches CTX.op only (R151). -/
def State.accepted (s : State) (i : Instr) : State := (s.recorded i).start i

theorem exec_encode_of_idle {s : State} (hs : s.seq = .idle) (h : s.blen.toNat ≤ 160) :
    exec .encode s = .next (s.accepted .encode) :=
  (exec_of_idle hs .encode).trans (congrArg _ (if_pos ((blenLegal_iff s.blen).mpr h)))

theorem exec_decode_of_idle {s : State} (hs : s.seq = .idle) (h : s.tlen.toNat ≤ 256) :
    exec .decode s = .next (s.accepted .decode) :=
  (exec_of_idle hs .decode).trans (congrArg _ (if_pos ((tlenLegal_iff s.tlen).mpr h)))

theorem exec_truncate_of_idle {s : State} (hs : s.seq = .idle) (h1 : 1 ≤ s.dlen.toNat) (h64 : s.dlen.toNat ≤ 64) :
    exec .truncate s = .next (s.accepted .truncate) :=
  (exec_of_idle hs .truncate).trans (congrArg _ (if_pos ((digestLenLegal_iff s.dlen).mpr ⟨h1, h64⟩)))

theorem exec_clear_of_idle {s : State} (hs : s.seq = .idle) : exec .clear s = .next (s.accepted .clear) :=
  exec_of_idle hs .clear

/-- Settles O9: the check of each command passes, and CLEAR has none. -/
theorem bufferCommandsStart : Obligations.BufferCommandsStart := fun _ hs =>
  ⟨exec_encode_of_idle hs, exec_decode_of_idle hs, exec_truncate_of_idle hs, exec_clear_of_idle hs⟩

/-! ### The results fit their buffers (R106) -/

@[simp] theorem length_binArg (s : State) : s.binArg.length = s.blen.toNat := length_readBuf ..

@[simp] theorem length_txtArg (s : State) : s.txtArg.length = s.tlen.toNat := length_readBuf ..

theorem length_b32enc_binArg (s : State) : (b32enc s.binArg).length = 8 * ((s.blen.toNat + 4) / 5) := by simp

theorem length_b32dec_txtArg_le {s : State} (h : s.tlen.toNat ≤ 256) : (b32dec s.txtArg).length ≤ 160 := by
  have hv : (validChars s.txtArg).length ≤ s.txtArg.length := List.length_filter_le _ _
  rw [length_txtArg] at hv
  rw [length_b32dec]
  omega

/-! ### Completions -/

theorem toNat_tlen_completeEncode {s : State} (h : s.blen.toNat ≤ 160) :
    (completeEncode s).tlen.toNat = (b32enc s.binArg).length := by
  have hlen := length_b32enc_binArg s
  exact Nat.mod_eq_of_lt (by omega)

theorem toNat_blen_completeDecode {s : State} (h : s.tlen.toNat ≤ 256) :
    (completeDecode s).blen.toNat = (b32dec s.txtArg).length := by
  have hlen := length_b32dec_txtArg_le h
  exact Nat.mod_eq_of_lt (by omega)

/-- ENCODE leaves the encoding of its operand as the operand of DECODE (R108). -/
theorem txtArg_completeEncode {s : State} (h : s.blen.toNat ≤ 160) : (completeEncode s).txtArg = b32enc s.binArg := by
  have hlen := length_b32enc_binArg s
  rw [State.txtArg, toNat_tlen_completeEncode h]
  exact readBuf_writeBuf s .txt _ (show _ ≤ 256 by omega)

/-- DECODE leaves the decoding of its operand as the operand of ENCODE (R109). -/
theorem binArg_completeDecode {s : State} (h : s.tlen.toNat ≤ 256) : (completeDecode s).binArg = b32dec s.txtArg := by
  rw [State.binArg, toNat_blen_completeDecode h]
  exact readBuf_writeBuf s .bin _ (length_b32dec_txtArg_le h)

/-- Settles O20: TXT and TLEN are what the completion wrote, and `complete` ends the command. -/
theorem encodeWritesBase32 : Obligations.EncodeWritesBase32 := by
  intro s hs hb
  exact ⟨completeEncode s, exec_of_run hs, (toNat_tlen_completeEncode hb).trans (length_b32enc_binArg s),
    txtArg_completeEncode hb, rfl, rfl, rfl, rfl, rfl⟩

/-- Settles O21: BIN and BLEN are what the completion wrote, and `complete` ends the command. -/
theorem decodeWritesBytes : Obligations.DecodeWritesBytes := by
  intro s hs ht
  have hlen := toNat_blen_completeDecode ht
  exact ⟨completeDecode s, exec_of_run hs, hlen, hlen.trans_le (length_b32dec_txtArg_le ht),
    binArg_completeDecode ht, rfl, rfl, rfl, rfl, rfl⟩

/-- Settles O22: each completion is one buffer write, one length and `complete`. -/
theorem codecCommandFrame : Obligations.CodecCommandFrame := by
  intro s t
  refine ⟨fun hs hb he => ?_, fun hs ht he => ?_⟩
  · obtain rfl := eq_completionPart_of_exec hs he
    refine ⟨rfl, fun a ha => ?_⟩
    rw [completionPart, toNat_tlen_completeEncode hb] at ha
    exact readByte_writeBuf_outside s .txt _ ha
  · obtain rfl := eq_completionPart_of_exec hs he
    refine ⟨rfl, fun a ha => ?_⟩
    rw [completionPart, toNat_blen_completeDecode ht] at ha
    exact readByte_writeBuf_outside s .bin _ ha

/-! ### ENCODE and then DECODE -/

theorem readByte_bin_eq_getD {s : State} {i : Nat} (h : i < s.blen.toNat) :
    s.readByte (0x200 + i) = s.binArg.getD i 0 :=
  (getD_readBuf s .bin h).symm

/-- What ENCODE writes into TXT is legal for DECODE. -/
theorem toNat_tlen_completeEncode_le {s : State} (h : s.blen.toNat ≤ 160) :
    (completeEncode s).tlen.toNat ≤ 256 := by
  have hlen := length_b32enc_binArg s
  rw [toNat_tlen_completeEncode h]
  omega

/-- DECODE takes the text that ENCODE left, so BIN holds the codec's round trip (R107). -/
theorem binArg_encode_decode {s : State} (h : s.blen.toNat ≤ 160) :
    (completeDecode ((completeEncode s).accepted .decode)).binArg =
      s.binArg ++ List.replicate (roundTripZeros s.blen.toNat) 0 := by
  have htxt : ((completeEncode s).accepted .decode).txtArg = b32enc s.binArg := txtArg_completeEncode h
  have htlen : ((completeEncode s).accepted .decode).tlen.toNat ≤ 256 := toNat_tlen_completeEncode_le h
  rw [binArg_completeDecode htlen, htxt, ← length_binArg s]
  exact decodeOfEncodeRestoresBytes s.binArg

/-- A BIN operand with `k` zero bytes put after it, byte by byte. -/
theorem bin_of_binArg_eq_append {s t : State} {k : Nat} (h : t.binArg = s.binArg ++ List.replicate k 0) :
    (∀ i, i < s.blen.toNat → t.readByte (0x200 + i) = s.readByte (0x200 + i)) ∧
      t.blen.toNat = s.blen.toNat + k ∧
      ∀ i, s.blen.toNat ≤ i → i < t.blen.toNat → t.readByte (0x200 + i) = 0 := by
  have hblen : t.blen.toNat = s.blen.toNat + k := by simpa using congrArg List.length h
  refine ⟨fun i hi => ?_, hblen, fun i h1 h2 => ?_⟩
  · rw [readByte_bin_eq_getD (by omega), readByte_bin_eq_getD hi, h, List.getD_append _ _ _ _ (by simpa using hi)]
  · rw [readByte_bin_eq_getD h2, h, List.getD_append_right _ _ _ _ (by simpa using h1),
      List.getD_replicate _ (by simp; omega)]

/-- Settles O23: the accepts pass their checks (O9), and BIN at the end is the old BIN and the zero bytes. -/
theorem encodeThenDecodeRestoresBin : Obligations.EncodeThenDecodeRestoresBin := by
  intro s hs hb
  have hb1 : (s.accepted .encode).blen.toNat ≤ 160 := hb
  obtain ⟨hold, hblen, hzero⟩ := bin_of_binArg_eq_append (binArg_encode_decode hb1)
  exact ⟨_, _, _, _, exec_encode_of_idle hs hb, exec_of_run rfl,
    exec_decode_of_idle rfl (toNat_tlen_completeEncode_le hb1), exec_of_run rfl, hold, hblen, hzero, rfl, rfl⟩

end Sys2Proof.Machine
end

section
/-! PROOF. Engine functions (R120-R126): dynamic truncation, the code string, the message of a counter and the window,
each as a number. -/

namespace Sys2Proof.Machine

/-! ### Dynamic truncation (R122) -/

/-- The value of `DT` where it does not fail (R122). -/
def dtValue (d : List Byte) : BitVec 31 := (dtWord d &&& 0x7FFFFFFF#32).setWidth 31

theorem dt_eq (d : List Byte) : dt d = if d.length < dtOffset d + 4 then none else some (dtValue d) := rfl

theorem dt_eq_none_iff (d : List Byte) : dt d = none ↔ d.length < dtOffset d + 4 := by simp [dt_eq]

theorem dt_of_offset_le {d : List Byte} (h : dtOffset d + 4 ≤ d.length) : dt d = some (dtValue d) := by
  rw [dt_eq, if_neg (by omega)]

theorem eq_dtValue_of_dt {d : List Byte} {t : BitVec 31} (h : dt d = some t) : t = dtValue d := by
  rw [dt_eq] at h
  split at h
  · cases h
  · exact (Option.some.inj h).symm

/-- Masking a byte with 0x0F keeps its low four bits. -/
theorem dtOffset_eq_mod (d : List Byte) : dtOffset d = (d.getD (d.length - 1) 0).toNat % 16 := by
  rw [dtOffset, BitVec.toNat_and]
  exact Nat.and_two_pow_sub_one_eq_mod _ 4

/-- The offset is at most 15, so its four bytes end within the first 19. -/
theorem dt_of_19_le {d : List Byte} (h : 19 ≤ d.length) : dt d = some (dtValue d) := by
  refine dt_of_offset_le ?_
  rw [dtOffset_eq_mod]
  omega

theorem toNat_dtWord (d : List Byte) :
    (dtWord d).toNat = (d.getD (dtOffset d) 0).toNat * 2 ^ 24 + (d.getD (dtOffset d + 1) 0).toNat * 2 ^ 16 +
      (d.getD (dtOffset d + 2) 0).toNat * 2 ^ 8 + (d.getD (dtOffset d + 3) 0).toNat := by
  simp only [dtWord, toNat_append_eq_add]
  ring

/-- The four bytes from the offset, the most significant first, without the top bit (R122). -/
theorem toNat_dtValue (d : List Byte) :
    (dtValue d).toNat = ((d.getD (dtOffset d) 0).toNat * 2 ^ 24 + (d.getD (dtOffset d + 1) 0).toNat * 2 ^ 16 +
      (d.getD (dtOffset d + 2) 0).toNat * 2 ^ 8 + (d.getD (dtOffset d + 3) 0).toNat) % 2 ^ 31 := by
  have hmask : (dtWord d).toNat &&& 0x7FFFFFFF = (dtWord d).toNat % 2 ^ 31 := Nat.and_two_pow_sub_one_eq_mod _ 31
  rw [← toNat_dtWord, ← hmask, dtValue, BitVec.toNat_setWidth, BitVec.toNat_and]
  exact Nat.mod_eq_of_lt (lt_of_le_of_lt Nat.and_le_right (by decide))

/-- Settles O24: the last byte is the one at `length - 1`, and the offset its low four bits. -/
theorem truncationIsDynamicTruncation : Obligations.TruncationIsDynamicTruncation := by
  intro d h off
  have hoff : dtOffset d = off := by
    have hlast : d.length - 1 < d.length := Nat.sub_lt (List.length_pos_iff.mpr h) Nat.one_pos
    rw [dtOffset_eq_mod, List.getD_eq_getElem _ _ hlast, ← List.getLast_eq_getElem h]
  rw [← hoff]
  refine ⟨dt_eq_none_iff d, fun h19 => by simp [dt_of_19_le h19], fun t ht => ?_⟩
  rw [eq_dtValue_of_dt ht, toNat_dtValue]

/-! ### The code string (R123, R124) -/

/-- The `n` lowest digits of a number, the most significant first, are the number without its higher digits. -/
theorem digitsValue_digits (base u n : Nat) :
    digitsValue base ((List.range n).map fun k => u / base ^ (n - 1 - k) % base) = u % base ^ n := by
  induction n generalizing u with
  | zero => simp [Nat.mod_one]
  | succ n ih =>
    have hhigh : ((List.range n).map fun k => u / base ^ (n - k) % base) =
        (List.range n).map fun k => u / base / base ^ (n - 1 - k) % base := by
      refine List.map_congr_left fun k hk => ?_
      have hk' := List.mem_range.mp hk
      rw [Nat.div_div_eq_div_mul, ← pow_succ', show n - 1 - k + 1 = n - k by omega]
    rw [List.range_succ, List.map_append, digitsValue_append, Nat.add_sub_cancel, hhigh, ih]
    simp [digitsValue_cons, pow_succ', Nat.mod_mul, Nat.mul_comm, Nat.add_comm]

theorem toNat_digitChar (v k : Nat) : (digitChar v k).toNat = 0x30 + v / 10 ^ (5 - k) % 10 := by
  rw [digitChar, BitVec.toNat_ofNat]
  omega

/-- Character `i` after SETCODE is digit `i` of the code value (R123, R37). -/
theorem codeChar_setCode (s : State) (t : BitVec 31) {i : Nat} (hi : i < 6) :
    (s.setCode t).codeChar i = digitChar (codeValue t) i :=
  List.map_inj_left.mp (codeStr_setCode s t) i (List.mem_range.mpr hi)

/-- Settles O25: character `i` is digit `i` of the code value. -/
theorem codeIsSixDecimalDigits : Obligations.CodeIsSixDecimalDigits := by
  intro s t u
  have hcval : u.cval.toNat = codeValue t := toNat_cval_of_codeValue t
  have hchar : ∀ i, i < 6 → (u.codeChar i).toNat = 0x30 + codeValue t / 10 ^ (5 - i) % 10 := fun i hi => by
    rw [codeChar_setCode s t hi, toNat_digitChar]
  refine ⟨rfl, hcval, fun i hi => by rw [hchar i hi]; omega, ?_⟩
  have hdigits := digitsValue_digits 10 (codeValue t) 6
  rw [Nat.mod_eq_of_lt (show _ < 10 ^ 6 from codeValue_lt t), digitsValue, List.foldl_map] at hdigits
  rw [hcval]
  refine hdigits.symm.trans (List.foldl_ext _ _ _ fun n i hi => ?_)
  rw [hchar i (List.mem_range.mp hi), Nat.add_sub_cancel_left, Nat.mul_comm]

theorem codeEq_iff_bytes (s : State) :
    s.codeEq = true ↔ s.clen.toNat = 6 ∧ ∀ i, i < 6 → s.candByte i = s.codeChar i := by
  simp [State.codeEq]

/-- Settles O26: CODEEQ compares the bytes, and the strings are those bytes. -/
theorem codeEqIsStringEquality : Obligations.CodeEqIsStringEquality :=
  fun s => ⟨codeEq_iff_bytes s, codeEq_iff_candStr s⟩

/-! ### The message of a counter (R120) -/

theorem foldl_bytes_eq_bytesValue (bs : List Byte) :
    bs.foldl (fun n b => 256 * n + b.toNat) 0 = bytesValue bs := by
  simp only [bytesValue, digitsValue, List.foldl_map, Nat.mul_comm]

/-- Byte `k` of a message is digit `k` of the counter mod 2^64 in base 256 (R120). -/
theorem be64_bytes (c : Int) :
    (be64 c).map BitVec.toNat = (List.range 8).map fun k => (c % 2 ^ 64).toNat / 256 ^ (7 - k) % 256 := by
  rw [be64, List.map_map]
  refine List.map_congr_left fun k hk => ?_
  have hk' := List.mem_range.mp hk
  rw [Function.comp_apply, BitVec.toNat_ofNat, bits, show 63 - 8 * k + 1 - (56 - 8 * k) = 8 by omega, Nat.mod_mod,
    show 56 - 8 * k = 8 * (7 - k) by omega, pow_mul]
  rfl

theorem bytesValue_be64 (c : Int) : bytesValue (be64 c) = (c % 2 ^ 64).toNat := by
  have hlt : (c % 2 ^ 64).toNat < 256 ^ 8 := by omega
  rw [bytesValue, be64_bytes]
  exact (digitsValue_digits 256 _ 8).trans (Nat.mod_eq_of_lt hlt)

/-- Settles O27: read as a number, the message is the remainder, which is not negative. -/
theorem counterMessageIsBigEndian : Obligations.CounterMessageIsBigEndian := by
  intro c
  refine ⟨by simp [be64], ?_⟩
  rw [foldl_bytes_eq_bytesValue, bytesValue_be64]
  exact Int.toNat_of_nonneg (Int.emod_nonneg c (by decide))

/-! ### The window (R126) -/

theorem windowStart_eq_ediv (now : Int) (w : Nat) : windowStart now w = (now - 30 * w) / 30 :=
  Int.fdiv_eq_ediv_of_nonneg _ (by decide)

theorem windowEnd_eq_ediv (now : Int) (w : Nat) : windowEnd now w = (now + 30 * w) / 30 :=
  Int.fdiv_eq_ediv_of_nonneg _ (by decide)

/-- Settles O28: a multiple of 30 comes out of the floor; the counters are `windowCounters_eq`. -/
theorem windowIsHalfOpenAroundTheStep : Obligations.WindowIsHalfOpenAroundTheStep := by
  intro now w step
  refine ⟨windowStart_eq_ediv now w, windowEnd_eq_ediv now w, ?_, ?_, ?_⟩
  · rw [windowStart_eq_ediv]
    omega
  · rw [windowEnd_eq_ediv]
    omega
  · rw [windowCounters_eq, List.range_eq_range']

end Sys2Proof.Machine
end

section
/-! PROOF. Engine commands (R129-R133): the accepts of GENERATE and VALIDATE, and the completions of TRUNCATE, GENERATE
and VALIDATE under the provider's contract. -/

namespace Sys2Proof.Machine

/-! ### Accepts -/

theorem acceptGenerate_of_legal {s : State} (hen : s.pcfgEn = true) (hd : digestLenLegal s.pcfgDsize = true)
    (ht : tlenLegal s.tlen = true) : acceptGenerate s = s.latchDsize.start .generate := by
  simp [acceptGenerate, hen, hd, ht]

theorem acceptValidate_of_legal {s : State} (hen : s.pcfgEn = true) (hd : digestLenLegal s.pcfgDsize = true)
    (ht : tlenLegal s.tlen = true) : acceptValidate s = s.latchTime.latchDsize.latchWindow.start .validate := by
  simp [acceptValidate, hen, hd, ht]

/-- A stated time input is the sample, and nothing is drawn for it (R53). -/
theorem sampleTime_of_stated {s : State} {x : BitVec 64} (h : s.inputs.time = some x) :
    s.sampleTime = (x, s.draws) := by
  simp only [State.sampleTime, h]

/-- Settles O10: the three checks pass, and the latches are of the registers as the accept's record leaves them. -/
theorem engineCommandsStart : Obligations.EngineCommandsStart := by
  intro s hs hen h1 h64 htlen
  have hd : digestLenLegal s.pcfgDsize = true := (digestLenLegal_iff _).mpr ⟨h1, h64⟩
  have ht : tlenLegal s.tlen = true := (tlenLegal_iff _).mpr htlen
  refine ⟨?_, s.sampleTime.1, s.sampleTime.2, ?_, fun x hx => ?_⟩
  · exact (exec_of_idle hs .generate).trans (congrArg _ (acceptGenerate_of_legal (s := s.recorded .generate) hen hd ht))
  · exact (exec_of_idle hs .validate).trans (congrArg _ (acceptValidate_of_legal (s := s.recorded .validate) hen hd ht))
  · rw [sampleTime_of_stated hx]
    exact ⟨rfl, rfl⟩

/-! ### TRUNCATE -/

@[simp] theorem length_dgArg (s : State) : s.dgArg.length = s.dlen.toNat := length_readBuf ..

theorem getD_dgArg {s : State} {i : Nat} (h : i < s.dlen.toNat) : s.dgArg.getD i 0 = s.readByte (0x100 + i) :=
  getD_readBuf s .dg h

theorem dtOffset_dgArg {s : State} (h : 1 ≤ s.dlen.toNat) :
    dtOffset s.dgArg = (s.readByte (0x100 + (s.dlen.toNat - 1))).toNat % 16 := by
  rw [dtOffset_eq_mod, length_dgArg, getD_dgArg (by omega)]

theorem completeTruncate_of_dt_none {s : State} (h : dt s.dgArg = none) :
    completeTruncate s = s.complete .truncRange false false := by
  simp only [completeTruncate, h, State.raiseError_eq]

theorem completeTruncate_of_dt_some {s : State} {v : BitVec 31} (h : dt s.dgArg = some v) :
    completeTruncate s = (s.setCode v).complete .noError false false := by
  simp only [completeTruncate, h]

/-- Settles O29: the four bytes lie in DG[0..DLEN-1], so DT of the operand does not fail (R122). -/
theorem truncateWritesCode : Obligations.TruncateWritesCode := by
  intro s hs h1 _ off hoff
  have hoffset : dtOffset s.dgArg = off := dtOffset_dgArg h1
  have hdt : dt s.dgArg = some (dtValue s.dgArg) := dt_of_offset_le (by rw [hoffset, length_dgArg]; exact hoff)
  have hvalue := toNat_dtValue s.dgArg
  rw [hoffset, getD_dgArg (by omega), getD_dgArg (by omega), getD_dgArg (by omega), getD_dgArg (by omega)] at hvalue
  obtain ⟨-, hcval, hstr⟩ := holdsCode_setCode s (dtValue s.dgArg)
  refine ⟨(s.setCode (dtValue s.dgArg)).complete .noError false false, ?_, hvalue, hcval, ?_, rfl⟩
  · exact (exec_of_run hs).trans (congrArg _ (completeTruncate_of_dt_some hdt))
  · exact hstr.trans (congrArg codeChars hcval.symm)

/-- Settles O30: DT of the operand fails, and the completion is the error's record alone (R155). -/
theorem truncateOutOfRangeChangesStatusOnly : Obligations.TruncateOutOfRangeChangesStatusOnly := by
  intro s hs h1 _ hshort
  have hdt : dt s.dgArg = none := by
    rw [dt_eq_none_iff, length_dgArg, dtOffset_dgArg h1]
    exact hshort
  exact (exec_of_run hs).trans (congrArg _ (completeTruncate_of_dt_none hdt))

/-! ### GENERATE -/

theorem cnt_eq (s : State) : s.cnt = s.cntHi.toNat * 2 ^ 32 + s.cntLo.toNat := toNat_append_eq_add ..

/-- The work of GENERATE under the contract: its request is made and the digest recorded (R121, R130). -/
def State.digested (s : State) : State :=
  { s.setKey s.secret with
    mem := s.mem.store 0x100 ((s.counterDigest s.cnt).take 64), dlen := s.ctx.dsize
    requests := s.requests ++ [s.counterRequest s.cnt] }

section
variable {s : State} (hc : s.inputs.conduct = .keepsContract)
  (hlen : (s.counterDigest s.cnt).length = s.ctx.dsize.toNat)
include hc hlen

theorem hcall_of_contract :
    (s.setKey s.secret).hcall (be64 s.cnt) s.ctx.dsize.toNat = (s.counterDigest s.cnt, s.digested) := by
  have hkey : (s.setKey s.secret).keyBytes = s.secret := State.keyBytes_setKey s _
  rw [hcall_of_kept (s := s.setKey s.secret) hc (by rw [hkey]; exact hlen), hkey]
  simp [State.digested, State.afterCall, State.counterRequest, State.counterDigest]

/-- GENERATE under the contract, where the digest cannot be truncated and where it can. -/
theorem completeGenerate_of_contract :
    (dt (s.counterDigest s.cnt) = none → completeGenerate s = s.digested.complete .truncRange false false) ∧
      ∀ v, dt (s.counterDigest s.cnt) = some v →
        completeGenerate s = (s.digested.setCode v).complete .noError false false :=
  completeGenerate_of_hcall (by simp [hc]) (hcall_of_contract hc hlen)

omit hc in
theorem readBuf_dg_digested (hds : s.ctx.dsize.toNat ≤ 64) :
    s.digested.readBuf .dg s.ctx.dsize.toNat = s.counterDigest s.cnt := by
  rw [← hlen] at hds ⊢
  exact readBuf_dg_afterCall s (be64 s.cnt) s.ctx.dsize.toNat s.draws hds

end

/-- Settles O31: the one call is kept, its digest truncates, and SETCODE records the value. -/
theorem generateWritesCode : Obligations.GenerateWritesCode := by
  intro s v hs hc hds d hlen hdt
  have hcnt : (s.cntHi.toNat * 2 ^ 32 + s.cntLo.toNat : Int) = (s.cnt : Int) := by
    rw [cnt_eq]
    norm_cast
  have hd : d = s.counterDigest s.cnt := by rw [← hcnt]; rfl
  rw [hd] at hlen hdt ⊢
  rw [hcnt]
  obtain ⟨htrunc, hcval, hstr⟩ := holdsCode_setCode s.digested v
  refine ⟨(s.digested.setCode v).complete .noError false false, ?_, readBuf_dg_digested hlen hds, rfl, htrunc, hcval,
    hstr, rfl, rfl, rfl, rfl, rfl, rfl⟩
  exact (exec_of_run hs).trans (congrArg _ ((completeGenerate_of_contract hc hlen).2 v hdt))

/-- Settles O32: after the kept call `complete` is all that follows, so the code registers stay. -/
theorem generateOutOfRangeKeepsCode : Obligations.GenerateOutOfRangeKeepsCode := by
  intro s hs hc hds hlen hdt
  refine ⟨s.digested.complete .truncRange false false, ?_, readBuf_dg_digested hlen hds, rfl⟩
  exact (exec_of_run hs).trans (congrArg _ ((completeGenerate_of_contract hc hlen).1 hdt))

/-! ### VALIDATE: the digest of each call -/

/-- The values drawn before call `k` of a scan from counter `start`: one for each call whose contract is broken (U4). -/
def State.drawsBefore (s : State) (start : Int) : Nat → Nat
  | 0 => s.draws
  | k + 1 =>
    if s.inputs.conduct = .keepsContract ∧ (s.counterDigest (start + (k : Int))).length = s.ctx.dsize.toNat then
      s.drawsBefore start k
    else s.drawsBefore start k + 1

/-- The digest of call `k` of a scan from counter `start` (R52, U4). -/
def State.callDigest (s : State) (start : Int) (k : Nat) : List Byte :=
  if s.inputs.conduct = .keepsContract ∧ (s.counterDigest (start + (k : Int))).length = s.ctx.dsize.toNat then
    s.counterDigest (start + (k : Int))
  else (List.range s.ctx.dsize.toNat).map (Config.freeDigestByte (s.drawsBefore start k))

theorem digestsOf_callDigest (s : State) (start : Int) (m : Nat) :
    DigestsOf s start (s.callDigest start) (s.drawsBefore start) m :=
  fun _ _ => ⟨fun hk => ⟨if_pos hk, if_pos hk⟩, fun hn => ⟨if_neg hn, if_neg hn⟩⟩

section
variable {s t : State} {start : Int} {d : Nat → List Byte} {q : Nat → Nat} {code : Nat → BitVec 31} {n m w : Nat}

theorem callDigest_of_contract {k : Nat} (hc : s.inputs.conduct = .keepsContract)
    (hlen : (s.counterDigest (start + (k : Int))).length = s.ctx.dsize.toNat) :
    s.callDigest start k = s.counterDigest (start + (k : Int)) :=
  if_pos ⟨hc, hlen⟩

/-- VALIDATE in flight under the contract answers the end of its scan. -/
theorem exec_validate_ends (hs : s.seq = .run .validate) (hc : s.inputs.conduct = .keepsContract)
    (hds : s.ctx.dsize.toNat ≤ 64) (hstart : start = s.ctx.now.toInt / 30 - (s.ctx.w.toNat : Int)) :
    ∃ t n, exec .validate s = .next t ∧
      ScanEnds s start (s.callDigest start) (s.drawsBefore start) (2 * s.ctx.w.toNat) n t := by
  subst hstart
  obtain ⟨n, hends⟩ := completeValidate_ends hds (by simp [hc]) rfl (digestsOf_callDigest s _ _)
  exact ⟨_, n, exec_of_run hs, hends⟩

/-! ### VALIDATE: where the scan ends -/

/-- The registers at the end of a scan: what `complete` sets, and the last call's (R131, R152). -/
theorem ScanEnds.registers (h : ScanEnds s start d q m n t) :
    t.seq = .idle ∧ t.done = true ∧ t.unavail = false ∧
      t.requests = s.requests ++ (List.range n).map (fun (k : Nat) => s.counterRequest (start + (k : Int))) ∧
      (n = 0 → t.mem = s.mem ∧ t.dlen = s.dlen ∧ t.keepsCodeOf s) ∧
      (1 ≤ n → t.dlen = s.ctx.dsize ∧ t.readBuf .dg s.ctx.dsize.toNat = d (n - 1)) := by
  obtain ⟨-, ⟨u, e, b, rfl, hu⟩, -, hkeeps, -⟩ := h
  refine ⟨rfl, rfl, rfl, hu.requests, fun hn => ?_, hu.lastCall⟩
  obtain ⟨hmem, hdlen⟩ := hu.noCall hn
  exact ⟨hmem, hdlen, hkeeps hn⟩

/-- Where every digest truncates, the scan ends at its first match or at the end of the window (R131). -/
theorem ScanEnds.of_all_truncate (h : ScanEnds s start d q m n t) (hcode : ∀ k, k < m → dt (d k) = some (code k)) :
    t.err = .noError ∧ (∀ k, k + 1 < n → ¬ s.candidateIs (code k)) ∧ (1 ≤ n → t.holdsCode (code (n - 1))) ∧
      (t.matched = true ∧ 1 ≤ n ∧ s.candidateIs (code (n - 1)) ∨
        t.matched = false ∧ n = m ∧ ∀ k, k < n → ¬ s.candidateIs (code k)) := by
  obtain ⟨hle, -, hpassed, -, hverdict⟩ := h
  have hvalue : ∀ {k v}, k < m → dt (d k) = some v → v = code k := fun hk hv =>
    Option.some.inj (hv.symm.trans (hcode _ hk))
  have hbefore : ∀ k, k + 1 < n → ¬ s.candidateIs (code k) := fun k hk => by
    obtain ⟨v, hv, hne⟩ := hpassed k (by omega)
    exact hvalue (by omega) hv ▸ hne
  rcases hverdict with ⟨hn, hm, he, v, hv, hcand, hholds⟩ | ⟨hn, -, -, hnone, -⟩ | ⟨hn, hm, he, hlast⟩
  · obtain rfl := hvalue (by omega) hv
    exact ⟨he, hbefore, fun _ => hholds, .inl ⟨hm, hn, hcand⟩⟩
  · cases hnone.symm.trans (hcode (n - 1) (by omega))
  · refine ⟨he, hbefore, fun h1 => ?_, .inr ⟨hm, hn, fun k hk => ?_⟩⟩
    · obtain ⟨v, hv, -, hholds⟩ := hlast h1
      exact hvalue (by omega) hv ▸ hholds
    · obtain ⟨v, hv, hne, -⟩ := hlast (by omega)
      rcases Nat.lt_or_ge (k + 1) n with hk1 | hk1
      · exact hbefore k hk1
      · obtain rfl : k = n - 1 := by omega
        exact hvalue (by omega) hv ▸ hne

/-- Where calls 0..w-1 pass and the digest of call `w` cannot be truncated, the scan ends with that call (R131, R155). -/
theorem ScanEnds.of_short_digest (h : ScanEnds s start d q m n t) (hw : w < m)
    (hpass : ∀ k, k < w → dt (d k) = some (code k) ∧ ¬ s.candidateIs (code k)) (hshort : dt (d w) = none) :
    n = w + 1 ∧ t.matched = false ∧ t.err = .truncRange ∧ (w = 0 → t.keepsCodeOf s) ∧
      (1 ≤ w → t.holdsCode (code (w - 1))) := by
  obtain ⟨-, -, hpassed, -, hverdict⟩ := h
  have hle : n ≤ w + 1 := by
    by_contra hlt
    obtain ⟨v, hv, -⟩ := hpassed w (by omega)
    cases hshort.symm.trans hv
  have hlast : ∀ {k v}, k ≤ w → dt (d k) = some v → ¬ s.candidateIs v ∧ k < w := fun {k v} hk hv => by
    rcases Nat.lt_or_eq_of_le hk with hlt | rfl
    · obtain ⟨hcode, hne⟩ := hpass k hlt
      exact ⟨Option.some.inj (hcode.symm.trans hv) ▸ hne, hlt⟩
    · cases hshort.symm.trans hv
  rcases hverdict with ⟨hn, -, -, v, hv, hcand, -⟩ | ⟨hn, hm, he, hnone, hkeeps, hholds⟩ | ⟨hn, -, -, hend⟩
  · exact absurd hcand (hlast (by omega) hv).1
  · obtain rfl : n = w + 1 := by
      rcases Nat.lt_or_eq_of_le hle with hlt | rfl
      · cases hnone.symm.trans (hpass (n - 1) (by omega)).1
      · rfl
    exact ⟨rfl, hm, he, fun _ => hkeeps (by omega), fun _ => hholds (by omega) _ (hpass (w - 1) (by omega)).1⟩
  · obtain ⟨v, hv, -⟩ := hend (by omega)
    exact absurd (hlast (by omega) hv).2 (by omega)

end

/-! ### VALIDATE: the statements -/

/-- Settles O36: each call's digest is that of its counter, so the scan ends at its first match or the window's end. -/
theorem validateScansUpToTheFirstMatch : Obligations.ValidateScansUpToTheFirstMatch := by
  intro s hs hc hds start code hcode
  have hdigest : ∀ k, k < 2 * s.ctx.w.toNat → s.callDigest start k = s.counterDigest (start + (k : Int)) :=
    fun k hk => callDigest_of_contract hc (hcode k hk).1
  obtain ⟨t, n, hexec, hends⟩ := exec_validate_ends (start := start) hs hc hds rfl
  have hle : n ≤ 2 * s.ctx.w.toNat := hends.1
  obtain ⟨-, -, -, hreq, hzero, hlast⟩ := hends.registers
  obtain ⟨-, hbefore, hholds, hverdict⟩ := hends.of_all_truncate (code := code) fun k hk => by
    rw [hdigest k hk, (hcode k hk).2]
  refine ⟨t, n, hexec, hle, hreq, hbefore, fun hm => ?_, fun hm => ?_, fun hn => ?_, fun hn => ?_⟩
  · rcases hverdict with ⟨-, hmatch⟩ | ⟨hf, -⟩
    · exact hmatch
    · cases hm.symm.trans hf
  · rcases hverdict with ⟨ht, -⟩ | ⟨-, hnone⟩
    · cases hm.symm.trans ht
    · exact hnone
  · obtain ⟨hmem, hdlen, htrunc, hcval, h0, h1⟩ := hzero hn
    exact ⟨hmem, hdlen, htrunc, hcval, codeStr_congr h0 h1⟩
  · obtain ⟨hdlen, hdg⟩ := hlast hn
    exact ⟨hdlen, hdg.trans (hdigest (n - 1) (by omega)), hholds hn⟩

/-- Settles O35: with 19 bytes every digest truncates, and the window's counters are those of the scan's calls. -/
theorem validateAcceptsExactlyTheWindow : Obligations.ValidateAcceptsExactlyTheWindow := by
  intro s hs hc h19 hds step w hlen
  obtain ⟨t, n, hexec, hends⟩ := exec_validate_ends (start := step - w) hs hc hds rfl
  have hle : n ≤ 2 * s.ctx.w.toNat := hends.1
  have hcode : ∀ c, step - w ≤ c → c < step + w → dt (s.counterDigest c) = some (dtValue (s.counterDigest c)) :=
    fun c hlo hhi => dt_of_19_le (by rw [hlen c hlo hhi]; exact h19)
  obtain ⟨hseq, hdone, hun, -⟩ := hends.registers
  obtain ⟨herr, -, -, hverdict⟩ := hends.of_all_truncate
    (code := fun k => dtValue (s.counterDigest (step - w + (k : Int)))) fun k hk => by
      rw [callDigest_of_contract hc (hlen _ (by omega) (by omega)), hcode _ (by omega) (by omega)]
  refine ⟨t, hexec, hseq, hdone, hun, herr, fun hm => ?_, ?_⟩
  · rcases hverdict with ⟨-, hn, hcand⟩ | ⟨hf, -⟩
    · exact ⟨_, _, by omega, by omega, hcode _ (by omega) (by omega), hcand⟩
    · cases hm.symm.trans hf
  · rintro ⟨c, v, hlo, hhi, hv, hcand⟩
    rcases hverdict with ⟨hm, -⟩ | ⟨-, hn, hnone⟩
    · exact hm
    · obtain ⟨k, rfl⟩ : ∃ k : Nat, c = step - w + (k : Int) := ⟨(c - (step - w)).toNat, by omega⟩
      exact absurd (eq_dtValue_of_dt hv ▸ hcand) (hnone k (by omega))

/-- Settles O37: the calls before the short digest pass, so the scan ends with it (R155). -/
theorem validateStopsAtShortDigest : Obligations.ValidateStopsAtShortDigest := by
  intro s code m hs hc hds hm start hpass hlen hshort
  obtain ⟨t, n, hexec, hends⟩ := exec_validate_ends (start := start) hs hc hds rfl
  have hdigest : s.callDigest start m = s.counterDigest (start + (m : Int)) := callDigest_of_contract hc hlen
  obtain ⟨hseq, hdone, -, hreq, -, hlast⟩ := hends.registers
  obtain ⟨rfl, hmatched, herr, hkeeps, hholds⟩ := hends.of_short_digest (code := code) hm
    (fun k hk => by
      obtain ⟨hlenk, hdt, hne⟩ := hpass k hk
      exact ⟨by rw [callDigest_of_contract hc hlenk, hdt], hne⟩)
    (by rw [hdigest, hshort])
  obtain ⟨hdlen, hdg⟩ := hlast (by omega)
  refine ⟨t, hexec, hseq, hdone, herr, hmatched, hdg.trans hdigest, hdlen, hreq, fun hm0 => ?_, hholds⟩
  obtain ⟨htrunc, hcval, h0, h1⟩ := hkeeps hm0
  exact ⟨htrunc, hcval, codeStr_congr h0 h1⟩

end Sys2Proof.Machine
end

section
/-! PROOF. CLEAR (R140): what its completion leaves at every byte offset and in every register. -/

namespace Sys2Proof.Machine

/-- CLEAR leaves zero in the three buffer windows and the byte before outside them. -/
theorem readByte_completeClear (s : State) (a : Nat) :
    (completeClear s).readByte a = if isBufferAddr a then 0 else s.readByte a := by
  have hzeroed : (completeClear s).readByte a = (((s.zeroBuf .bin).zeroBuf .txt).zeroBuf .dg).readByte a := rfl
  simp only [hzeroed, readByte_zeroBuf]
  by_cases ha : isBufferAddr a = true
  · rw [if_pos ha]
    obtain ⟨b, hb⟩ := (isBufferAddr_iff a).mp ha
    cases b <;> simp [hb]
  · have hout (b : Buf) : ¬ (b.base ≤ a ∧ a < b.base + b.cap) := fun ⟨h1, h2⟩ => ha (isBufferAddr_buf b h1 h2)
    simp only [hout, ha, if_false, Bool.false_eq_true]

/-- The three buffers change the memory and nothing else; what follows them reads no memory (R140). -/
theorem exists_completeClear_eq (s : State) :
    ∃ m, completeClear s = ({ s with mem := m } : State).zeroRegs.complete .noError false false :=
  ⟨_, rfl⟩

/-- Settles O40: the completion is three buffers set to zero, the registers set to zero and `complete`. -/
theorem clearErasesSecretState : Obligations.ClearErasesSecretState := by
  intro s hs
  refine ⟨completeClear s, exec_of_run hs, fun a ha => ?_, fun a ha => ?_, ?_⟩
  · rw [readByte_completeClear, if_pos ha]
  · rw [readByte_completeClear, if_neg (by simp [ha])]
  · obtain ⟨m, hm⟩ := exists_completeClear_eq s
    rw [hm]
    rfl

end Sys2Proof.Machine
end

section
/-! PROOF. Exceptions (R150-R158): no step stops the block, what an accept checks, records and leaves unchanged, what a
completion records, and when WERR changes. -/

namespace Sys2Proof.Machine

/-! ### Every step answers (R156) -/

/-- An accept answers whether the word decodes or not. -/
theorem accept_answers_next (s : State) (v : Word) : ∃ t, s.accept v = .next t := by
  cases hd : decode v with
  | ok i => exact accept_of_decode hd ▸ exec_answers_next i s
  | reject r => exact ⟨_, accept_of_reject hd⟩

/-- A bus write answers: it is an accept, or a next state is written out for it (R62-R65). -/
theorem busWrite_answers_next (s : State) (off : Offset) (v : Word) : ∃ t, s.busWrite off v = .next t := by
  simp only [State.busWrite]
  split
  · split
    · exact ⟨_, rfl⟩
    · split
      · exact accept_answers_next _ v
      all_goals exact ⟨_, rfl⟩
  · exact ⟨_, rfl⟩

theorem sequencerTurn_answers_next (s : State) : ∃ t, s.sequencerTurn = .next t := by
  cases hs : s.seq with
  | idle => exact ⟨s, by rw [State.sequencerTurn, hs]⟩
  | run i => exact sequencerTurn_of_run hs ▸ exec_answers_next i s

/-- Settles O6: by the kind of step; a bus read and a reset answer by definition. -/
theorem stepAlwaysAnswersNext : Obligations.StepAlwaysAnswersNext := by
  intro s
  rw [step_eq_act]
  cases s.nextAction with
  | busRead off => exact ⟨_, rfl⟩
  | busWrite off v => exact busWrite_answers_next _ off v
  | completion => exact sequencerTurn_answers_next _
  | reset => exact ⟨_, rfl⟩

/-! ### The outcome of an accept (R151, R153) -/

/-- An accept starts the command with a clean record, or ends it at once with exactly an error or 'unavailable'. -/
theorem exec_outcome_of_idle {s t : State} {i : Instr} (hs : s.seq = .idle) (he : exec i s = .next t) :
    t.matched = false ∧
      (t.seq = .run i ∧ t.done = false ∧ t.err = .noError ∧ t.unavail = false ∨
        t.seq = .idle ∧ t.done = true ∧ (t.err ≠ .noError ∨ t.unavail = true)) := by
  rw [eq_acceptPart_of_exec hs he]
  obtain ⟨ds, w, now, hi, lo, n, hl⟩ := latched_frame i (s.recorded i)
  rcases acceptPart_cases i (s.recorded i) with ⟨ha, -⟩ | ⟨e, herr, ha⟩ | ⟨-, -, ha⟩
  · rw [ha, hl]
    exact ⟨rfl, .inl ⟨rfl, rfl, rfl, rfl⟩⟩
  · rw [ha]
    exact ⟨rfl, .inr ⟨rfl, rfl, .inl herr⟩⟩
  · rw [ha]
    exact ⟨rfl, .inr ⟨rfl, rfl, .inr rfl⟩⟩

/-! ### The accept checks that fail (R153 items 3 to 7) -/

theorem acceptEncode_of_illegal {s : State} (h : blenLegal s.blen = false) :
    acceptEncode s = s.complete .badBlen false false := by
  simp [acceptEncode, h]

theorem acceptDecode_of_illegal {s : State} (h : tlenLegal s.tlen = false) :
    acceptDecode s = s.complete .badTlen false false := by
  simp [acceptDecode, h]

theorem acceptTruncate_of_illegal {s : State} (h : digestLenLegal s.dlen = false) :
    acceptTruncate s = s.complete .badDsize false false := by
  simp [acceptTruncate, h]

section
variable {i : Instr} (hi : i = .generate ∨ i = .validate) {s : State}
include hi

/-- GENERATE and VALIDATE with no provider are unavailable, whatever the lengths (R153 item 3, R154). -/
theorem acceptPart_of_unconfigured (hen : s.pcfgEn = false) :
    acceptPart i s = (sampled i s).complete .noError false true := by
  rcases hi with rfl | rfl
  · simp [acceptPart, sampled, acceptGenerate, hen]
  · simp [acceptPart, sampled, acceptValidate, hen]

theorem acceptPart_of_illegal_dsize (hen : s.pcfgEn = true) (hd : digestLenLegal s.pcfgDsize = false) :
    acceptPart i s = (sampled i s).complete .badDsize false false := by
  rcases hi with rfl | rfl
  · simp [acceptPart, sampled, acceptGenerate, hen, hd]
  · simp [acceptPart, sampled, acceptValidate, hen, hd]

theorem acceptPart_of_illegal_tlen (hen : s.pcfgEn = true) (hd : digestLenLegal s.pcfgDsize = true)
    (ht : tlenLegal s.tlen = false) : acceptPart i s = (sampled i s).complete .badTlen false false := by
  rcases hi with rfl | rfl
  · simp [acceptPart, sampled, acceptGenerate, hen, hd, ht]
  · simp [acceptPart, sampled, acceptValidate, hen, hd, ht]

end

/-! ### The time sample of VALIDATE (R131, R153 item 2) -/

/-- A stated time input is latched in CTX and, put together again, in NOW_HI and NOW_LO (R38). -/
theorem latchTime_of_stated {s : State} {x : BitVec 64} (h : s.inputs.time = some x) :
    s.latchTime.nowHi ++ s.latchTime.nowLo = x ∧ s.latchTime.ctx.now = x := by
  simp only [State.latchTime, sampleTime_of_stated h, and_true]
  exact (BitVec.extractLsb'_append_extractLsb'_eq_extractLsb' (start₁ := 0) (len₁ := 32) rfl).trans
    BitVec.extractLsb'_eq_self

/-- Whatever the checks of VALIDATE find, its accept leaves the sample it began with. -/
theorem acceptPart_validate_of_stated {s : State} {x : BitVec 64} (h : s.inputs.time = some x) :
    (acceptPart .validate s).nowHi ++ (acceptPart .validate s).nowLo = x ∧ (acceptPart .validate s).ctx.now = x := by
  rcases acceptPart_cases .validate s with ⟨ha, -⟩ | ⟨e, -, ha⟩ | ⟨-, -, ha⟩ <;> rw [ha] <;>
    exact latchTime_of_stated h

/-- Settles O11: each failing check names its accept's end; the outcome and the sample are the same for all. -/
theorem firstFailingCheckEndsTheAccept : Obligations.FirstFailingCheckEndsTheAccept := by
  intro s i t hs he
  obtain ⟨hmatched, houtcome⟩ := exec_outcome_of_idle hs he
  obtain rfl := eq_acceptPart_of_exec hs he
  refine ⟨?_, ?_, ?_, fun hi => ⟨fun hen => ?_, fun hen hd => ?_, fun hen h1 h64 ht => ?_⟩, ?_, ?_, hmatched, ?_⟩
  · rintro rfl hb
    rw [acceptPart, acceptEncode_of_illegal (s := s.recorded _) ((blenLegal_false_iff _).mpr hb)]
    rfl
  · rintro rfl ht
    rw [acceptPart, acceptDecode_of_illegal (s := s.recorded _) ((tlenLegal_false_iff _).mpr ht)]
    rfl
  · rintro rfl hd
    rw [acceptPart, acceptTruncate_of_illegal (s := s.recorded _) ((digestLenLegal_false_iff _).mpr hd)]
    rfl
  · rw [acceptPart_of_unconfigured (s := s.recorded i) hi hen]
    exact ⟨rfl, rfl⟩
  · rw [acceptPart_of_illegal_dsize (s := s.recorded i) hi hen ((digestLenLegal_false_iff _).mpr hd)]
    rfl
  · rw [acceptPart_of_illegal_tlen (s := s.recorded i) hi hen ((digestLenLegal_iff _).mpr ⟨h1, h64⟩)
      ((tlenLegal_false_iff _).mpr ht)]
    rfl
  · rcases houtcome with ⟨hseq, -, herr, hun⟩ | ⟨hseq, -, hend⟩
    · simp [hseq, herr, hun]
    · simp [hseq, hend]
  · rcases houtcome with ⟨hseq, hdone, -⟩ | ⟨hseq, hdone, -⟩ <;> simp [hseq, hdone]
  · rintro rfl now hnow
    exact acceptPart_validate_of_stated (s := s.recorded .validate) hnow

/-- Settles O12: the accept is the unavailable result after VALIDATE's sample, which touches CTX, NOW and the draws. -/
theorem unconfiguredProviderGivesUnavailable : Obligations.UnconfiguredProviderGivesUnavailable := by
  intro s i hs hen hi
  refine ⟨acceptPart i (s.recorded i), exec_of_idle hs i, ?_, ?_, ?_⟩
  · rw [acceptPart_of_unconfigured (s := s.recorded i) hi hen]
    obtain ⟨now, nhi, nlo, n, hsample⟩ := sampled_frame i (s.recorded i)
    rw [hsample]
    simp only [State.complete, State.recorded, State.acceptRecord, State.latchOp, zeroKey, ← hs]
  · rintro rfl
    obtain ⟨hhi, hlo⟩ := Prod.mk.inj (now_acceptPart (i := .generate) nofun (s.recorded .generate))
    exact ⟨hlo, hhi⟩
  · rintro rfl now hnow
    exact (acceptPart_validate_of_stated (s := s.recorded .validate) hnow).1

/-! ### What an accept leaves unchanged (R151, R155) -/

/-- Only VALIDATE draws a value at its accept (R131, U5). -/
theorem draws_acceptPart {i : Instr} (hi : i ≠ .validate) (s : State) : (acceptPart i s).draws = s.draws := by
  have hl : (latched i s).draws = s.draws ∧ (sampled i s).draws = s.draws := by
    cases i
    case validate => exact absurd rfl hi
    all_goals exact ⟨rfl, rfl⟩
  rcases acceptPart_cases i s with ⟨ha, -⟩ | ⟨e, -, ha⟩ | ⟨-, -, ha⟩ <;> rw [ha]
  exacts [hl.1, hl.2, hl.2]

/-- Settles O13: the accept part keeps its frame after the record, which clears MATCH and sets LOP. -/
theorem acceptFrame : Obligations.AcceptFrame := by
  intro s i t hs he
  obtain ⟨hmatched, -⟩ := exec_outcome_of_idle hs he
  obtain rfl := eq_acceptPart_of_exec hs he
  obtain ⟨sq, d, ma, un, e, k, kl, cx, nhi, nlo, n, h⟩ := acceptPart_frame i (s.recorded i)
  refine ⟨?_, fun hi => ?_, fun a => ?_⟩
  · rw [h] at hmatched ⊢
    obtain rfl : ma = false := hmatched
    rfl
  · obtain ⟨hhi, hlo⟩ := Prod.mk.inj (now_acceptPart hi (s.recorded i))
    exact ⟨hlo, hhi, draws_acceptPart hi (s.recorded i)⟩
  · rw [h]
    rfl

/-! ### Completion (R152) -/

/-- Settles O41: an answered completion is its work, which keeps LOP, WERR and IE, and one `complete`. -/
theorem everyCompletionRecordsOneOutcome : Obligations.EveryCompletionRecordsOneOutcome := by
  intro s i t hs hans he
  obtain rfl := eq_completionPart_of_exec hs he
  rcases completionPart_cases i s with ⟨hasks, hsilent, -⟩ | ⟨-, u, e, m, hu, hwork, herr, hmatch⟩
  · exact absurd hsilent (hans hasks)
  · rw [hu]
    exact ⟨rfl, rfl, rfl, rfl, rfl, hwork.lop, hwork.werr, hwork.ctrlIe, hmatch, herr⟩

/-! ### WERR (R158) -/

theorem werr_begun (s : State) : s.begun.werr = s.werr := by
  obtain ⟨tu, inp, h⟩ := begun_frame s
  rw [h]

theorem werr_busRead (s : State) (off : Offset) : (s.busRead off).werr = s.werr := by
  obtain ⟨n, r, h⟩ := busRead_frame s off
  rw [h]

theorem werr_acceptPart (i : Instr) (s : State) : (acceptPart i s).werr = s.werr := by
  obtain ⟨sq, d, ma, un, e, k, kl, cx, hi, lo, n, h⟩ := acceptPart_frame i s
  rw [h]

theorem werr_completionPart (i : Instr) (s : State) : (completionPart i s).werr = s.werr := by
  rcases completionPart_cases i s with ⟨-, -, hu⟩ | ⟨-, u, e, m, hu, hwork, -⟩
  · rw [hu]
  · rw [hu, State.complete_werr, hwork.werr]

/-- Of the registers only STATUS has a write that reaches WERR (R26). -/
theorem werr_regWrite (s : State) {r : Reg} (hr : r ≠ .status) (v : Word) : (s.regWrite r v).werr = s.werr := by
  cases r
  case status => exact absurd rfl hr
  all_goals rfl

/-- A bus write keeps WERR, or sets it as an ignored locked write (R65), or is the acknowledgement at STATUS (R26). -/
theorem werr_busWrite {s t : State} {off : Offset} {v : Word} (h : s.busWrite off v = .next t) :
    t.werr = s.werr ∨ (s.busy = true ∧ (locate off).locked = true ∧ t.werr = true) ∨
      (off = 0x010#12 ∧ t.werr = (s.werr && !v.getLsbD 8)) := by
  rcases busWrite_cases s off v t h with ⟨-, rfl⟩ | ⟨hb, hl, rfl⟩ | ⟨-, hs, i, -, he⟩ | ⟨-, -, -, rfl⟩ |
    ⟨r, ho, -, -, rfl⟩ | ⟨b, j, -, -, -, rfl⟩
  · exact .inl rfl
  · exact .inr (.inl ⟨hb, hl, rfl⟩)
  · rw [eq_acceptPart_of_exec (s := s.respond _) hs he, werr_acceptPart]
    exact .inl rfl
  · exact .inl rfl
  · by_cases hr : r = .status
    · subst hr
      exact .inr (.inr ⟨ho, rfl⟩)
    · exact .inl (werr_regWrite (s.respond _) hr v)
  · exact .inl rfl

/-- Everything a step can do to WERR, by its action. -/
theorem werr_step {s t : State} (h : step s = .next t) :
    t.werr = s.werr ∨
    (∃ off v, s.nextAction = .busWrite off v ∧ s.busy = true ∧ (locate off).locked = true ∧ t.werr = true) ∨
    (∃ v, s.nextAction = .busWrite 0x010#12 v ∧ t.werr = (s.werr && !v.getLsbD 8)) ∨
    (s.nextAction = .reset ∧ t.werr = false) := by
  rw [step_eq_act] at h
  have hbusy : s.begun.busy = s.busy := by rw [State.busy, State.busy, seq_begun]
  rw [← hbusy, ← werr_begun s]
  rcases act_cases h with ⟨off, -, rfl⟩ | ⟨off, v, ha, hw⟩ | ⟨-, -, rfl⟩ | ⟨-, i, -, rfl⟩ | ⟨ha, rfl⟩
  · exact .inl (werr_busRead _ off)
  · rcases werr_busWrite hw with hkeep | ⟨hb, hl, hset⟩ | ⟨rfl, hack⟩
    · exact .inl hkeep
    · exact .inr (.inl ⟨off, v, ha, hb, hl, hset⟩)
    · exact .inr (.inr (.inl ⟨v, ha, hack⟩))
  · exact .inl rfl
  · exact .inl (werr_completionPart i _)
  · exact .inr (.inr (.inr ⟨ha, rfl⟩))

/-- Settles O45: of what a step can do to WERR one case sets it, and the acknowledgement and the reset clear it. -/
theorem werrIsSticky : Obligations.WerrIsSticky := by
  intro s t h
  refine ⟨fun hclear hset => ?_, fun hset hclear => ?_⟩
  · rcases werr_step h with hkeep | ⟨off, v, ha, hb, hl, -⟩ | ⟨v, -, hack⟩ | ⟨-, hreset⟩
    · simp [hkeep, hclear] at hset
    · obtain ⟨u, rest, hu, hact⟩ := nextAction_eq ha nofun
      exact ⟨hb, u, rest, off, v, hu, hact, hl⟩
    · simp [hack, hclear] at hset
    · simp [hreset] at hset
  · rcases werr_step h with hkeep | ⟨off, v, -, -, -, hlocked⟩ | ⟨v, ha, hack⟩ | ⟨ha, -⟩
    · simp [hkeep, hset] at hclear
    · simp [hlocked] at hclear
    · obtain ⟨u, rest, hu, hact⟩ := nextAction_eq ha nofun
      exact ⟨u, rest, hu, .inr ⟨v, hact, by simpa [hack, hset] using hclear⟩⟩
    · obtain ⟨u, rest, hu, hact⟩ := nextAction_eq ha nofun
      exact ⟨u, rest, hu, .inl hact⟩

end Sys2Proof.Machine
end

section
/-! PROOF. Reset (R170): what a reset step leaves, whatever was in flight. -/

namespace Sys2Proof.Machine

@[simp] theorem act_reset (s : State) : s.act .reset = .next s.hardReset := rfl

/-- The fields that a reset keeps are the environment's; no register shows them. -/
theorem regRead_hardReset (s : State) (r : Reg) : s.hardReset.regRead r = State.reset.regRead r := by
  cases r <;> rfl

/-- A reset lists no byte as written, so every byte is the draw of the new reset count (U1). -/
theorem readByte_hardReset (s : State) (a : Nat) :
    s.hardReset.readByte a = Config.powerOnByte (s.epoch + 1) a := rfl

/-- Settles O57: the step is `hardReset` of the turn's state, whose registers are those of `State.reset`. -/
theorem resetAbandonsTheCommandInFlight : Obligations.ResetAbandonsTheCommandInFlight := by
  intro s t rest ht ha
  have hstep : step s = .next (s.takeTurn t rest).hardReset := by rw [step_of_turns_cons ht, ha, act_reset]
  refine ⟨_, hstep, rfl, rfl, rfl, rfl, fun r => ?_, readByte_hardReset _, rfl, rfl⟩
  rw [regRead_hardReset]
  cases r <;> decide

end Sys2Proof.Machine
end
